-- ==== Sys2Proof/Word.lean ====
section
/-! DEFINITION. The word types of the EEPROM bus controller: the Byte of R11 and the 32-bit host register value of R28. -/

namespace Sys2Proof

/-- R11: a Byte is an "8-bit unsigned value, the unit of storage and bus transfer". -/
abbrev Byte := BitVec 8

/-- R28: the widest host register; `AOP_W = ATT_W = 32` (R9). -/
abbrev Word := BitVec 32

end Sys2Proof
end

