-- ==== Sys2Proof/Config.lean ====
section
/-! DEFINITION. The parameter tuple of the controller (R9), and the free values: constants without a body for what the spec leaves open. -/

namespace Sys2Proof

/-- R9: the tuple `(MAX_ADDR, PAGE_SIZE, POLL_BUDGET, SETTLE_TICKS, RETRY_CAP)` a model takes as its configuration.
It is a field of State that no step changes, so that a statement about every state is one about every tuple (log 1). -/
structure Config where
  /-- `MAX_ADDR`: "the device's highest addressable byte". -/
  maxAddr : Nat
  /-- `PAGE_SIZE`. -/
  pageSize : Nat
  /-- `POLL_BUDGET`: the greatest number of samples of one polling call. -/
  pollBudget : Nat
  /-- `SETTLE_TICKS`. -/
  settleTicks : Nat
  /-- `RETRY_CAP`: `none` (unbounded, the default) or `K`. -/
  retryCap : Option Nat
  deriving DecidableEq, Repr

/-- R9: `ADDR_W` is "the least `w` with `2^w > MAX_ADDR`". -/
def Config.addrW (c : Config) : Nat := Nat.log2 c.maxAddr + 1

/-- DESIGN CHOICE (log 1): the tuple of `State.reset`. The spec fixes no number (R9); 0x7FFF and 64 are the example
configuration's, 4096 is "a few thousand iterations". No statement rests on these values. -/
def Config.launch : Config :=
  { maxAddr := 0x7FFF, pageSize := 64, pollBudget := 4096, settleTicks := 2, retryCap := none }

/-- The bytes the spec calls `ANY` (R73, R132, U1, U2, U10, U11): the `n`-th free byte of a run (log 6). -/
opaque Config.freeByte : Nat → Byte

/-- The "free boolean" of U4, U5, U9 and U12: the `n`-th free bit of a run (log 6). -/
opaque Config.freeBit : Nat → Bool

/-- R79: what the platform left at an address of the array that nothing has written since launch (log 26). -/
opaque Config.launchByte : Nat → Byte

/-- R77: the array of an UNDEFINED device "is unconstrained": its byte at an address, at the `n`-th draw (log 25). -/
opaque Config.undefinedByte : Nat → Nat → Byte

end Sys2Proof
end

