-- ==== Sys2Proof/Machine/State.lean ====
section
/-! DEFINITION. The state of the controller, of the device behind its pins, of its ports, and the machine right after reset. -/

namespace Sys2Proof.Machine

/-- The device array, as far as it was written since launch: (address, byte), addresses strictly rising (log 26). -/
abbrev Memory := List Host.Cell

/-- R36: the labels `PH` can hold. -/
inductive Label
  | idle
  | prim
  | rs0 | rs1 | rs2 | rs3 | rs4 | rs5 | rs6
  | wb0 | wb1 | wb2 | wb3 | wb4 | wb5 | wb6
  | pl0 | pl1 | pl2 | pl3 | pl4 | pl5
  | wp1 | wp2 | wp3 | wp4 | wp5 | wp6 | wp7
  | ps0 | ps1 | ps2 | ps3 | ps4 | ps5 | ps6 | ps7
  | ls0
  deriving DecidableEq, Repr

/-- R30: the labels `RET_T` can hold: the continuations of `READSEQ` and `POLL`. -/
inductive RetT
  /-- R162, R163: `finish`. -/
  | finish
  /-- R193, R195: after the poll of an attempt. -/
  | afterPoll
  /-- R195, R196: the compare of the read-back. -/
  | check
  deriving DecidableEq, Repr

/-- R30: the labels `RET_P` can hold: the continuations of the page writer `WP`. -/
inductive RetP
  /-- R192: `finish`. -/
  | finish
  /-- R241: `after` of `eraseAll`. -/
  | afterBlock
  /-- R246: `after` of `loadStream`. -/
  | afterChunk
  deriving DecidableEq, Repr

/-- R15: the events of the bus trace. -/
inductive Event
  /-- `ADDR(v)`. -/
  | addr (v : Nat)
  /-- `DATA(b)`. -/
  | data (b : Byte)
  /-- `DIR(out)` and `DIR(in)`. -/
  | dir (out : Bool)
  /-- `CE+` and `CE-`. -/
  | ce (on : Bool)
  /-- `WE+` and `WE-`. -/
  | we (on : Bool)
  /-- `OE+` and `OE-`. -/
  | oe (on : Bool)
  /-- `SAMPLE->v`. -/
  | sample (v : Byte)
  /-- `SETTLE`. -/
  | settle
  deriving DecidableEq, Repr

/-- R20: the Bus State. -/
structure Bus where
  /-- R21 `A_LATCH`; `ADDR_W` bits, always in `[0, MAX_ADDR]`. -/
  aLatch : Nat
  /-- R22 `D_LATCH`. -/
  dLatch : Byte
  /-- R23 `DIR`: true is output. -/
  dir : Bool
  /-- R24 `CE`: true is asserted. -/
  ce : Bool
  /-- R24 `WE`: true is asserted. -/
  we : Bool
  /-- R24 `OE`: true is asserted. -/
  oe : Bool
  deriving DecidableEq, Repr

/-- R28: the host-visible registers that are stored. -/
structure Regs where
  /-- `ADDR_OP`, R29. -/
  addrOp : Word
  /-- `DATA_OP`, R29. -/
  dataOp : Byte
  /-- `LEN_OP`, R29. -/
  lenOp : Word
  /-- `RDATA`, R31. -/
  rdata : Byte
  /-- `ATTEMPTS`, R34. -/
  attempts : Word
  /-- `PAGE_BUF`, R32: `PAGE_SIZE` bytes. -/
  pageBuf : List Byte
  deriving DecidableEq, Repr

/-- R33: the flags of `STATUS` that are not copies of the Bus State. -/
structure Flags where
  busy : Bool
  ok : Bool
  pollOk : Bool
  verifyOk : Bool
  dropped : Bool
  deriving DecidableEq, Repr

/-- R30, R35: the sequencer position and the working registers. Naturals hold the working registers whose sums "never
wrap" (R35, D17; log 18). -/
structure Sequencer where
  /-- `OP`: the opcode accepted. -/
  op : Byte
  /-- `PH`: the label of the next step. -/
  ph : Label
  retT : RetT
  retP : RetP
  idx : Nat
  pollCnt : Nat
  expect : Byte
  tAddr : Nat
  pgBase : Nat
  pgLen : Nat
  remain : Nat
  allOk : Bool
  sEnded : Bool
  settleCnt : Nat
  deriving DecidableEq, Repr

/-- Which device stands behind the pins (R76, R80; log 8). -/
inductive DeviceKind
  /-- R77 word for word. -/
  | reference
  /-- R77 with a free choice at every point that U4, U5, U9 and U12 leave open. -/
  | loose
  deriving DecidableEq, Repr

/-- R75, R76: the device behind the pins. A device "wholly unconstrained (every sample `ANY`)" is one with `undef`. -/
structure Device where
  kind : DeviceKind
  /-- `mem`: the array, as far as it was written since launch. -/
  mem : Memory
  /-- `prot`: the Protection State (R71). -/
  prot : Bool
  /-- `busy`: an internal write cycle runs (R69). -/
  busy : Bool
  /-- `pend`: (address, byte) pairs latched in the open window, oldest first. -/
  pend : List Host.Cell
  /-- `cycle`: the pairs being committed. -/
  cycle : List Host.Cell
  /-- `last`: the last pair latched; absent before the first. -/
  last : Option Host.Cell
  /-- R77 `UNDEFINED`: every later sample is `ANY` and the array is unconstrained. -/
  undef : Bool
  /-- R78: the device "leaves `busy` true for ever". -/
  hung : Bool
  /-- U5, R311: both sides drove the data bus in the open window. -/
  contended : Bool
  deriving DecidableEq, Repr

/-- R248: the pins of the stream port that the producer drives. -/
structure StreamPort where
  /-- `S_VALID`. -/
  valid : Bool
  /-- `S_END`. -/
  ended : Bool
  /-- `S_DATA`. -/
  data : Byte
  deriving DecidableEq, Repr

/-- R13: the moves of the agents, with the data each brings (log 3). -/
inductive Turn
  /-- The sequencer takes its next step. -/
  | sequencer
  /-- The host writes a register (R28, R101, R107). -/
  | hostWrite (index : Nat) (value : Word)
  /-- The host reads a register (R28). -/
  | hostRead (index : Nat)
  /-- The host's `repeat R 1 until STATUS[0] = 0` (R110; log 23). -/
  | hostAwait
  /-- The producer drives its pins (R248). -/
  | producer (valid ended : Bool) (data : Byte)
  /-- The producer delivers the rest of a `loadStream` call's `source`, then its end mark (R110, R248; log 29). -/
  | deliver (source : List Byte)
  /-- The device's own step `Commit` (R77). -/
  | commit
  /-- The device's own step `Fail` (R78); a true flag keeps the pair at its place of the cycle, a missing one loses it. -/
  | fail (keep : List Bool)
  /-- R78: the device stays busy for ever. -/
  | hang
  /-- `RST` (R300). -/
  | reset
  deriving DecidableEq, Repr

/-- The machine: the controller's registers (R20, R28, R30, R33, R35), its configuration (R9), the device (R75), the stream
port (R248), and the model's own fields: pending moves, host read answers, bus trace (R15), draw counter. -/
structure State where
  cfg : Config
  bus : Bus
  regs : Regs
  flags : Flags
  seq : Sequencer
  dev : Device
  port : StreamPort
  inputs : List Turn
  answers : List Word
  trace : List Event
  draws : Nat
  deriving DecidableEq, Repr

/-- Why the machine stops with a fault. -/
inductive Fault
  /-- `BUSY = 1` with a sequencer position (`OP`, `PH`, `RET_T`) that the accepted command never holds (R30, R36): raised by
  a command's meaning and by the sequencer's decoding of `OP`; safe, since no run from reset reaches such a state (log 19). -/
  | strayPosition
  deriving DecidableEq, Repr

/-- Why the machine refuses to go on. -/
inductive Refusal
  /-- An instruction without a meaning yet: raised by `exec`'s arms only; safe. -/
  | notModelled (mnemonic : String)
  /-- R10: a parameter tuple outside its constraints: raised by `step`; safe, "errs toward unprovable" (log 17). -/
  | badConfig
  deriving DecidableEq, Repr

/-- The outcome of one step of this machine. -/
abbrev Result := Host.Outcome State Fault Refusal

/-- R38: the Bus State at startup: "all control lines idle, bus direction set to output, address and data latches zeroed". -/
def Bus.reset : Bus :=
  { aLatch := 0, dLatch := 0, dir := true, ce := false, we := false, oe := false }

/-- R38: the host registers at reset. -/
def Regs.reset (c : Config) : Regs :=
  { addrOp := 0, dataOp := 0, lenOp := 0, rdata := 0, attempts := 0, pageBuf := List.replicate c.pageSize 0 }

/-- R38: the flags at reset. -/
def Flags.reset : Flags :=
  { busy := false, ok := false, pollOk := false, verifyOk := false, dropped := false }

/-- R38: the sequencer at reset: `PH = IDLE`; the others are unspecified and named here (DESIGN CHOICE, log 5). -/
def Sequencer.reset : Sequencer :=
  { op := 0, ph := .idle, retT := .finish, retP := .finish, idx := 0, pollCnt := 0, expect := 0, tAddr := 0,
    pgBase := 0, pgLen := 0, remain := 0, allOk := false, sEnded := false, settleCnt := 0 }

/-- R79: the device at launch, "whatever the platform left"; DESIGN CHOICE, log 7 and log 8. -/
def Device.launch : Device :=
  { kind := .loose, mem := [], prot := false, busy := false, pend := [], cycle := [], last := none,
    undef := false, hung := false, contended := false }

/-- The stream port with nothing offered; DESIGN CHOICE, log 22. -/
def StreamPort.quiet : StreamPort := { valid := false, ended := false, data := 0 }

/-- R38: the machine after reset with a given configuration. -/
def State.resetWith (c : Config) : State :=
  { cfg := c, bus := .reset, regs := .reset c, flags := .reset, seq := .reset, dev := .launch, port := .quiet,
    inputs := [], answers := [], trace := [], draws := 0 }

/-- R38: the machine right after reset. -/
def State.reset : State := State.resetWith Config.launch

end Sys2Proof.Machine
end

