-- ==== Sys2Proof/Machine/Device.lean ====
section
/-! DEFINITION. The device behind the pins: its array, its reactions to pin changes, its own steps (R66 to R79, U3 to U12). -/

namespace Sys2Proof.Machine

/-! ### The array -/

/-- The byte listed for an address, if it was written since launch. -/
def Memory.read? : Memory → Nat → Option Byte
  | [], _ => none
  | (k, b) :: rest, a => if k = a then some b else Memory.read? rest a

/-- R60: one byte stored, keeping the addresses strictly rising. -/
def Memory.write : Memory → Nat → Byte → Memory
  | [], a, v => [(a, v)]
  | (k, b) :: rest, a, v =>
    if a < k then (a, v) :: (k, b) :: rest
    else if a = k then (a, v) :: rest
    else (k, b) :: Memory.write rest a v

/-- R77 `Commit`: the pairs stored in order. -/
def Memory.writeAll (m : Memory) (cells : List Host.Cell) : Memory :=
  cells.foldl (fun m c => Memory.write m c.1 c.2) m

/-- The canonical form: addresses strictly rising. An unlisted address reads as no listed byte, so no entry is redundant (log 26). -/
abbrev Memory.wf (m : Memory) : Prop := m.Pairwise (fun c d => c.1 < d.1)

/-- R76 `mem[a]`: the byte written there, else what the platform left (R79, log 26). -/
def Device.stored (d : Device) (a : Nat) : Byte := (Memory.read? d.mem a).getD (Config.launchByte a)

/-! ### The protection sequences -/

/-- R221 `UNLOCK_SEQ`. -/
def unlockSeq : List Host.Cell :=
  [(0x5555, 0xAA), (0x2AAA, 0x55), (0x5555, 0x80), (0x5555, 0xAA), (0x2AAA, 0x55), (0x5555, 0x20)]

/-- R221 `LOCK_SEQ`. -/
def lockSeq : List Host.Cell := [(0x5555, 0xAA), (0x2AAA, 0x55), (0x5555, 0xA0)]

/-- R64, R77: the pairs lie in one aligned page and are no more than a page holds (U7, log 14). -/
def onePage (pageSize : Nat) (cells : List Host.Cell) : Bool :=
  cells.all (fun c => cells.all fun d => c.1 / pageSize == d.1 / pageSize) && decide (cells.length ≤ pageSize)

/-! ### Reactions to pin changes -/

/-- A device and the next unused draw. -/
abbrev Reacted := Device × Nat

/-- The answer of the reference device at a point the spec leaves open, or a free bit of the looser device (log 8). -/
def Device.choose (d : Device) (n : Nat) (reference : Bool) : Bool × Nat :=
  match d.kind with
  | .reference => (reference, n)
  | .loose => (Config.freeBit n, n + 1)

/-- R77 `on CE 0->1`: a window opens. -/
def Device.openWindow (d : Device) : Device := { d with pend := [], contended := false }

/-- R67, R77: the byte on the data bus at a latch moment: `D_LATCH` where the controller drives, else `ANY`. -/
def latchedByte (b : Bus) (n : Nat) : Byte × Nat :=
  if b.dir then (b.dLatch, n) else (Config.freeByte n, n + 1)

/-- R77 `on WE 1->0 with CE = 1`: the trailing edge latches (address, data). A pulse during the write cycle is ignored
by the reference device (D22); whether a looser one ignores it is open (U9, log 12). -/
def Device.latch (d : Device) (b : Bus) (n : Nat) : Reacted :=
  if b.oe then ({ d with undef := true }, n)
  else if d.busy then
    let (ignored, n) := d.choose n true
    ({ d with undef := d.undef || !ignored }, n)
  else
    let (v, n) := latchedByte b n
    ({ d with pend := d.pend ++ [(b.aLatch, v)], last := some (b.aLatch, v) }, n)

/-- R77: the device takes a protection sequence. Through bus contention it may be ignored (R311, U5, log 11). -/
def Device.recognise (d : Device) (on : Bool) (n : Nat) : Reacted :=
  if d.contended then
    let (taken, n) := d.choose n true
    ({ d with prot := if taken then on else d.prot }, n)
  else ({ d with prot := on }, n)

/-- R77 `on CE 1->0 with pend != []`: what the device makes of the bytes latched in the window. -/
def Device.closeWindow (d : Device) (pageSize n : Nat) : Reacted :=
  let (d, n) :=
    if d.pend = [] then (d, n)
    else if d.pend = unlockSeq then d.recognise false n
    else if d.pend = lockSeq then d.recognise true n
    else if d.prot then (d, n)
    else if onePage pageSize d.pend then ({ d with busy := true, cycle := d.pend }, n)
    else ({ d with undef := true }, n)
  ({ d with pend := [] }, n)

/-- U4: a pulse whose window closes before its trailing edge. The reference device latches nothing (R77); whether a
looser one does is a free boolean (log 10). -/
def Device.cutPulse (d : Device) (b : Bus) (n : Nat) : Reacted :=
  if b.we then
    let (taken, n) := d.choose n false
    if taken then d.latch b n else (d, n)
  else (d, n)

/-- R310, U3: from the step that makes `WE = OE = 1` with `CE = 1` the device is undefined (log 9). R311, U5: with
`DIR = 1`, `CE = 1` and `OE = 1` both sides drive the bus. -/
def Device.watch (d : Device) (b : Bus) : Device :=
  { d with undef := d.undef || (b.ce && b.we && b.oe), contended := d.contended || (b.dir && b.ce && b.oe) }

/-- R74 `Dev.React(before, after)`: only chip-enable rising, write-enable falling inside a window and chip-enable falling
matter; then the hazards of the new lines are noted. -/
def Device.react (d : Device) (pageSize : Nat) (before after : Bus) (n : Nat) : Reacted :=
  let d := if !before.ce && after.ce then d.openWindow else d
  let (d, n) := if before.ce && before.we && !after.we then d.latch before n else (d, n)
  let (d, n) :=
    if before.ce && !after.ce then
      let (d, n) := d.cutPulse before n
      d.closeWindow pageSize n
    else (d, n)
  (d.watch after, n)

/-- U12: the bytes latched so far are a beginning of a protection sequence. -/
def sequenceBegun (cells : List Host.Cell) : Bool :=
  cells != [] && (cells.isPrefixOf unlockSeq || cells.isPrefixOf lockSeq)

/-- R82, R302: the controller's reset drops chip-enable and write-enable in one step. The window closes on the bytes
latched so far; the pulse in progress is U4, the protection flag of a cut sequence a free boolean (U12, log 13).
DESIGN CHOICE (log 13): a lock or unlock sequence cut after two or more pulses, in front of an unprotected device, has
latched bytes that lie in no one page (unless `PAGE_SIZE` is above 0x5555); the whole device, of either kind, is then
undefined as R77 ends it (U7), where U12 asks only for old or new bytes and a free flag. -/
def Device.onReset (d : Device) (pageSize : Nat) (b : Bus) (n : Nat) : Reacted :=
  if b.ce then
    let (d, n) := d.cutPulse b n
    let cut := sequenceBegun d.pend
    let (d, n) := d.closeWindow pageSize n
    if cut && d.kind == .loose then ({ d with prot := Config.freeBit n }, n + 1) else (d, n)
  else (d, n)

/-! ### Samples -/

/-- R70, U10: the status byte during the write cycle: bit 7 the complement of the last byte latched, the rest `ANY`. -/
def statusByte (last free : Byte) : Byte := (~~~last &&& 0x80) ||| (free &&& 0x7F)

/-- R77 `Drive(a)`: what the device puts out for an address. -/
def Device.drive (d : Device) (a n : Nat) : Byte × Nat :=
  if d.undef then (Config.freeByte n, n + 1)
  else if d.busy then
    match d.last with
    | some (k, b) => if a = k then (statusByte b (Config.freeByte n), n + 1) else (Config.freeByte n, n + 1)
    | none => (Config.freeByte n, n + 1)
  else (d.stored a, n)

/-- R73 `Dev.Sample(bus, dev)`. -/
def Device.sample (d : Device) (b : Bus) (n : Nat) : Byte × Nat :=
  if b.dir then (Config.freeByte n, n + 1)
  else if b.we && b.oe then (Config.freeByte n, n + 1)
  else if b.ce && b.oe then d.drive b.aLatch n
  else (Config.freeByte n, n + 1)

/-! ### The device's own steps -/

/-- R77 `Commit`, "enabled iff busy"; a device that stays busy for ever (R78) never takes it. -/
def Device.commit (d : Device) : Device :=
  if d.busy && !d.hung then { d with mem := Memory.writeAll d.mem d.cycle, busy := false, cycle := [] } else d

/-- R78 `Fail`, "enabled iff `busy`": any subset of the cycle is written. -/
def Device.fail (d : Device) (keep : List Bool) : Device :=
  if d.busy && !d.hung then
    { d with mem := Memory.writeAll d.mem ((d.cycle.zip keep).filterMap fun c => if c.2 then some c.1 else none),
             busy := false, cycle := [] }
  else d

/-- R78: "or leaves `busy` true for ever". -/
def Device.hang (d : Device) : Device := if d.busy then { d with hung := true } else d

end Sys2Proof.Machine
end

