-- ==== Sys2Proof/Syntax.lean ====
section
/-! DEFINITION. The seventeen host commands (R5, R102), one constructor per row of the opcode table. -/

namespace Sys2Proof

/-- R102: the commands of format `C8`. The arguments other than the direction bit are host registers (R100). -/
inductive Instr
  /-- `setAddress(a)`, `a = ADDR_OP`; R131. -/
  | setaddr
  /-- `setData(b)`, `b = DATA_OP`; R132. -/
  | setdata
  /-- `readData() -> Byte`; R134. -/
  | readdata
  /-- `setDataDirection(output)`, `output` is opcode bit 0; R133. -/
  | setdir (output : Bool)
  /-- `assertChipEnable()`; R135. -/
  | ceAssert
  /-- `deassertChipEnable()`; R136. -/
  | ceDeassert
  /-- `assertWriteEnable()`; R137. -/
  | weAssert
  /-- `deassertWriteEnable()`; R138. -/
  | weDeassert
  /-- `assertOutputEnable()`; R139. -/
  | oeAssert
  /-- `deassertOutputEnable()`; R140. -/
  | oeDeassert
  /-- `readByte(a)`; R162. -/
  | readbyte
  /-- `writeByte(b, a)`; R164. -/
  | writebyte
  /-- `writePage(bytes, startAddress)`; R192. -/
  | writepage
  /-- `unlock()`; R223. -/
  | unlock
  /-- `lock()`; R225. -/
  | lock
  /-- `eraseAll()`; R241. -/
  | eraseall
  /-- `loadStream(source, totalLength, startAddress)`; R246. -/
  | loadstream
  deriving DecidableEq, Repr

end Sys2Proof
end

