-- ==== Sys2Proof/WellFormed.lean ====
section
/-! DEFINITION. The checks of R9 and R10 on the parameter tuple, and well-formed instructions. -/

namespace Sys2Proof

/-- R10 (a): "`MAX_ADDR >= 0x5555`", so that the protection sequences are not clamped. -/
abbrev Config.coversMagic (c : Config) : Prop := 0x5555 ≤ c.maxAddr

/-- R10 (b): "`MAX_ADDR < 2^AOP_W`", with `AOP_W = 32`. -/
abbrev Config.fitsOperand (c : Config) : Prop := c.maxAddr < 2 ^ 32

/-- R10 (c): "`1 <= PAGE_SIZE <= MAX_ADDR + 1`". -/
abbrev Config.pageFits (c : Config) : Prop := 1 ≤ c.pageSize ∧ c.pageSize ≤ c.maxAddr + 1

/-- R9: "`POLL_BUDGET >= 1`". -/
abbrev Config.polls (c : Config) : Prop := 1 ≤ c.pollBudget

/-- R9: `RETRY_CAP` is "`none` or natural `K >= 1`". -/
abbrev Config.capPositive (c : Config) : Prop := c.retryCap ≠ some 0

/-- R9 and R10: an admissible parameter tuple. -/
abbrev Config.wf (c : Config) : Prop :=
  c.coversMagic ∧ c.fitsOperand ∧ c.pageFits ∧ c.polls ∧ c.capPositive

/-- R100, R104: a command has no operand field but the direction bit of `SETDIR`, both of whose values are defined (R102), so
every instruction is well formed; what can be ill formed is a code that is no instruction, which the decoder rejects (R105). -/
def Instr.wf : Instr → Bool
  | .setaddr | .setdata | .readdata | .setdir true | .setdir false => true
  | .ceAssert | .ceDeassert | .weAssert | .weDeassert | .oeAssert | .oeDeassert => true
  | .readbyte | .writebyte | .writepage | .unlock | .lock | .eraseall | .loadstream => true

end Sys2Proof
end

