-- ==== Sys2Proof/Decode.lean ====
section
/-! DEFINITION. Decoding the 8-bit opcode of `CMD` (R100, R102, R105), and the encoder. -/

namespace Sys2Proof

/-- Why a value of `CMD` is no command. -/
inductive DecodeError
  /-- R105: "Every value of `CMD` not in rule R102 is reserved". -/
  | reserved (code : Byte)
  deriving DecidableEq, Repr

/-- One row of the opcode table (R112): `CMD & mask = pattern` selects it, `read` takes the fields out of `CMD`. -/
structure OpcodeRow where
  mask : Byte
  pattern : Byte
  read : Byte → Instr

/-- R102: the opcode map, a row per command, in the order of the table. -/
def opcodeTable : List OpcodeRow :=
  [ ⟨0b11111111, 0b00000001, fun _ => .setaddr⟩,
    ⟨0b11111111, 0b00000010, fun _ => .setdata⟩,
    ⟨0b11111111, 0b00000011, fun _ => .readdata⟩,
    ⟨0b11111110, 0b00000100, fun v => .setdir (v.getLsbD 0)⟩,
    ⟨0b11111111, 0b00010000, fun _ => .ceAssert⟩,
    ⟨0b11111111, 0b00010001, fun _ => .ceDeassert⟩,
    ⟨0b11111111, 0b00010010, fun _ => .weAssert⟩,
    ⟨0b11111111, 0b00010011, fun _ => .weDeassert⟩,
    ⟨0b11111111, 0b00010100, fun _ => .oeAssert⟩,
    ⟨0b11111111, 0b00010101, fun _ => .oeDeassert⟩,
    ⟨0b11111111, 0b00100000, fun _ => .readbyte⟩,
    ⟨0b11111111, 0b00100001, fun _ => .writebyte⟩,
    ⟨0b11111111, 0b00110000, fun _ => .writepage⟩,
    ⟨0b11111111, 0b01000000, fun _ => .unlock⟩,
    ⟨0b11111111, 0b01000001, fun _ => .lock⟩,
    ⟨0b11111111, 0b01010000, fun _ => .eraseall⟩,
    ⟨0b11111111, 0b01010001, fun _ => .loadstream⟩ ]

/-- R112: the row a value of `CMD` selects. -/
def OpcodeRow.selects (r : OpcodeRow) (v : Byte) : Bool := v &&& r.mask == r.pattern

/-- R112: "maps every 8-bit value either to one row or to 'reserved'". -/
def decode (v : Byte) : Except DecodeError Instr :=
  match opcodeTable.find? (·.selects v) with
  | some r => .ok (r.read v)
  | none => .error (.reserved v)

/-- R102: the opcode of a command. -/
def encode : Instr → Byte
  | .setaddr => 0x01
  | .setdata => 0x02
  | .readdata => 0x03
  | .setdir output => if output then 0x05 else 0x04
  | .ceAssert => 0x10
  | .ceDeassert => 0x11
  | .weAssert => 0x12
  | .weDeassert => 0x13
  | .oeAssert => 0x14
  | .oeDeassert => 0x15
  | .readbyte => 0x20
  | .writebyte => 0x21
  | .writepage => 0x30
  | .unlock => 0x40
  | .lock => 0x41
  | .eraseall => 0x50
  | .loadstream => 0x51

/-- The one byte of an instruction word as the opcode table numbers its bits; every command is one `CMD` value (R106). -/
def opcodeOfWord (nbits w : Nat) : Byte := BitVec.ofNat 8 (w % 2 ^ nbits)

/-- The instruction the decoder reads from an opcode-table word of `nbits` bits. -/
def decodeTableWord (nbits w : Nat) : Option Instr :=
  match decode (opcodeOfWord nbits w) with
  | .ok i => some i
  | .error _ => none

end Sys2Proof
end

