-- ==== Sys2Proof/Machine/Flags.lean ====
section
/-! DEFINITION. The flags (R33): acceptance (R101), `finish` (R108), the result flags, and the STATUS view. -/

namespace Sys2Proof.Machine

/-- One bit as a 32-bit value. -/
def bitAt (b : Bool) (k : Nat) : Word := if b then 1#32 <<< k else 0#32

/-- R33: `STATUS`, a read-only view. -/
def State.status (s : State) : Word :=
  bitAt s.flags.busy 0 ||| bitAt s.flags.ok 1 ||| bitAt s.flags.pollOk 2 ||| bitAt s.flags.verifyOk 3 |||
  bitAt s.flags.dropped 4 ||| bitAt s.bus.dir 5 ||| bitAt s.bus.ce 6 ||| bitAt s.bus.we 7 ||| bitAt s.bus.oe 8

/-- `PH <- l` (R12, R30). -/
def State.goto (s : State) (l : Label) : State := { s with seq := { s.seq with ph := l } }

/-- R101: `OP <- v; OK <- 0; DROPPED <- 0; BUSY <- 1`. -/
def State.accept (s : State) (i : Instr) : State :=
  { s with
    flags := { s.flags with busy := true, ok := false, dropped := false }
    seq := { s.seq with op := encode i } }

/-- R108 `finish(ok)`: `OK <- ok; BUSY <- 0; PH <- IDLE`. The one way a command leaves (R280). -/
def State.finish (s : State) (ok : Bool) : State :=
  { s with
    flags := { s.flags with busy := false, ok := ok }
    seq := { s.seq with ph := .idle } }

/-- R33, R165: `POLL_OK <- ok`. -/
def State.setPollOk (s : State) (ok : Bool) : State := { s with flags := { s.flags with pollOk := ok } }

/-- R33, R196: `VERIFY_OK <- ok`. -/
def State.setVerifyOk (s : State) (ok : Bool) : State := { s with flags := { s.flags with verifyOk := ok } }

/-- R33, R191: `DROPPED <- 1`. -/
def State.setDropped (s : State) : State := { s with flags := { s.flags with dropped := true } }

/-- R34, R193: `min(ATTEMPTS + 1, 2^32 - 1)`. -/
def saturatingSucc (w : Word) : Word := if w = BitVec.allOnes 32 then w else w + 1

end Sys2Proof.Machine
end

