-- ==== Sys2Proof/Machine/Operands.lean ====
section
/-! DEFINITION. The operand forms: address, byte, length and page operands (R103, R104). -/

namespace Sys2Proof.Machine

/-- R103 `clamp(a) = min(a, MAX_ADDR)`, "`a` any natural". -/
def clamp (c : Config) (a : Nat) : Nat := min a c.maxAddr

/-- R103: an Address operand: `ADDR_OP` zero-extended. -/
def State.addrOperand (s : State) : Nat := s.regs.addrOp.toNat

/-- R104: a Byte operand: `DATA_OP`. -/
def State.byteOperand (s : State) : Byte := s.regs.dataOp

/-- R104: a length operand: `LEN_OP`, unsigned. -/
def State.lenOperand (s : State) : Nat := s.regs.lenOp.toNat

/-- R32 `PAGE_BUF[i]`; an index outside the buffer reads as 0 (R28). -/
def State.pageByte (s : State) (i : Nat) : Byte := s.regs.pageBuf.getD i 0

/-- R191: the precondition of a page call on unbounded naturals; with `PG_LEN = 0` the sum is never formed. -/
def State.pageValid (s : State) : Bool :=
  decide (1 ≤ s.seq.pgLen) && decide (s.seq.pgLen ≤ s.cfg.pageSize) &&
  decide (s.seq.pgBase + s.seq.pgLen - 1 ≤ s.cfg.maxAddr)

end Sys2Proof.Machine
end

