-- ==== Sys2Proof/Machine/Ops.lean ====
section
/-! DEFINITION. The ten primitives (R130 to R140), the pins (R27), the host register file (R28), and reset (R300). -/

namespace Sys2Proof.Machine

/-- A change of the lines or the direction: the device reacts "in the same step" (R74), then the event is appended. -/
def State.drive (s : State) (b : Bus) (e : Event) : State :=
  let r := s.dev.react s.cfg.pageSize s.bus b s.draws
  { s with bus := b, dev := r.1, draws := r.2, trace := s.trace ++ [e] }

/-! ### The primitives -/

/-- R131 `setAddress(a)`: `A_LATCH <- clamp(a)`. -/
def State.setAddress (s : State) (a : Nat) : State :=
  { s with bus := { s.bus with aLatch := clamp s.cfg a }, trace := s.trace ++ [.addr (clamp s.cfg a)] }

/-- R132 `setData(b)`: `D_LATCH <- b` where the bus is output, else an unconstrained byte (U1). -/
def State.setData (s : State) (b : Byte) : State :=
  if s.bus.dir then { s with bus := { s.bus with dLatch := b }, trace := s.trace ++ [.data b] }
  else
    { s with bus := { s.bus with dLatch := Config.freeByte s.draws }, draws := s.draws + 1,
             trace := s.trace ++ [.data b] }

/-- R133 `setDataDirection(output)`. -/
def State.setDirection (s : State) (output : Bool) : State :=
  s.drive { s.bus with dir := output } (.dir output)

/-- R134 `readData()`: `RDATA <- Dev.Sample(bus, dev)`. -/
def State.readData (s : State) : State :=
  let r := s.dev.sample s.bus s.draws
  { s with regs := { s.regs with rdata := r.1 }, draws := r.2, trace := s.trace ++ [.sample r.1] }

/-- R135, R136: `CE <- on`. -/
def State.driveCE (s : State) (on : Bool) : State := s.drive { s.bus with ce := on } (.ce on)

/-- R137, R138: `WE <- on`. -/
def State.driveWE (s : State) (on : Bool) : State := s.drive { s.bus with we := on } (.we on)

/-- R139, R140: `OE <- on`. -/
def State.driveOE (s : State) (on : Bool) : State := s.drive { s.bus with oe := on } (.oe on)

/-! ### The pins -/

/-- R27: the outputs of the controller. -/
structure Pins where
  a : Nat
  dqOut : Byte
  dqOe : Bool
  ceN : Bool
  weN : Bool
  oeN : Bool
  sReady : Bool
  deriving DecidableEq, Repr

/-- R24, R27, R248: the level of each output pin; the control pins are active low, `S_READY = 1` exactly while `PH = LS0`. -/
def State.pins (s : State) : Pins :=
  { a := s.bus.aLatch, dqOut := s.bus.dLatch, dqOe := s.bus.dir, ceN := !s.bus.ce, weN := !s.bus.we, oeN := !s.bus.oe,
    sReady := s.seq.ph == .ls0 }

/-- R60, R76: the byte of the array at an address; of an UNDEFINED device it is unconstrained (R77, log 25). -/
def State.arrayByte (s : State) (a : Nat) : Byte :=
  if s.dev.undef then Config.undefinedByte s.draws a else s.dev.stored a

/-! ### The host register file -/

/-- R28: index of `PAGE_BUF[0]`. -/
def pageBufIndex : Nat := 0x100

/-- R28: the value a host read of a register index returns: the register zero-extended; `CMD`, index 7 and every other
index read as 0. -/
def State.readReg (s : State) (index : Nat) : Word :=
  if index = 1 then s.status
  else if index = 2 then s.regs.addrOp
  else if index = 3 then s.regs.dataOp.setWidth 32
  else if index = 4 then s.regs.lenOp
  else if index = 5 then s.regs.rdata.setWidth 32
  else if index = 6 then s.regs.attempts
  else if pageBufIndex ≤ index ∧ index < pageBufIndex + s.cfg.pageSize then
    (s.pageByte (index - pageBufIndex)).setWidth 32
  else 0

/-- R28: a host write of a register other than `CMD`: `ADDR_OP`, `DATA_OP`, `LEN_OP` and `PAGE_BUF` take the value cut to
their width (log 16); every other index ignores it. -/
def State.writeReg (s : State) (index : Nat) (v : Word) : State :=
  if index = 2 then { s with regs := { s.regs with addrOp := v } }
  else if index = 3 then { s with regs := { s.regs with dataOp := v.setWidth 8 } }
  else if index = 4 then { s with regs := { s.regs with lenOp := v } }
  else if pageBufIndex ≤ index ∧ index < pageBufIndex + s.cfg.pageSize then
    { s with regs := { s.regs with pageBuf := s.regs.pageBuf.set (index - pageBufIndex) (v.setWidth 8) } }
  else s

/-! ### Reset -/

/-- R300, R302: `RST` in one step: every register of the controller takes its value of R38 and a command in progress is
abandoned; the device is not reset, it sees the lines go idle. The configuration, the producer's pins and the pending
moves are not the controller's, the trace and the answers are its history (log 20). -/
def State.applyReset (s : State) : State :=
  let r := s.dev.onReset s.cfg.pageSize s.bus s.draws
  { s with bus := .reset, regs := .reset s.cfg, flags := .reset, seq := .reset, dev := r.1, draws := r.2 }

end Sys2Proof.Machine
end

