-- ==== Sys2Proof/Machine/Agents.lean ====
section
/-! DEFINITION. The agents (R13): what the next move is, and what the moves that run no command do. -/

namespace Sys2Proof.Machine

/-- What the next move asks of the machine. -/
inductive Action
  /-- A step of the command `i`: its acceptance, or its sequencer step. -/
  | run (i : Instr) (s : State)
  /-- The move is done, with this state. -/
  | done (s : State)
  /-- `OP` holds no opcode while `BUSY = 1`. -/
  | stray
  deriving DecidableEq, Repr

/-- R13, R30: the sequencer's move: the step of the command in `OP`; "While `BUSY = 0` ... no sequencer step is enabled". -/
def sequencerMove (s : State) : Action :=
  if s.flags.busy then
    match decode s.seq.op with
    | .ok i => .run i s
    | .error _ => .stray
  else .done s

/-- A host write: ignored while busy (R107); to `CMD` it issues a command (R101) or, with a reserved code, is ignored
(R105, log 15); else it writes the register (R28). -/
def hostWriteMove (index : Nat) (v : Word) (s : State) : Action :=
  if s.flags.busy then .done s
  else if index = 0 then
    match decode (v.setWidth 8) with
    | .ok i => .run i s
    | .error _ => .done s
  else .done (s.writeReg index v)

/-- R28: "host reads are always allowed and return the current value". -/
def hostReadMove (index : Nat) (s : State) : Action := .done { s with answers := s.answers ++ [s.readReg index] }

/-- R248: the producer drives its pins. -/
def producerMove (valid ended : Bool) (data : Byte) (s : State) : Action :=
  .done { s with port := { valid := valid, ended := ended, data := data } }

/-- R110: the host's wait is over: its last `R 1` returned `STATUS` with bit 0 clear (log 23). -/
def hostAwaitMove (s : State) : Action := .done { s with answers := s.answers ++ [s.status] }

/-- R110, R248: the producer offers the next byte of its source, or after the last one the end mark. With `BUSY = 0` the call
is over: the producer takes its offer back, and what it still had is not delivered (log 29). -/
def deliverMove (kept : List Turn) (source : List Byte) (rest : List Turn) (s : State) : Action :=
  if s.flags.busy then
    match source with
    | [] => .done { s with inputs := kept ++ .deliver [] :: rest, port := { s.port with valid := false, ended := true } }
    | b :: source =>
      .done { s with inputs := kept ++ .deliver source :: rest, port := { valid := true, ended := false, data := b } }
  else .done { s with inputs := kept ++ rest, port := .quiet }

/-- The move of an agent, picked between the pending moves `kept` and `rest`. -/
def turnMove (kept : List Turn) (t : Turn) (rest : List Turn) (s : State) : Action :=
  match t with
  | .sequencer => sequencerMove { s with inputs := kept ++ rest }
  | .hostWrite index v => hostWriteMove index v { s with inputs := kept ++ rest }
  | .hostRead index => hostReadMove index { s with inputs := kept ++ rest }
  | .hostAwait => hostAwaitMove { s with inputs := kept ++ rest }
  | .producer valid ended data => producerMove valid ended data { s with inputs := kept ++ rest }
  | .deliver source => deliverMove kept source rest s
  | .commit => .done { s with inputs := kept ++ rest, dev := s.dev.commit }
  | .fail keep => .done { s with inputs := kept ++ rest, dev := s.dev.fail keep }
  | .hang => .done { s with inputs := kept ++ rest, dev := s.dev.hang }
  | .reset => .done ({ s with inputs := kept ++ rest }).applyReset

/-! ### Which move is next -/

/-- R13: the agents. -/
inductive Agent
  | sequencer
  | host
  | producer
  | device
  | reset
  deriving DecidableEq, Repr

/-- Whose move a pending move is. -/
def Turn.agent : Turn → Agent
  | .sequencer => .sequencer
  | .hostWrite _ _ | .hostRead _ | .hostAwait => .host
  | .producer _ _ _ | .deliver _ => .producer
  | .commit | .fail _ | .hang => .device
  | .reset => .reset

/-- The agent of the move waits: the host for `BUSY = 0` (R110); the producer that delivers a source, while another command
than `loadStream` runs, while its offer is not yet taken, and with the end mark given, for the call's end (R248). -/
def Turn.held (s : State) : Turn → Bool
  | .hostAwait => s.flags.busy
  | .deliver source => 
    s.flags.busy && (s.seq.op != encode .loadstream || s.port.valid || (source.isEmpty && s.port.ended))
  | .sequencer | .hostWrite _ _ | .hostRead _ | .producer _ _ _ | .commit | .fail _ | .hang | .reset => false

/-- The agents behind whose waiting moves a later move stays: its own; and the host, for the delivery of a source, which comes
after the write to `CMD` of its call (R110: "the producer then delivers `src`"; log 29). -/
def Turn.behind : Turn → List Agent
  | .deliver _ => [.host, .producer]
  | .sequencer => [.sequencer]
  | .hostWrite _ _ | .hostRead _ | .hostAwait => [.host]
  | .producer _ _ _ => [.producer]
  | .commit | .fail _ | .hang => [.device]
  | .reset => [.reset]

/-- The first pending move that no agent's wait holds back, between the moves before and after it: a held move stays, and
with it the later moves that come behind its agent. -/
def State.pick (s : State) : List Agent → List Turn → Option (List Turn × Turn × List Turn)
  | _, [] => none
  | waiting, t :: rest =>
    if (∃ a ∈ t.behind, a ∈ waiting) ∨ t.held s = true then
      match s.pick (t.agent :: waiting) rest with
      | some (kept, m, after) => some (t :: kept, m, after)
      | none => none
    else some ([], t, rest)

/-- The pending move that is next, between those before and after it. -/
def State.nextTurn (s : State) : Option (List Turn × Turn × List Turn) := s.pick [] s.inputs

/-- The next move: the first pending one that is not held back; with none, the sequencer's (log 3). -/
def nextMove (s : State) : Action :=
  match s.nextTurn with
  | none => sequencerMove s
  | some (kept, t, rest) => turnMove kept t rest s

/-- A command placed where the machine fetches its next one: a host write of its opcode to `CMD` is the first pending move,
and the machine is idle, as acceptance requires (R101; log 4). -/
def State.placeCommand (s : State) (opcode : Byte) : State :=
  { s with
    inputs := .hostWrite 0 (opcode.setWidth 32) :: s.inputs
    flags := { s.flags with busy := false }
    seq := { s.seq with ph := .idle } }

end Sys2Proof.Machine
end

