-- ==== Sys2Proof/Machine/Procedures.lean ====
section
/-! DEFINITION. The internal procedures of the sequencer (READSEQ, POLL, WP, PROT, LS0), a step per label (R36), and how a command runs them. -/

namespace Sys2Proof.Machine

/-- A procedure: the step it defines at each of its labels. -/
abbrev Proc := Label → Option (State → Result)

/-- R30: "each step executes the primitive at `PH`"; a label that no procedure of the command defines is stray (log 19). -/
def runProcs (procs : List Proc) (s : State) : Result :=
  match procs.findSome? (fun p => p s.seq.ph) with
  | some f => f s
  | none => .fault .strayPosition

/-- A command (R101, R13): acceptance where `BUSY = 0`, with the bookkeeping up to the first step, and the sequencer step at
`PH` where `BUSY = 1` (log 2). -/
def command (i : Instr) (start : State → State) (procs : List Proc) (s : State) : Result :=
  if s.flags.busy then runProcs procs s else .next (start (s.accept i))

/-- R141 `PRIM`: the one step of a passthrough primitive command, then `finish(1)`. -/
def primStep (primitive : State → State) : Proc
  | .prim => some fun s => .next ((primitive s).finish true)
  | _ => none

/-! ### The page writer's entry, and the bulk walks around it -/

/-- R191: the check before any step, and the drop: `DROPPED <- 1; return false`. -/
def wpCall (dropReturn : State → State) (s : State) : State :=
  if s.pageValid then ({ s with regs := { s.regs with attempts := 0 } }).goto .wp1 else dropReturn s.setDropped

/-- R241 `block`: the next block of `eraseAll`. Every call is valid (R242); the impossible drop ends the command with its
`ok` lost (log 24). -/
def eraseBlock (s : State) : State :=
  wpCall (fun s => s.finish false)
    { s with seq := { s.seq with
        pgLen := min s.cfg.pageSize (s.cfg.maxAddr + 1 - s.seq.pgBase), retP := .afterBlock } }

/-- R241 `after`: the walk goes on whatever `WP` returned (R240, D27). -/
def eraseAfter (ok : Bool) (s : State) : State :=
  let s := { s with seq := { s.seq with
    allOk := s.seq.allOk && ok, pgBase := s.seq.pgBase + s.cfg.pageSize } }
  if s.seq.pgBase ≤ s.cfg.maxAddr then eraseBlock s else s.finish s.seq.allOk

/-- R246 `after`. -/
def loadAfter (ok : Bool) (s : State) : State :=
  let s := { s with seq := { s.seq with
    allOk := s.seq.allOk && ok, pgBase := s.seq.pgBase + s.seq.pgLen, pgLen := 0 } }
  if s.seq.remain = 0 || s.seq.sEnded then s.finish s.seq.allOk else s.goto .ls0

/-- R246 `flush`: the bytes gathered go to `WP`; a dropped chunk returns `false` to `after` (R250). -/
def loadFlush (s : State) : State :=
  wpCall (loadAfter false) { s with seq := { s.seq with retP := .afterChunk } }

/-- R197: `return` of `WP`: to the label in `RET_P`, with the caller's bookkeeping in the same step. -/
def wpReturn (ok : Bool) (s : State) : State :=
  match s.seq.retP with
  | .finish => s.finish ok
  | .afterBlock => eraseAfter ok s
  | .afterChunk => loadAfter ok s

/-- R279: entering the retry: control goes to `WP1`, nothing is saved. -/
def enterRetry (s : State) : State := s.goto .wp1

/-- R197, R198: the decision at the end of an attempt. -/
def decideAttempt (s : State) : State :=
  if s.flags.pollOk && s.flags.verifyOk then wpReturn true s
  else
    match s.cfg.retryCap with
    | some k => if k ≤ s.regs.attempts.toNat then wpReturn false s else enterRetry s
    | none => enterRetry s

/-- R196: the compare of one byte read back, with step `RS6`. -/
def checkByte (s : State) : State :=
  if s.regs.rdata ≠ s.pageByte s.seq.idx then decideAttempt (s.setVerifyOk false)
  else
    let s := { s with seq := { s.seq with idx := s.seq.idx + 1 } }
    if s.seq.idx < s.seq.pgLen then
      { s with seq := { s.seq with tAddr := s.seq.pgBase + s.seq.idx, ph := .rs0 } }
    else decideAttempt (s.setVerifyOk true)

/-! ### READSEQ (R161) -/

/-- R161: `return v` of `READSEQ`. -/
def readReturn (s : State) : Result :=
  match s.seq.retT with
  | .finish => .next (s.finish true)
  | .check => .next (checkByte s)
  | .afterPoll => .fault .strayPosition

/-- R161: the steps `RS0` to `RS6`. -/
def readSeq : Proc
  | .rs0 => some fun s => .next ((s.setAddress s.seq.tAddr).goto .rs1)
  | .rs1 => some fun s => .next ((s.setDirection false).goto .rs2)
  | .rs2 => some fun s => .next ((s.driveCE true).goto .rs3)
  | .rs3 => some fun s => .next ((s.driveOE true).goto .rs4)
  | .rs4 => some fun s => .next (s.readData.goto .rs5)
  | .rs5 => some fun s => .next ((s.driveOE false).goto .rs6)
  | .rs6 => some fun s => readReturn (s.driveCE false)
  | _ => none

/-! ### POLL (R165) -/

/-- R165: `POLL_OK <- ok; return ok`; R195 gives the page writer's bookkeeping. -/
def pollReturn (ok : Bool) (s : State) : Result :=
  let s := s.setPollOk ok
  match s.seq.retT with
  | .finish => .next (s.finish ok)
  | .afterPoll =>
    .next { s with seq := { s.seq with idx := 0, tAddr := s.seq.pgBase, retT := .check, ph := .rs0 } }
  | .check => .fault .strayPosition

/-- R165: the bookkeeping with step `PL5`. -/
def pollDecide (s : State) : Result :=
  let s := { s with seq := { s.seq with pollCnt := s.seq.pollCnt + 1 } }
  if s.regs.rdata = s.seq.expect then pollReturn true s
  else if s.seq.pollCnt = s.cfg.pollBudget then pollReturn false s
  else .next (s.goto .pl1)

/-- R165: the steps `PL0` to `PL5`. -/
def poll : Proc
  | .pl0 => some fun s => .next ((s.setDirection false).goto .pl1)
  | .pl1 => some fun s => .next ((s.driveCE true).goto .pl2)
  | .pl2 => some fun s => .next ((s.driveOE true).goto .pl3)
  | .pl3 => some fun s => .next (s.readData.goto .pl4)
  | .pl4 => some fun s => .next ((s.driveOE false).goto .pl5)
  | .pl5 => some fun s => pollDecide (s.driveCE false)
  | _ => none

/-- R163, R193: the caller sets `EXPECT` and `POLL_CNT` before `PL0`. -/
def startPoll (expect : Byte) (ret : RetT) (s : State) : State :=
  { s with seq := { s.seq with expect := expect, pollCnt := 0, retT := ret, ph := .pl0 } }

/-! ### The write sequence of `writeByte` (R163) -/

/-- R163: the steps `WB0` to `WB6`, with `a = ADDR_OP` and `b = DATA_OP` (R164). -/
def writeSeq : Proc
  | .wb0 => some fun s => .next ((s.setAddress s.addrOperand).goto .wb1)
  | .wb1 => some fun s => .next ((s.setDirection true).goto .wb2)
  | .wb2 => some fun s => .next ((s.setData s.byteOperand).goto .wb3)
  | .wb3 => some fun s => .next ((s.driveCE true).goto .wb4)
  | .wb4 => some fun s => .next ((s.driveWE true).goto .wb5)
  | .wb5 => some fun s => .next ((s.driveWE false).goto .wb6)
  | .wb6 => some fun s => .next (startPoll s.byteOperand .finish (s.driveCE false))
  | _ => none

/-! ### The write phase of a page attempt (R193) -/

/-- R193 `WP1`: `ATTEMPTS <- min(ATTEMPTS + 1, 2^32 - 1)`. -/
def countAttempt (s : State) : State :=
  { s with regs := { s.regs with attempts := saturatingSucc s.regs.attempts } }

/-- R193 `WP6`: the next byte of the page, or the end of the window. -/
def nextPulse (s : State) : State :=
  let s := { s with seq := { s.seq with idx := s.seq.idx + 1 } }
  if s.seq.idx < s.seq.pgLen then s.goto .wp3 else s.goto .wp7

/-- R193: the steps `WP1` to `WP7`. -/
def pageWrite : Proc
  | .wp1 => some fun s => .next ((countAttempt (s.setDirection true)).goto .wp2)
  | .wp2 => some fun s =>
    let s := s.driveCE true
    .next { s with seq := { s.seq with idx := 0, ph := .wp3 } }
  | .wp3 => some fun s => .next ((s.setAddress (s.seq.pgBase + s.seq.idx)).goto .wp4)
  | .wp4 => some fun s => .next ((s.setData (s.pageByte s.seq.idx)).goto .wp5)
  | .wp5 => some fun s => .next ((s.driveWE true).goto .wp6)
  | .wp6 => some fun s => .next (nextPulse (s.driveWE false))
  | .wp7 => some fun s =>
    .next (startPoll (s.pageByte (s.seq.pgLen - 1)) .afterPoll (s.driveCE false))
  | _ => none

/-! ### The protection sequencer (R222) -/

/-- R222: entry `IDX` of the table sent. -/
def tableEntry (table : List Host.Cell) (k : Nat) : Host.Cell := table.getD k (0, 0)

/-- R222 `PS5`: the next entry of the table, or the end of the window. -/
def nextEntry (table : List Host.Cell) (s : State) : State :=
  let s := { s with seq := { s.seq with idx := s.seq.idx + 1 } }
  if s.seq.idx < table.length then s.goto .ps2 else s.goto .ps6

/-- R222 `PS6`: `SETTLE_CNT <- SETTLE_TICKS`. -/
def startSettle (s : State) : State :=
  let s := { s with seq := { s.seq with settleCnt := s.cfg.settleTicks } }
  if s.cfg.settleTicks = 0 then s.finish true else s.goto .ps7

/-- R222 `PS7`, R224: one tick of the settle delay; no pin changes. -/
def settleTick (s : State) : State :=
  let s := { s with seq := { s.seq with settleCnt := s.seq.settleCnt - 1 }, trace := s.trace ++ [Event.settle] }
  if s.seq.settleCnt = 0 then s.finish true else s.goto .ps7

/-- R222 `PROT(T, L)`: the steps `PS0` to `PS7` with the table `T` of `L` entries. -/
def protSeq (table : List Host.Cell) : Proc
  | .ps0 => some fun s => .next ((s.setDirection true).goto .ps1)
  | .ps1 => some fun s =>
    let s := s.driveCE true
    .next { s with seq := { s.seq with idx := 0, ph := .ps2 } }
  | .ps2 => some fun s => .next ((s.setAddress (tableEntry table s.seq.idx).1).goto .ps3)
  | .ps3 => some fun s => .next ((s.setData (tableEntry table s.seq.idx).2).goto .ps4)
  | .ps4 => some fun s => .next ((s.driveWE true).goto .ps5)
  | .ps5 => some fun s => .next (nextEntry table (s.driveWE false))
  | .ps6 => some fun s => .next (startSettle (s.driveCE false))
  | .ps7 => some fun s => .next (settleTick s)
  | _ => none

/-! ### The stream (R246, R248) -/

/-- R246 `LS0`, a byte: it goes to `PAGE_BUF[PG_LEN]`; the producer moves to its next byte (R248), so its offer ends (log 22). -/
def takeByte (s : State) : State :=
  let s := { s with
    regs := { s.regs with pageBuf := s.regs.pageBuf.set s.seq.pgLen s.port.data }
    seq := { s.seq with pgLen := s.seq.pgLen + 1, remain := s.seq.remain - 1 }
    port := { s.port with valid := false } }
  if s.seq.pgLen = s.cfg.pageSize || s.seq.remain = 0 then loadFlush s else s.goto .ls0

/-- R246 `LS0`, the end mark. -/
def takeEnd (s : State) : State :=
  let s := { s with seq := { s.seq with sEnded := true } }
  if 0 < s.seq.pgLen then loadFlush s else s.finish s.seq.allOk

/-- R246, R248 `LS0`: `S_END` is looked at only when `S_VALID = 0`; with neither the sequencer waits, nothing changes. -/
def streamStep : Proc
  | .ls0 => some fun s => .next (if s.port.valid then takeByte s else if s.port.ended then takeEnd s else s)
  | _ => none

end Sys2Proof.Machine
end

