-- ==== Sys2Proof/Machine/Bulk.lean ====
section
/-! DEFINITION. `ERASEALL` and `LOADSTREAM` (R240 to R251). -/

namespace Sys2Proof.Machine

/-- R241, at acceptance: `PAGE_BUF` all zero, `PG_BASE <- 0; ALL_OK <- 1`, then the first block. -/
def startEraseall (s : State) : State :=
  eraseBlock { s with
    regs := { s.regs with pageBuf := List.replicate s.cfg.pageSize 0 }
    seq := { s.seq with pgBase := 0, allOk := true } }

/-- `ERASEALL`, R241. -/
def execEraseall (s : State) : Result := command .eraseall startEraseall [pageWrite, poll, readSeq] s

/-- R246, at acceptance: `PG_BASE <- zext_33(ADDR_OP); REMAIN <- LEN_OP; PG_LEN <- 0; ALL_OK <- 1; S_ENDED <- 0`; with
nothing to load `finish(1)` (R250). -/
def startLoadstream (s : State) : State :=
  let s := { s with seq := { s.seq with
    pgBase := s.addrOperand, remain := s.lenOperand, pgLen := 0, allOk := true, sEnded := false } }
  if s.seq.remain = 0 then s.finish true else s.goto .ls0

/-- `LOADSTREAM`, R246. -/
def execLoadstream (s : State) : Result :=
  command .loadstream startLoadstream [streamStep, pageWrite, poll, readSeq] s

end Sys2Proof.Machine
end

