-- ==== Sys2Proof/Machine/BusPrimitives.lean ====
section
/-! DEFINITION. The ten passthrough primitive commands (R131 to R141). -/

namespace Sys2Proof.Machine

/-- R141: acceptance of a passthrough primitive sets `PH <- PRIM`. -/
def startPrim (s : State) : State := s.goto .prim

/-- `SETADDR`, R131: `setAddress(ADDR_OP)`. -/
def execSetaddr (s : State) : Result :=
  command .setaddr startPrim [primStep fun s => s.setAddress s.addrOperand] s

/-- `SETDATA`, R132: `setData(DATA_OP)`. -/
def execSetdata (s : State) : Result :=
  command .setdata startPrim [primStep fun s => s.setData s.byteOperand] s

/-- `READDATA`, R134: `readData()`, the sample is left in `RDATA`. -/
def execReaddata (s : State) : Result :=
  command .readdata startPrim [primStep State.readData] s

/-- `SETDIR`, R133: `setDataDirection(output)`. -/
def execSetdir (output : Bool) (s : State) : Result :=
  command (.setdir output) startPrim [primStep fun s => s.setDirection output] s

/-- `CE_ASSERT`, R135. -/
def execCeAssert (s : State) : Result :=
  command .ceAssert startPrim [primStep fun s => s.driveCE true] s

/-- `CE_DEASSERT`, R136. -/
def execCeDeassert (s : State) : Result :=
  command .ceDeassert startPrim [primStep fun s => s.driveCE false] s

/-- `WE_ASSERT`, R137. -/
def execWeAssert (s : State) : Result :=
  command .weAssert startPrim [primStep fun s => s.driveWE true] s

/-- `WE_DEASSERT`, R138. -/
def execWeDeassert (s : State) : Result :=
  command .weDeassert startPrim [primStep fun s => s.driveWE false] s

/-- `OE_ASSERT`, R139. -/
def execOeAssert (s : State) : Result :=
  command .oeAssert startPrim [primStep fun s => s.driveOE true] s

/-- `OE_DEASSERT`, R140. -/
def execOeDeassert (s : State) : Result :=
  command .oeDeassert startPrim [primStep fun s => s.driveOE false] s

end Sys2Proof.Machine
end

