-- ==== Sys2Proof/Machine/ByteTransaction.lean ====
section
/-! DEFINITION. `READBYTE` and `WRITEBYTE` (R160 to R167). -/

namespace Sys2Proof.Machine

/-- R162: `T_ADDR <- zext_33(ADDR_OP); RET_T <- (finish); PH <- RS0`. -/
def startReadbyte (s : State) : State :=
  { s with seq := { s.seq with tAddr := s.addrOperand, retT := .finish, ph := .rs0 } }

/-- `READBYTE`, R162: `v <- call READSEQ(T_ADDR)`, then `finish(1)`. -/
def execReadbyte (s : State) : Result := command .readbyte startReadbyte [readSeq] s

/-- R164: at acceptance `PH <- WB0`. -/
def startWritebyte (s : State) : State := s.goto .wb0

/-- `WRITEBYTE`, R164: the write sequence, then `ok <- call POLL(b)`, then `finish(ok)`. -/
def execWritebyte (s : State) : Result := command .writebyte startWritebyte [writeSeq, poll] s

end Sys2Proof.Machine
end

