-- ==== Sys2Proof/Machine/PageWriter.lean ====
section
/-! DEFINITION. `WRITEPAGE` (R190 to R199). -/

namespace Sys2Proof.Machine

/-- R192: `PG_BASE <- zext_33(ADDR_OP); PG_LEN <- LEN_OP; RET_P <- (finish)`, then the check of R191; a drop finishes at
acceptance with `OK = 0` (D16). -/
def startWritepage (s : State) : State :=
  wpCall (fun s => s.finish false)
    { s with seq := { s.seq with pgBase := s.addrOperand, pgLen := s.lenOperand, retP := .finish } }

/-- `WRITEPAGE`, R192: `ok <- call WP(PG_BASE, PG_LEN)`, then `finish(ok)`. -/
def execWritepage (s : State) : Result := command .writepage startWritepage [pageWrite, poll, readSeq] s

end Sys2Proof.Machine
end

