-- ==== Sys2Proof/Machine/Protection.lean ====
section
/-! DEFINITION. `UNLOCK` and `LOCK` (R220 to R226). -/

namespace Sys2Proof.Machine

/-- R223, R225: at acceptance `PH <- PS0`. -/
def startProt (s : State) : State := s.goto .ps0

/-- `UNLOCK`, R223: `call PROT(UNLOCK_SEQ, 6)`, `finish(1)`. -/
def execUnlock (s : State) : Result := command .unlock startProt [protSeq unlockSeq] s

/-- `LOCK`, R225: `call PROT(LOCK_SEQ, 3)`, `finish(1)`. -/
def execLock (s : State) : Result := command .lock startProt [protSeq lockSeq] s

end Sys2Proof.Machine
end

