-- ==== Sys2Proof/Machine/Dispatch.lean ====
section
/-! DEFINITION. One arm per command: its meaning. -/

namespace Sys2Proof.Machine

-- R5: the seventeen commands.
def exec (i : Instr) (s : State) : Host.Outcome State Fault Refusal :=
  match i with
  | .setaddr => Sys2Proof.Machine.execSetaddr s
  | .setdata => Sys2Proof.Machine.execSetdata s
  | .readdata => Sys2Proof.Machine.execReaddata s
  | .setdir output => Sys2Proof.Machine.execSetdir output s
  | .ceAssert => Sys2Proof.Machine.execCeAssert s
  | .ceDeassert => Sys2Proof.Machine.execCeDeassert s
  | .weAssert => Sys2Proof.Machine.execWeAssert s
  | .weDeassert => Sys2Proof.Machine.execWeDeassert s
  | .oeAssert => Sys2Proof.Machine.execOeAssert s
  | .oeDeassert => Sys2Proof.Machine.execOeDeassert s
  | .readbyte => Sys2Proof.Machine.execReadbyte s
  | .writebyte => Sys2Proof.Machine.execWritebyte s
  | .writepage => Sys2Proof.Machine.execWritepage s
  | .unlock => Sys2Proof.Machine.execUnlock s
  | .lock => Sys2Proof.Machine.execLock s
  | .eraseall => Sys2Proof.Machine.execEraseall s
  | .loadstream => Sys2Proof.Machine.execLoadstream s

end Sys2Proof.Machine
end

