-- ==== Sys2Proof/Machine/Step.lean ====
section
/-! DEFINITION. One step of the machine, and placing a command where the next step fetches it. -/

namespace Sys2Proof.Machine

/-- One step: the next move of one agent (R13). A parameter tuple outside R10 is refused (log 17). -/
def step (s : State) : Host.Outcome State Fault Refusal :=
  if s.cfg.wf then
    match nextMove s with
    | .run i t => exec i t
    | .done t => .next t
    | .stray => .fault .strayPosition
  else .refused .badConfig

/-- The instruction of an opcode-table word, stored where `step` fetches its next instruction (log 4). -/
def State.withFetchWord (s : State) (nbits w : Nat) : State := s.placeCommand (opcodeOfWord nbits w)

end Sys2Proof.Machine
end

