-- ==== Sys2Proof/Machine/HostCalls.lean ====
section
/-! DEFINITION. The source's calls and programs (R109), their expansion into host accesses, and their results (R110). -/

namespace Sys2Proof.Machine

/-- R109: the calls of the source's notation, arguments in its order. -/
inductive HostCall
  | setAddress (a : Word)
  | setData (b : Byte)
  | readData
  | setDataDirection (output : Bool)
  | assertChipEnable
  | deassertChipEnable
  | assertWriteEnable
  | deassertWriteEnable
  | assertOutputEnable
  | deassertOutputEnable
  | readByte (a : Word)
  | writeByte (b : Byte) (a : Word)
  | writePage (bytes : List Byte) (startAddress : Word)
  | unlock
  | lock
  | eraseAll
  | loadStream (source : List Byte) (totalLength : Word) (startAddress : Word)
  deriving DecidableEq, Repr

/-- R109: "A program for the EBC is a list of such calls". -/
abbrev Program := List HostCall

/-- R109: the name of a call in the source's notation. -/
def HostCall.name : HostCall → String
  | .setAddress _ => "setAddress"
  | .setData _ => "setData"
  | .readData => "readData"
  | .setDataDirection _ => "setDataDirection"
  | .assertChipEnable => "assertChipEnable"
  | .deassertChipEnable => "deassertChipEnable"
  | .assertWriteEnable => "assertWriteEnable"
  | .deassertWriteEnable => "deassertWriteEnable"
  | .assertOutputEnable => "assertOutputEnable"
  | .deassertOutputEnable => "deassertOutputEnable"
  | .readByte _ => "readByte"
  | .writeByte _ _ => "writeByte"
  | .writePage _ _ => "writePage"
  | .unlock => "unlock"
  | .lock => "lock"
  | .eraseAll => "eraseAll"
  | .loadStream _ _ _ => "loadStream"

/-- R102, R109: the mnemonic of a command, which names the call's command in the opcode table. -/
def mnemonicOf : Instr → String
  | .setaddr => "SETADDR"
  | .setdata => "SETDATA"
  | .readdata => "READDATA"
  | .setdir _ => "SETDIR"
  | .ceAssert => "CE_ASSERT"
  | .ceDeassert => "CE_DEASSERT"
  | .weAssert => "WE_ASSERT"
  | .weDeassert => "WE_DEASSERT"
  | .oeAssert => "OE_ASSERT"
  | .oeDeassert => "OE_DEASSERT"
  | .readbyte => "READBYTE"
  | .writebyte => "WRITEBYTE"
  | .writepage => "WRITEPAGE"
  | .unlock => "UNLOCK"
  | .lock => "LOCK"
  | .eraseall => "ERASEALL"
  | .loadstream => "LOADSTREAM"

/-- R102, R109: the command a call issues. -/
def HostCall.instr : HostCall → Instr
  | .setAddress _ => .setaddr
  | .setData _ => .setdata
  | .readData => .readdata
  | .setDataDirection output => .setdir output
  | .assertChipEnable => .ceAssert
  | .deassertChipEnable => .ceDeassert
  | .assertWriteEnable => .weAssert
  | .deassertWriteEnable => .weDeassert
  | .assertOutputEnable => .oeAssert
  | .deassertOutputEnable => .oeDeassert
  | .readByte _ => .readbyte
  | .writeByte _ _ => .writebyte
  | .writePage _ _ => .writepage
  | .unlock => .unlock
  | .lock => .lock
  | .eraseAll => .eraseall
  | .loadStream _ _ _ => .loadstream

/-- R110: `W 0x100+i, bytes[i]` for each `i < min(len, PAGE_SIZE)`. -/
def pageWrites (pageSize : Nat) (bytes : List Byte) : List Turn :=
  ((bytes.take pageSize).zipIdx 0x100).map fun c => .hostWrite c.2 (c.1.setWidth 32)

/-- D3 of R110, of hosts that pass more than 32 bits: "they cannot be written at all". Only the length of a page can have
more; the other operands have the widths of their registers (log 28). -/
def HostCall.writable : HostCall → Bool
  | .writePage bytes _ => decide (bytes.length < 2 ^ 32)
  | _ => true

/-- R110: the host writes that load the operands of a call; of a `writable` one, since for a page of `2^32` bytes or more the
length written would not be the page's (log 28). -/
def HostCall.operandWrites (pageSize : Nat) : HostCall → List Turn
  | .setAddress a => [.hostWrite 2 a]
  | .setData b => [.hostWrite 3 (b.setWidth 32)]
  | .readByte a => [.hostWrite 2 a]
  | .writeByte b a => [.hostWrite 3 (b.setWidth 32), .hostWrite 2 a]
  | .writePage bytes start => pageWrites pageSize bytes ++ [.hostWrite 4 (BitVec.ofNat 32 bytes.length), .hostWrite 2 start]
  | .loadStream _ len start => [.hostWrite 4 len, .hostWrite 2 start]
  | _ => []

/-- R110: "the producer then delivers `src` on the stream port". -/
def HostCall.delivery : HostCall → List Turn
  | .loadStream source _ _ => [.deliver source]
  | _ => []

/-- R110: the read of a call whose result is in `RDATA`; a result in `STATUS[1]` is in the wait's last `R 1` (log 23). -/
def HostCall.resultRead : HostCall → List Turn
  | .readData | .readByte _ => [.hostRead 5]
  | _ => []

/-- R110: the accesses of a call: the operands, the opcode to `CMD` last, the stream delivered, the wait for `BUSY = 0`, and
the read of the result. None for a call that cannot be written (D3, log 28). -/
def HostCall.accesses (pageSize : Nat) (c : HostCall) : Option (List Turn) :=
  if c.writable then
    some (c.operandWrites pageSize ++ [.hostWrite 0 ((encode c.instr).setWidth 32)] ++ c.delivery ++ [.hostAwait] ++
      c.resultRead)
  else none

/-- R109, R110: the accesses of a program: those of its calls, one after another. -/
def Program.accesses (pageSize : Nat) : Program → Option (List Turn)
  | [] => some []
  | c :: rest =>
    match c.accesses pageSize, Program.accesses pageSize rest with
    | some here, some later => some (here ++ later)
    | _, _ => none

/-- What a call returns to its caller. -/
inductive CallResult
  | byte (v : Byte)
  | success (ok : Bool)
  | nothing
  deriving DecidableEq, Repr

/-- R110: the result of a call, from the last answer its accesses got: `R 5` or `STATUS[1]`. -/
def HostCall.result (c : HostCall) (answer : Word) : CallResult :=
  match c with
  | .readData | .readByte _ => .byte (answer.setWidth 8)
  | .writeByte _ _ | .writePage _ _ | .eraseAll | .loadStream _ _ _ => .success (answer.getLsbD 1)
  | _ => .nothing

end Sys2Proof.Machine
end

