-- ==== Sys2Proof/Safety.lean ====
section
/-! DEFINITION. The terms claims use: idle lines, the bus discipline of composite commands, well-formed sequencer positions, runs of one command. -/

namespace Sys2Proof

/-- R18: a composite is a command made of several primitive steps. -/
def Instr.composite : Instr → Bool
  | .readbyte | .writebyte | .writepage | .unlock | .lock | .eraseall | .loadstream => true
  | .setaddr | .setdata | .readdata | .setdir _ => false
  | .ceAssert | .ceDeassert | .weAssert | .weDeassert | .oeAssert | .oeDeassert => false

/-- The commands that call the page writer `WP` (R192, R241, R246). -/
abbrev Instr.pages (i : Instr) : Prop := i = .writepage ∨ i = .eraseall ∨ i = .loadstream

end Sys2Proof

namespace Sys2Proof.Machine

/-! ### Runs of one command -/

/-- The outcome of continuing after a result. -/
def andThen (r : Result) (f : State → Result) : Result :=
  match r with
  | .next s => f s
  | .fault e => .fault e
  | .refused e => .refused e

/-- `k` steps of the command `i` with no other agent's move between them: from idle, its acceptance and `k - 1` sequencer steps. -/
def execTimes : Nat → Instr → State → Result
  | 0, _, s => .next s
  | k + 1, i, s => andThen (exec i s) (execTimes k i)

/-! ### What a command leaves on the bus trace -/

/-- R111: one write pulse group: address, data, "assert then immediately deassert". -/
def pulseEvents (c : Host.Cell) : List Event := [.addr c.1, .data c.2, .we true, .we false]

/-- R193, R222: the write events of a page or of a protection table: all pulses inside one chip-enable assertion. -/
def windowEvents (cells : List Host.Cell) : List Event :=
  [.dir true, .ce true] ++ cells.flatMap pulseEvents ++ [.ce false]

/-- R161: the events of `READSEQ` at an address, with the byte sampled. -/
def readEvents (a : Nat) (v : Byte) : List Event :=
  [.addr a, .dir false, .ce true, .oe true, .sample v, .oe false, .ce false]

/-- R165: the events of one sample of `POLL`. -/
def pollEvents (v : Byte) : List Event := [.ce true, .oe true, .sample v, .oe false, .ce false]

/-- R32, R193: the (address, byte) pairs of the page in `PAGE_BUF`. -/
def State.pageCells (s : State) (base n : Nat) : List Host.Cell :=
  (List.range n).map fun i => (base + i, s.pageByte i)

/-! ### The lines -/

/-- R17: "Idle: chip-enable, write-enable and output-enable all deasserted". -/
abbrev State.linesIdle (s : State) : Prop := s.bus.ce = false ∧ s.bus.we = false ∧ s.bus.oe = false

/-- What a composite command started from idle finds on the lines at a label; no direction where it may be either. -/
structure Lines where
  dir : Option Bool
  ce : Bool
  we : Bool
  oe : Bool
  deriving DecidableEq, Repr

/-- R161, R163, R165, R193, R222: the lines before the step at each label. -/
def Label.lines : Label → Lines
  | .idle | .prim | .rs0 | .rs1 | .wb0 | .wb1 | .pl0 | .wp1 | .ps0 | .ls0 => ⟨none, false, false, false⟩
  | .rs2 | .pl1 => ⟨some false, false, false, false⟩
  | .rs3 | .rs6 | .pl2 | .pl5 => ⟨some false, true, false, false⟩
  | .rs4 | .rs5 | .pl3 | .pl4 => ⟨some false, true, false, true⟩
  | .wb2 | .wb3 | .wp2 | .ps1 | .ps7 => ⟨some true, false, false, false⟩
  | .wb4 | .wb6 | .wp3 | .wp4 | .wp5 | .wp7 | .ps2 | .ps3 | .ps4 | .ps6 => ⟨some true, true, false, false⟩
  | .wb5 | .wp6 | .ps5 => ⟨some true, true, true, false⟩

/-- The Bus State agrees with the lines of the label in `PH`. -/
def State.disciplined (s : State) : Prop :=
  (∀ d, s.seq.ph.lines.dir = some d → s.bus.dir = d) ∧
  s.bus.ce = s.seq.ph.lines.ce ∧ s.bus.we = s.seq.ph.lines.we ∧ s.bus.oe = s.seq.ph.lines.oe

/-- How many of the six registers of the Bus State differ (R143). -/
def Bus.changes (b c : Bus) : Nat :=
  (if b.aLatch = c.aLatch then 0 else 1) + (if b.dLatch = c.dLatch then 0 else 1) + (if b.dir = c.dir then 0 else 1) +
  (if b.ce = c.ce then 0 else 1) + (if b.we = c.we then 0 else 1) + (if b.oe = c.oe then 0 else 1)

/-! ### Well-formed positions (R30, R35, R36) -/

/-- The position is in `READSEQ`. -/
def Label.reading (l : Label) : Prop :=
  l = .rs0 ∨ l = .rs1 ∨ l = .rs2 ∨ l = .rs3 ∨ l = .rs4 ∨ l = .rs5 ∨ l = .rs6

/-- The position is in the write sequence of `writeByte`. -/
def Label.writing (l : Label) : Prop :=
  l = .wb0 ∨ l = .wb1 ∨ l = .wb2 ∨ l = .wb3 ∨ l = .wb4 ∨ l = .wb5 ∨ l = .wb6

/-- The position is in `POLL`, with samples of the budget left. -/
def State.polling (s : State) : Prop :=
  (s.seq.ph = .pl0 ∧ s.seq.pollCnt = 0) ∨
  ((s.seq.ph = .pl1 ∨ s.seq.ph = .pl2 ∨ s.seq.ph = .pl3 ∨ s.seq.ph = .pl4 ∨ s.seq.ph = .pl5) ∧
    s.seq.pollCnt < s.cfg.pollBudget)

/-- The position is in `PROT(T, L)` with a table of `n` entries. -/
def State.sending (s : State) (n : Nat) : Prop :=
  s.seq.ph = .ps0 ∨ s.seq.ph = .ps1 ∨
  ((s.seq.ph = .ps2 ∨ s.seq.ph = .ps3 ∨ s.seq.ph = .ps4 ∨ s.seq.ph = .ps5) ∧ s.seq.idx < n) ∨
  s.seq.ph = .ps6 ∨
  (s.seq.ph = .ps7 ∧ 1 ≤ s.seq.settleCnt ∧ s.seq.settleCnt ≤ s.cfg.settleTicks)

/-- The position is in `WP` called with the return label `r`, on a page that passed the check. -/
def State.paging (s : State) (r : RetP) : Prop :=
  s.seq.retP = r ∧ s.pageValid = true ∧
  (s.seq.ph = .wp1 ∨ s.seq.ph = .wp2 ∨ s.seq.ph = .wp7 ∨
   ((s.seq.ph = .wp3 ∨ s.seq.ph = .wp4 ∨ s.seq.ph = .wp5 ∨ s.seq.ph = .wp6) ∧ s.seq.idx < s.seq.pgLen) ∨
   (s.polling ∧ s.seq.retT = .afterPoll) ∨
   (s.seq.ph.reading ∧ s.seq.retT = .check ∧ s.seq.idx < s.seq.pgLen))

/-- The position is at `LS0`, with room in the page and bytes left to take. -/
def State.streaming (s : State) : Prop :=
  s.seq.ph = .ls0 ∧ s.seq.pgLen < s.cfg.pageSize ∧ 0 < s.seq.remain ∧ s.seq.sEnded = false

/-- The positions the command `i` can hold while it runs. -/
def State.positionedAt (s : State) : Instr → Prop
  | .readbyte => s.seq.ph.reading ∧ s.seq.retT = .finish
  | .writebyte => s.seq.ph.writing ∨ (s.polling ∧ s.seq.retT = .finish)
  | .writepage => s.paging .finish
  | .unlock => s.sending 6
  | .lock => s.sending 3
  | .eraseall => s.paging .afterBlock ∧ s.flags.dropped = false
  | .loadstream =>
    (s.streaming ∨ s.paging .afterChunk) ∧ s.seq.pgBase + s.seq.pgLen + s.seq.remain ≤ 2 ^ 33 - 2
  | .setaddr | .setdata | .readdata | .setdir _ => s.seq.ph = .prim
  | .ceAssert | .ceDeassert | .weAssert | .weDeassert | .oeAssert | .oeDeassert => s.seq.ph = .prim

/-- R30: `BUSY = 0` exactly at `IDLE`; else `OP` holds the opcode of a command that can hold the position. -/
def State.positioned (s : State) : Prop :=
  (s.flags.busy = false ∧ s.seq.ph = .idle) ∨
  (s.flags.busy = true ∧ ∃ i, decode s.seq.op = .ok i ∧ s.positionedAt i)

/-- Every address the device holds is one of the array (R60, R61). -/
def Device.inArray (d : Device) (maxAddr : Nat) : Prop :=
  (∀ c ∈ d.mem, c.1 ≤ maxAddr) ∧ (∀ c ∈ d.pend, c.1 ≤ maxAddr) ∧ (∀ c ∈ d.cycle, c.1 ≤ maxAddr) ∧
  (∀ c, d.last = some c → c.1 ≤ maxAddr)

/-- R161: how many steps of `READSEQ` are behind a position in it. -/
def Label.readSteps : Label → Nat
  | .rs1 => 1
  | .rs2 => 2
  | .rs3 => 3
  | .rs4 => 4
  | .rs5 => 5
  | .rs6 => 6
  | _ => 0

/-- R195, R196: the events of a read-back whose first `n` bytes were read equal. -/
def State.readBackEvents (s : State) (n : Nat) : List Event :=
  (List.range n).flatMap fun j => readEvents (s.seq.pgBase + j) (s.pageByte j)

/-- R195, R196: in a read-back the trace ends with the reads of the bytes before `IDX`, each equal to its byte of the page,
and with the steps done of the read at `IDX`. -/
def State.readBack (s : State) : Prop :=
  s.seq.ph.reading → s.seq.retT = .check →
    s.seq.tAddr = s.seq.pgBase + s.seq.idx ∧
    ∃ before, s.trace = before ++ s.readBackEvents s.seq.idx ++
      (readEvents (s.seq.pgBase + s.seq.idx) s.regs.rdata).take s.seq.ph.readSteps

/-- The invariant of the machine: an admissible configuration (R10), the address latch and the device's addresses in the
array (R21, R61), `PAGE_SIZE` bytes of buffer (R32), the array in canonical form, a well-formed position (R30), and a
read-back that was equal so far (R196). -/
structure State.Inv (s : State) : Prop where
  config : s.cfg.wf
  address : s.bus.aLatch ≤ s.cfg.maxAddr
  array : s.dev.inArray s.cfg.maxAddr
  canonical : Memory.wf s.dev.mem
  buffer : s.regs.pageBuf.length = s.cfg.pageSize
  position : s.positioned
  readBack : s.readBack

/-! ### Devices -/

/-- The device answers a read with the stored byte and takes a page or a sequence at the close of its window (H2, H4 of
R81): no write cycle runs, none was left hanging, and nothing undefined has happened. -/
abbrev Device.ready (d : Device) : Prop := d.busy = false ∧ d.undef = false ∧ d.hung = false

end Sys2Proof.Machine
end

