-- ==== Sys2Proof/Certificates/Slice0/Obligations.lean ====
section
/-! DEFINITION. The statements for the provers. -/

open Sys2Proof Sys2Proof.Machine

/-! ### Encoding -/

/-- R102: the opcodes, written out bit by bit from the pattern column of the opcode map. -/
def Obligations.OpcodeWordsDecode : Prop :=
  decode 0b00000001 = .ok .setaddr ∧ decode 0b00000010 = .ok .setdata ∧ decode 0b00000011 = .ok .readdata ∧
  decode 0b00000100 = .ok (.setdir false) ∧ decode 0b00000101 = .ok (.setdir true) ∧
  decode 0b00010000 = .ok .ceAssert ∧ decode 0b00010001 = .ok .ceDeassert ∧ decode 0b00010010 = .ok .weAssert ∧
  decode 0b00010011 = .ok .weDeassert ∧ decode 0b00010100 = .ok .oeAssert ∧ decode 0b00010101 = .ok .oeDeassert ∧
  decode 0b00100000 = .ok .readbyte ∧ decode 0b00100001 = .ok .writebyte ∧ decode 0b00110000 = .ok .writepage ∧
  decode 0b01000000 = .ok .unlock ∧ decode 0b01000001 = .ok .lock ∧ decode 0b01010000 = .ok .eraseall ∧
  decode 0b01010001 = .ok .loadstream

/-- Decoding an encoded command gives it back, and a value of `CMD` that decodes is the opcode of what it decodes to: each
of the 18 defined values has one meaning. -/
def Obligations.DecodeEncodeAgree : Prop :=
  (∀ i : Instr, i.wf = true → decode (encode i) = .ok i) ∧ ∀ (v : Byte) (i : Instr), decode v = .ok i → encode i = v

/-- R105: the values of `CMD` the decoder rejects are the listed ranges. -/
def Obligations.ReservedCodesRejected : Prop :=
  ∀ v : Byte, decode v = .error (.reserved v) ↔
    v.toNat = 0x00 ∨ (0x06 ≤ v.toNat ∧ v.toNat ≤ 0x0F) ∨ (0x16 ≤ v.toNat ∧ v.toNat ≤ 0x1F) ∨
    (0x22 ≤ v.toNat ∧ v.toNat ≤ 0x2F) ∨ (0x31 ≤ v.toNat ∧ v.toNat ≤ 0x3F) ∨ (0x42 ≤ v.toNat ∧ v.toNat ≤ 0x4F) ∨
    0x52 ≤ v.toNat

/-! ### The step and the host -/

/-- R101: a host write of a defined opcode to `CMD` while `BUSY = 0` runs the command decoded, on the state with that move
taken off the pending ones. The value is a 32-bit word of which `CMD` takes the low 8 bits, so that a wider value runs the
command of its low bits: the model's choice (log 16); R101 and R105 speak of 8-bit values. -/
def Obligations.StepRunsAcceptedCommand : Prop :=
  ∀ (s : State) (v : Word) (rest : List Turn) (i : Instr), s.cfg.wf → s.flags.busy = false →
    s.inputs = .hostWrite 0 v :: rest → decode (v.setWidth 8) = .ok i →
    step s = exec i { s with inputs := rest }

/-- R13, R30: the sequencer's move while `BUSY = 1` runs the command in `OP`: scheduled, also under the host's wait `repeat R 1
until STATUS[0] = 0` (R110), which stays pending with every later move of the host (log 23) and every later call's delivery
of its source (log 29); and where no pending move is free, that the sequencer then moves being the model's choice (log 3). -/
def Obligations.StepRunsSequencerMove : Prop :=
  ∀ (s : State) (i : Instr), s.cfg.wf → s.flags.busy = true → decode s.seq.op = .ok i →
    (∀ rest, s.inputs = .sequencer :: rest → step s = exec i { s with inputs := rest }) ∧
    (∀ rest, s.inputs = .hostAwait :: .sequencer :: rest →
      step s = exec i { s with inputs := .hostAwait :: rest }) ∧
    (s.inputs = [] → step s = exec i s) ∧
    (∀ rest, s.inputs = .hostAwait :: rest → (∀ t ∈ rest, t.agent = .host ∨ ∃ source, t = .deliver source) →
      step s = exec i s) ∧
    (s.nextTurn = none → step s = exec i s)

/-- R105, R107: a write of a reserved value to `CMD`, and every host write while `BUSY = 1`, changes nothing and is not
queued. -/
def Obligations.HostWritesIgnored : Prop :=
  ∀ (s : State) (index : Nat) (v : Word) (rest : List Turn), s.cfg.wf → s.inputs = .hostWrite index v :: rest →
    (s.flags.busy = true ∨ (index = 0 ∧ decode (v.setWidth 8) = .error (.reserved (v.setWidth 8)))) →
    step s = .next { s with inputs := rest }

/-- R28: a host write while idle loads the operand register or the element of `PAGE_BUF` of its index, and nothing else
(a value wider than the register is cut to its width: the model's choice, log 16). -/
def Obligations.HostWritesLoadRegisters : Prop :=
  ∀ (s : State) (index : Nat) (v : Word) (rest : List Turn), s.cfg.wf → s.flags.busy = false →
    s.inputs = .hostWrite index v :: rest →
    (index = 2 → step s = .next { s with inputs := rest, regs := { s.regs with addrOp := v } }) ∧
    (index = 3 → step s = .next { s with inputs := rest, regs := { s.regs with dataOp := v.setWidth 8 } }) ∧
    (index = 4 → step s = .next { s with inputs := rest, regs := { s.regs with lenOp := v } }) ∧
    (∀ i, index = 0x100 + i → i < s.cfg.pageSize →
      step s = .next { s with inputs := rest, regs := { s.regs with pageBuf := s.regs.pageBuf.set i (v.setWidth 8) } }) ∧
    (index = 1 ∨ index = 5 ∨ index = 6 ∨ index = 7 ∨ (7 < index ∧ index < 0x100) ∨ 0x100 + s.cfg.pageSize ≤ index →
      step s = .next { s with inputs := rest })

/-- R28: host reads are always answered, with the current value of the register of the index, and change nothing; the read
that ends the host's wait (R110) is one of `STATUS`, and its answer the only one of the wait that is recorded (log 23). -/
def Obligations.HostReadsAnswered : Prop :=
  ∀ (s : State) (rest : List Turn), s.cfg.wf →
    (∀ index, s.inputs = .hostRead index :: rest →
      ∃ v : Word, step s = .next { s with inputs := rest, answers := s.answers ++ [v] } ∧
        (index = 0 → v = 0) ∧ (index = 1 → v = s.status) ∧ (index = 2 → v = s.regs.addrOp) ∧
        (index = 3 → v.toNat = s.regs.dataOp.toNat) ∧ (index = 4 → v = s.regs.lenOp) ∧
        (index = 5 → v.toNat = s.regs.rdata.toNat) ∧ (index = 6 → v = s.regs.attempts) ∧
        (∀ i, index = 0x100 + i → i < s.cfg.pageSize → v.toNat = (s.pageByte i).toNat) ∧
        (index = 7 ∨ (7 < index ∧ index < 0x100) ∨ 0x100 + s.cfg.pageSize ≤ index → v = 0)) ∧
    (s.inputs = .hostAwait :: rest → s.flags.busy = false →
      step s = .next { s with inputs := rest, answers := s.answers ++ [s.status] })

/-- R33: the bits of `STATUS`. R24, R27, R248: the output pins, the control pins active low, and `S_READY = 1` exactly while
`PH = LS0`. -/
def Obligations.StatusBits : Prop :=
  ∀ s : State, s.status.getLsbD 0 = s.flags.busy ∧ s.status.getLsbD 1 = s.flags.ok ∧
    s.status.getLsbD 2 = s.flags.pollOk ∧ s.status.getLsbD 3 = s.flags.verifyOk ∧
    s.status.getLsbD 4 = s.flags.dropped ∧ s.status.getLsbD 5 = s.bus.dir ∧ s.status.getLsbD 6 = s.bus.ce ∧
    s.status.getLsbD 7 = s.bus.we ∧ s.status.getLsbD 8 = s.bus.oe ∧ (∀ k, 9 ≤ k → s.status.getLsbD k = false) ∧
    s.pins.a = s.bus.aLatch ∧ s.pins.dqOut = s.bus.dLatch ∧ s.pins.dqOe = s.bus.dir ∧
    s.pins.ceN = !s.bus.ce ∧ s.pins.weN = !s.bus.we ∧ s.pins.oeN = !s.bus.oe ∧
    (s.pins.sReady = true ↔ s.seq.ph = .ls0)

/-- R110: the expansion of each call into host accesses, the write to `CMD` last, then the wait, then the read of a result in
`RDATA`; a page of any length, whose bytes past `PAGE_SIZE` are not written. The wait is one pending move, whose last `R 1`
carries the result `STATUS[1]` (log 23); the stream follows the write to `CMD` (log 29); a page of `2^32` bytes or more has no
accesses, since `LEN_OP` cannot hold its length (D3, log 28). -/
def Obligations.CallsExpandToAccesses : Prop :=
  ∀ (p : Nat) (a n w : Word) (b : Byte) (bytes : List Byte),
    (HostCall.setAddress a).accesses p = some [.hostWrite 2 a, .hostWrite 0 0x01, .hostAwait] ∧
    (HostCall.setData b).accesses p = some [.hostWrite 3 (b.setWidth 32), .hostWrite 0 0x02, .hostAwait] ∧
    HostCall.readData.accesses p = some [.hostWrite 0 0x03, .hostAwait, .hostRead 5] ∧
    (HostCall.setDataDirection true).accesses p = some [.hostWrite 0 0x05, .hostAwait] ∧
    (HostCall.setDataDirection false).accesses p = some [.hostWrite 0 0x04, .hostAwait] ∧
    HostCall.assertChipEnable.accesses p = some [.hostWrite 0 0x10, .hostAwait] ∧
    HostCall.deassertChipEnable.accesses p = some [.hostWrite 0 0x11, .hostAwait] ∧
    HostCall.assertWriteEnable.accesses p = some [.hostWrite 0 0x12, .hostAwait] ∧
    HostCall.deassertWriteEnable.accesses p = some [.hostWrite 0 0x13, .hostAwait] ∧
    HostCall.assertOutputEnable.accesses p = some [.hostWrite 0 0x14, .hostAwait] ∧
    HostCall.deassertOutputEnable.accesses p = some [.hostWrite 0 0x15, .hostAwait] ∧
    (HostCall.readByte a).accesses p = some [.hostWrite 2 a, .hostWrite 0 0x20, .hostAwait, .hostRead 5] ∧
    (HostCall.writeByte b a).accesses p =
      some [.hostWrite 3 (b.setWidth 32), .hostWrite 2 a, .hostWrite 0 0x21, .hostAwait] ∧
    (bytes.length < 2 ^ 32 → (HostCall.writePage bytes a).accesses p =
      some ((List.range (min bytes.length p)).map (fun i => .hostWrite (0x100 + i) ((bytes.getD i 0).setWidth 32)) ++
        [.hostWrite 4 (BitVec.ofNat 32 bytes.length), .hostWrite 2 a, .hostWrite 0 0x30, .hostAwait])) ∧
    (2 ^ 32 ≤ bytes.length → (HostCall.writePage bytes a).accesses p = none) ∧
    HostCall.unlock.accesses p = some [.hostWrite 0 0x40, .hostAwait] ∧
    HostCall.lock.accesses p = some [.hostWrite 0 0x41, .hostAwait] ∧
    HostCall.eraseAll.accesses p = some [.hostWrite 0 0x50, .hostAwait] ∧
    (HostCall.loadStream bytes n a).accesses p =
      some [.hostWrite 4 n, .hostWrite 2 a, .hostWrite 0 0x51, .deliver bytes, .hostAwait] ∧
    (∀ c : HostCall, c = .readData ∨ c = .readByte a → c.result w = .byte (w.setWidth 8)) ∧
    (∀ c : HostCall, c = .writeByte b a ∨ c = .writePage bytes a ∨ c = .eraseAll ∨ c = .loadStream bytes n a →
      c.result w = .success (w.getLsbD 1))

/-- R101: acceptance of every command: `OP` is its opcode, no pin changes, the device sees nothing, no event occurs, and
`POLL_OK`, `VERIFY_OK`, `RDATA` and the operands keep their values. -/
def Obligations.AcceptanceTouchesNoPin : Prop :=
  ∀ (i : Instr) (s : State), s.flags.busy = false →
    ∃ t, exec i s = .next t ∧ t.seq.op = encode i ∧ t.bus = s.bus ∧ t.dev = s.dev ∧ t.trace = s.trace ∧
      t.flags.pollOk = s.flags.pollOk ∧ t.flags.verifyOk = s.flags.verifyOk ∧ t.regs.rdata = s.regs.rdata ∧
      t.regs.addrOp = s.regs.addrOp ∧ t.regs.dataOp = s.regs.dataOp ∧ t.regs.lenOp = s.regs.lenOp ∧
      (¬ i.pages → t.flags.busy = true ∧ t.flags.ok = false ∧ t.flags.dropped = false ∧ t.regs = s.regs)

/-! ### Reset -/

/-- R38, R300: `RST` at any moment, also in mid-command: every register for which the spec states a reset value takes it,
in one step. -/
def Obligations.ResetAbandonsCommand : Prop :=
  ∀ (s : State) (rest : List Turn), s.cfg.wf → s.inputs = .reset :: rest →
    ∃ t, step s = .next t ∧ t.bus = ⟨0, 0, true, false, false, false⟩ ∧ t.flags = ⟨false, false, false, false, false⟩ ∧
      t.seq.ph = .idle ∧ t.regs.addrOp = 0 ∧ t.regs.dataOp = 0 ∧ t.regs.lenOp = 0 ∧ t.regs.rdata = 0 ∧
      t.regs.attempts = 0 ∧ t.regs.pageBuf = List.replicate s.cfg.pageSize 0

/-- R302, R79: the device is not reset: its array is as before, a write cycle that runs goes on, and outside a window
nothing of it changes. -/
def Obligations.ResetLeavesDevice : Prop :=
  ∀ (s : State) (rest : List Turn), s.cfg.wf → s.inputs = .reset :: rest →
    ∃ t, step s = .next t ∧ t.dev.mem = s.dev.mem ∧ (s.dev.busy = true → t.dev.busy = true) ∧
      (s.bus.ce = false → t.dev = s.dev)

/-- R38, R301: the machine after reset is idle, `STATUS` reads 0x20, and the pins are at their reset levels. -/
def Obligations.ResetIsIdle : Prop :=
  State.reset.flags.busy = false ∧ State.reset.seq.ph = .idle ∧ State.reset.status = 0x20 ∧
  State.reset.pins = ⟨0, 0, true, true, true, true, false⟩ ∧
  State.reset.regs.pageBuf = List.replicate State.reset.cfg.pageSize 0 ∧ State.reset.trace = []

/-! ### The primitives -/

/-- R131, R141: `SETADDR` drives the clamped operand and finishes with `OK = 1`; nothing else changes. -/
def Obligations.SetAddrClampsAddress : Prop :=
  ∀ s : State, s.flags.busy = false →
    ∃ u, exec .setaddr s = .next u ∧
      exec .setaddr u = .next { s with
        bus := { s.bus with aLatch := min s.regs.addrOp.toNat s.cfg.maxAddr }
        flags := { s.flags with ok := true, dropped := false }
        seq := { s.seq with op := 0x01, ph := .idle }
        trace := s.trace ++ [.addr (min s.regs.addrOp.toNat s.cfg.maxAddr)] }

/-- R132, R141: `SETDATA` writes `D_LATCH` where the bus is output; where it is input `D_LATCH` takes a free byte, which
nothing constrains (U1). Nothing else changes. -/
def Obligations.SetDataWritesLatch : Prop :=
  ∀ s : State, s.flags.busy = false →
    ∃ u, exec .setdata s = .next u ∧
      (s.bus.dir = true → exec .setdata u = .next { s with
        bus := { s.bus with dLatch := s.regs.dataOp }
        flags := { s.flags with ok := true, dropped := false }
        seq := { s.seq with op := 0x02, ph := .idle }
        trace := s.trace ++ [.data s.regs.dataOp] }) ∧
      (s.bus.dir = false → ∃ v n, exec .setdata u = .next { s with
        bus := { s.bus with dLatch := v }
        flags := { s.flags with ok := true, dropped := false }
        seq := { s.seq with op := 0x02, ph := .idle }
        draws := n
        trace := s.trace ++ [.data s.regs.dataOp] })

/-- R133, R141: `SETDIR` sets the direction of its bit; the device only notes the hazards of the new lines (R310, R311). -/
def Obligations.SetDirSetsDirection : Prop :=
  ∀ (s : State) (output : Bool), s.flags.busy = false →
    ∃ u, exec (.setdir output) s = .next u ∧
      exec (.setdir output) u = .next { s with
        bus := { s.bus with dir := output }
        dev := s.dev.watch { s.bus with dir := output }
        flags := { s.flags with ok := true, dropped := false }
        seq := { s.seq with op := if output then 0x05 else 0x04, ph := .idle }
        trace := s.trace ++ [.dir output] }

/-- R134, R73, R141: `READDATA` leaves a sample in `RDATA`: the byte the device drives for `A_LATCH` where the bus is input,
chip-enable and output-enable are asserted and write-enable is not, and the device is defined and idle. Bus State and
device are unchanged, whatever is sampled. -/
def Obligations.ReadDataSamplesBus : Prop :=
  ∀ s : State, s.flags.busy = false →
    ∃ u v n, exec .readdata s = .next u ∧
      exec .readdata u = .next { s with
        regs := { s.regs with rdata := v }
        flags := { s.flags with ok := true, dropped := false }
        seq := { s.seq with op := 0x03, ph := .idle }
        draws := n
        trace := s.trace ++ [.sample v] } ∧
      (s.bus.dir = false → s.bus.ce = true → s.bus.oe = true → s.bus.we = false → s.dev.undef = false →
        s.dev.busy = false → v = s.dev.stored s.bus.aLatch)

/-- R135 to R140, R141: each control-line command sets its own line and no other, appends its event, and finishes with
`OK = 1`; the device reacts in the same step, without a change to its array. -/
def Obligations.ControlLineCommandsSetOneLine : Prop :=
  ∀ (s : State) (i : Instr) (b : Bus) (e : Event), s.flags.busy = false →
    ((i = .ceAssert ∧ b = { s.bus with ce := true } ∧ e = .ce true) ∨
     (i = .ceDeassert ∧ b = { s.bus with ce := false } ∧ e = .ce false) ∨
     (i = .weAssert ∧ b = { s.bus with we := true } ∧ e = .we true) ∨
     (i = .weDeassert ∧ b = { s.bus with we := false } ∧ e = .we false) ∨
     (i = .oeAssert ∧ b = { s.bus with oe := true } ∧ e = .oe true) ∨
     (i = .oeDeassert ∧ b = { s.bus with oe := false } ∧ e = .oe false)) →
    ∃ u d n, exec i s = .next u ∧
      exec i u = .next { s with
        bus := b, dev := d, draws := n
        flags := { s.flags with ok := true, dropped := false }
        seq := { s.seq with op := encode i, ph := .idle }
        trace := s.trace ++ [e] } ∧
      d.mem = s.dev.mem

/-- R67, R77: write-enable deasserted inside a window latches (`A_LATCH`, `D_LATCH`); with chip-enable deasserted, or
write-enable not asserted before, nothing is latched. -/
def Obligations.TrailingEdgeLatches : Prop :=
  ∀ s : State, s.flags.busy = false →
    ∃ u t, exec .weDeassert s = .next u ∧ exec .weDeassert u = .next t ∧ t.bus = { s.bus with we := false } ∧
      (s.bus.ce = true → s.bus.we = true → s.bus.oe = false → s.bus.dir = true → s.dev.busy = false →
        t.dev = { s.dev with
          pend := s.dev.pend ++ [(s.bus.aLatch, s.bus.dLatch)], last := some (s.bus.aLatch, s.bus.dLatch) }) ∧
      (s.bus.ce = false ∨ s.bus.we = false → t.dev.pend = s.dev.pend ∧ t.dev.last = s.dev.last)

/-- R77: what the device makes of a window at its close, with write-enable deasserted and no contention in it: a
protection sequence switches the Protection State, a protected device ignores other bytes, bytes of one aligned page
start a write cycle, others leave it undefined. That more than `PAGE_SIZE` pulses are such others, even inside one aligned
page, is the model's reading of U7 (`onePage`; log 14). The array changes in none of these. -/
def Obligations.WindowCloseStartsCycle : Prop :=
  ∀ s : State, s.flags.busy = false → s.bus.ce = true → s.bus.we = false → s.dev.contended = false →
    ∃ u t, exec .ceDeassert s = .next u ∧ exec .ceDeassert u = .next t ∧ t.bus = { s.bus with ce := false } ∧
      (s.dev.pend = [] → t.dev = s.dev) ∧
      (s.dev.pend = unlockSeq → t.dev = { s.dev with prot := false, pend := [] }) ∧
      (s.dev.pend = lockSeq → t.dev = { s.dev with prot := true, pend := [] }) ∧
      (s.dev.pend ≠ unlockSeq → s.dev.pend ≠ lockSeq → s.dev.prot = true → t.dev = { s.dev with pend := [] }) ∧
      (s.dev.pend ≠ [] → s.dev.pend ≠ unlockSeq → s.dev.pend ≠ lockSeq → s.dev.prot = false →
        onePage s.cfg.pageSize s.dev.pend = true →
        t.dev = { s.dev with pend := [], busy := true, cycle := s.dev.pend }) ∧
      (s.dev.pend ≠ [] → s.dev.pend ≠ unlockSeq → s.dev.pend ≠ lockSeq → s.dev.prot = false →
        onePage s.cfg.pageSize s.dev.pend = false → t.dev = { s.dev with pend := [], undef := true })

/-- R310, U3: write-enable and output-enable both asserted inside a window: the controller goes on and sets its line, the
device is undefined from there. -/
def Obligations.WriteWithOutputUndefinesDevice : Prop :=
  ∀ s : State, s.flags.busy = false → s.bus.ce = true →
    (s.bus.oe = true → ∃ u t, exec .weAssert s = .next u ∧ exec .weAssert u = .next t ∧
      t.bus = { s.bus with we := true } ∧ t.dev.undef = true) ∧
    (s.bus.we = true → ∃ u t, exec .oeAssert s = .next u ∧ exec .oeAssert u = .next t ∧
      t.bus = { s.bus with oe := true } ∧ t.dev.undef = true)

/-- R70, R166 (d): while the write cycle runs a sample at the last-written address has bit 7 complemented, whatever its
other bits are, so it is never the byte written. -/
def Obligations.StatusNeverEqualsByteWritten : Prop :=
  ∀ (s : State) (b : Byte), s.flags.busy = false → s.bus.dir = false → s.bus.ce = true → s.bus.oe = true →
    s.bus.we = false → s.dev.undef = false → s.dev.busy = true → s.dev.last = some (s.bus.aLatch, b) →
    ∃ u t, exec .readdata s = .next u ∧ exec .readdata u = .next t ∧
      t.regs.rdata.getLsbD 7 = !b.getLsbD 7 ∧ t.regs.rdata ≠ b

/-! ### The device's own steps -/

/-- R77 `Commit`, also under the host's wait (log 23): afterwards every address of the cycle holds the last byte latched for it
and every other its old byte; the cycle is over. -/
def Obligations.CommitStoresCycle : Prop :=
  ∀ (s : State) (rest : List Turn), s.cfg.wf → s.dev.busy = true → s.dev.hung = false → s.dev.undef = false →
    s.inputs = .commit :: rest ∨ (s.flags.busy = true ∧ s.inputs = .hostAwait :: .commit :: rest) →
    ∃ t, step s = .next t ∧ t.dev.busy = false ∧ t.dev.cycle = [] ∧ t.bus = s.bus ∧ t.regs = s.regs ∧
      ∀ a, (∀ v, (∃ before after, s.dev.cycle = before ++ (a, v) :: after ∧ ∀ c ∈ after, c.1 ≠ a) →
          t.dev.stored a = v) ∧
        ((∀ c ∈ s.dev.cycle, c.1 ≠ a) → t.dev.stored a = s.dev.stored a)

/-- R78 `Fail`, also under the host's wait (log 23): the cycle is over and exactly the pairs kept are stored: an address holds
the last byte kept for it, and its old byte where none is. Pairs without a flag are lost. -/
def Obligations.FailStoresSubset : Prop :=
  ∀ (s : State) (keep : List Bool) (rest : List Turn), s.cfg.wf → s.dev.busy = true → s.dev.hung = false →
    s.dev.undef = false →
    s.inputs = .fail keep :: rest ∨ (s.flags.busy = true ∧ s.inputs = .hostAwait :: .fail keep :: rest) →
    ∃ t, step s = .next t ∧ t.dev.busy = false ∧ t.dev.cycle = [] ∧ t.bus = s.bus ∧ t.regs = s.regs ∧
      ∀ a, (∀ v, (∃ before after, s.dev.cycle.zip keep = before ++ ((a, v), true) :: after ∧
            ∀ c ∈ after, c.2 = true → c.1.1 ≠ a) → t.dev.stored a = v) ∧
        ((∀ c ∈ s.dev.cycle.zip keep, c.2 = true → c.1.1 ≠ a) → t.dev.stored a = s.dev.stored a)

/-! ### Whole-machine rules -/

/-- R60, R77, R78: the array changes by the device's own steps `Commit` and `Fail` only, whatever else is the next move (that
of an UNDEFINED device is unconstrained, R77). -/
def Obligations.ArrayChangesOnlyByDeviceSteps : Prop :=
  ∀ s t : State, step s = .next t → (∀ kept rest, s.nextTurn ≠ some (kept, .commit, rest)) →
    (∀ kept keep rest, s.nextTurn ≠ some (kept, .fail keep, rest)) → t.dev.mem = s.dev.mem ∧
      (s.dev.undef = false → t.dev.undef = false → ∀ a, t.arrayByte a = s.arrayByte a)

/-- R20: the Bus State is written by the sequencer's primitives and by reset, and by nothing else: the sequencer moves where
it is picked, or where no pending move is free (log 3). -/
def Obligations.BusWrittenOnlyByPrimitives : Prop :=
  ∀ s t : State, step s = .next t →
    (∃ i, s.flags.busy = true ∧ decode s.seq.op = .ok i ∧
      (s.nextTurn = none ∨ ∃ kept rest, s.nextTurn = some (kept, .sequencer, rest))) ∨
    (∃ kept rest, s.nextTurn = some (kept, .reset, rest)) ∨ t.bus = s.bus

/-- R143, R36: a sequencer step changes at most one register of the Bus State, and appends exactly one event, but for the
step at `LS0`, which changes none and appends none. The spec derives both ("exactly one of ... may differ", "every sequencer
step except `LS0` appends exactly one event"). -/
def Obligations.OneBusChangePerStep : Prop :=
  ∀ (i : Instr) (s t : State), s.flags.busy = true → exec i s = .next t →
    Bus.changes s.bus t.bus ≤ 1 ∧
    (s.seq.ph ≠ .ls0 → ∃ e, t.trace = s.trace ++ [e]) ∧
    (s.seq.ph = .ls0 → t.bus = s.bus ∧ t.trace = s.trace)

/-- R29, R37, R60, R77: no command writes an operand register; `PAGE_BUF` changes only at the acceptance of `eraseAll` and at
`LS0` (R32); no command changes the configuration or the array. -/
def Obligations.CommandsKeepOperands : Prop :=
  ∀ (i : Instr) (s t : State), exec i s = .next t →
    t.regs.addrOp = s.regs.addrOp ∧ t.regs.dataOp = s.regs.dataOp ∧ t.regs.lenOp = s.regs.lenOp ∧
    t.cfg = s.cfg ∧ t.dev.mem = s.dev.mem ∧
    (i ≠ .eraseall → i ≠ .loadstream → t.regs.pageBuf = s.regs.pageBuf) ∧
    (s.flags.busy = true → s.seq.ph ≠ .ls0 → t.regs.pageBuf = s.regs.pageBuf) ∧
    (s.flags.busy = false → i ≠ .eraseall → t.regs.pageBuf = s.regs.pageBuf)

/-- R31: "Nothing else writes it": where a step of a command changes `RDATA`, its event is the sample of that byte. -/
def Obligations.RdataWrittenOnlyBySample : Prop :=
  ∀ (i : Instr) (s t : State), exec i s = .next t →
    t.regs.rdata = s.regs.rdata ∨ t.trace = s.trace ++ [.sample t.regs.rdata]

/-! ### Byte transactions -/

/-- R161, R162: `readByte` from idle lines, with no other agent's move between: acceptance and seven steps, in that order on
the trace; the byte sampled is in `RDATA`, and it is the byte stored at the clamped address where the device is defined
and runs no write cycle. -/
def Obligations.ReadByteReadsClampedAddress : Prop :=
  ∀ s : State, s.flags.busy = false → s.linesIdle →
    ∃ t, execTimes 8 .readbyte s = .next t ∧
      t.bus = { s.bus with aLatch := min s.regs.addrOp.toNat s.cfg.maxAddr, dir := false } ∧
      t.trace = s.trace ++ readEvents (min s.regs.addrOp.toNat s.cfg.maxAddr) t.regs.rdata ∧
      t.regs = { s.regs with rdata := t.regs.rdata } ∧
      t.flags = { s.flags with ok := true, dropped := false } ∧ t.seq.ph = .idle ∧
      t.dev = { s.dev with pend := [], contended := false } ∧
      (s.dev.undef = false → s.dev.busy = false →
        t.regs.rdata = s.dev.stored (min s.regs.addrOp.toNat s.cfg.maxAddr))

/-- R161, R162, R222, R223, R225, R108: the last steps of `readByte`, `unlock` and `lock`: chip-enable deasserted, or the last
tick of the settle delay, and `finish(1)` in the same step; flags but `OK` and `BUSY`, and the registers, keep their values. -/
def Obligations.FixedCommandsFinishWithLastStep : Prop :=
  ∀ s : State, s.flags.busy = true →
    (s.seq.ph = .rs6 → s.seq.retT = .finish → ∃ t, exec .readbyte s = .next t ∧ t.bus = { s.bus with ce := false } ∧
      t.flags = { s.flags with busy := false, ok := true } ∧ t.seq.ph = .idle ∧ t.regs = s.regs ∧
      t.trace = s.trace ++ [.ce false]) ∧
    (∀ i, i = .unlock ∨ i = .lock →
      (s.seq.ph = .ps6 → ∃ t, exec i s = .next t ∧ t.bus = { s.bus with ce := false } ∧ t.regs = s.regs ∧
        t.trace = s.trace ++ [.ce false] ∧
        (s.cfg.settleTicks = 0 → t.flags = { s.flags with busy := false, ok := true } ∧ t.seq.ph = .idle) ∧
        (s.cfg.settleTicks ≠ 0 →
          t.flags = s.flags ∧ t.seq = { s.seq with ph := .ps7, settleCnt := s.cfg.settleTicks })) ∧
      (s.seq.ph = .ps7 → ∃ t, exec i s = .next t ∧ t.bus = s.bus ∧ t.dev = s.dev ∧ t.regs = s.regs ∧
        t.trace = s.trace ++ [.settle] ∧
        (s.seq.settleCnt ≤ 1 → t.flags = { s.flags with busy := false, ok := true } ∧ t.seq.ph = .idle) ∧
        (2 ≤ s.seq.settleCnt → t.flags = s.flags ∧ t.seq = { s.seq with settleCnt := s.seq.settleCnt - 1 })))

/-- R163, R164: the write phase of `writeByte` from idle lines: acceptance and seven steps; the one byte latched starts a
write cycle in an unprotected device and is ignored by a protected one (R77). -/
def Obligations.WriteByteSendsOnePulse : Prop :=
  ∀ s : State, s.cfg.wf → s.flags.busy = false → s.linesIdle → s.dev.busy = false →
    ∃ t, execTimes 8 .writebyte s = .next t ∧ t.flags.busy = true ∧ t.seq.ph = .pl0 ∧
      t.seq.expect = s.regs.dataOp ∧ t.seq.pollCnt = 0 ∧ t.seq.retT = .finish ∧ t.regs = s.regs ∧
      t.bus = { s.bus with
        aLatch := min s.regs.addrOp.toNat s.cfg.maxAddr, dLatch := s.regs.dataOp, dir := true } ∧
      t.trace = s.trace ++ [.addr (min s.regs.addrOp.toNat s.cfg.maxAddr), .dir true, .data s.regs.dataOp, .ce true,
        .we true, .we false, .ce false] ∧
      t.dev.mem = s.dev.mem ∧ t.dev.undef = s.dev.undef ∧
      t.dev.last = some (min s.regs.addrOp.toNat s.cfg.maxAddr, s.regs.dataOp) ∧
      (s.dev.prot = true → t.dev.busy = false) ∧
      (s.dev.prot = false → t.dev.busy = true ∧
        t.dev.cycle = [(min s.regs.addrOp.toNat s.cfg.maxAddr, s.regs.dataOp)])

/-- R165: what `writeByte` does at the end of a polling sample: a match finishes with `OK = POLL_OK = 1`, the last sample
of the budget without one with 0, else it polls again. -/
def Obligations.PollStepDecides : Prop :=
  ∀ s : State, s.flags.busy = true → s.seq.ph = .pl5 → s.seq.retT = .finish →
    ∃ t, exec .writebyte s = .next t ∧ t.bus = { s.bus with ce := false } ∧ t.regs = s.regs ∧
      t.seq.pollCnt = s.seq.pollCnt + 1 ∧ t.flags.verifyOk = s.flags.verifyOk ∧ t.flags.dropped = s.flags.dropped ∧
      (s.regs.rdata = s.seq.expect →
        t.flags.busy = false ∧ t.flags.ok = true ∧ t.flags.pollOk = true ∧ t.seq.ph = .idle) ∧
      (s.regs.rdata ≠ s.seq.expect → s.seq.pollCnt + 1 = s.cfg.pollBudget →
        t.flags.busy = false ∧ t.flags.ok = false ∧ t.flags.pollOk = false ∧ t.seq.ph = .idle) ∧
      (s.regs.rdata ≠ s.seq.expect → s.seq.pollCnt + 1 ≠ s.cfg.pollBudget →
        t.flags = s.flags ∧ t.seq.ph = .pl1)

/-- R164, R288 (a bound the spec derives): from idle lines `writeByte` always finishes, whatever the device answers: acceptance,
eight steps, and five for each of the `n` samples taken, of which there is at least one and at most `POLL_BUDGET`;
`OK = POLL_OK` says whether the last sample was the byte. -/
def Obligations.WriteByteFinishes : Prop :=
  ∀ s : State, s.cfg.wf → s.flags.busy = false → s.linesIdle →
    ∃ n t, 1 ≤ n ∧ n ≤ s.cfg.pollBudget ∧ execTimes (1 + (8 + 5 * n)) .writebyte s = .next t ∧
      t.flags.busy = false ∧ t.seq.ph = .idle ∧ t.seq.op = 0x21 ∧ t.seq.pollCnt = n ∧
      t.flags.ok = t.flags.pollOk ∧ (t.flags.ok = true ↔ t.regs.rdata = s.regs.dataOp) ∧
      (t.flags.ok = false → n = s.cfg.pollBudget) ∧
      t.bus = { s.bus with
        aLatch := min s.regs.addrOp.toNat s.cfg.maxAddr, dLatch := s.regs.dataOp, dir := false }

/-- R168, R84, H1 to H4 of R81: write then read, on a device that is idle and unprotected at the start and commits after
`k` polling samples, for any `k` below the budget: `writeByte` finishes with `OK = 1`, `readByte` of the address returns the
byte, and every other byte of the array is as before. -/
def Obligations.WriteThenReadReturnsByte : Prop :=
  ∀ (s : State) (a : Word) (b : Byte) (k : Nat) (rest : List Turn), s.cfg.wf → s.flags.busy = false → s.linesIdle →
    s.dev.ready → s.dev.prot = false → a.toNat ≤ s.cfg.maxAddr → k < s.cfg.pollBudget →
    s.inputs = [Turn.hostWrite 3 (b.setWidth 32), Turn.hostWrite 2 a, Turn.hostWrite 0 0x21] ++
      List.replicate (8 + 5 * k) Turn.sequencer ++ [Turn.commit] ++ List.replicate 5 Turn.sequencer ++
      [Turn.hostRead 1, Turn.hostWrite 2 a, Turn.hostWrite 0 0x20] ++ List.replicate 7 Turn.sequencer ++
      Turn.hostRead 5 :: rest →
    ∃ t w, core.run (3 + (8 + 5 * k) + 1 + 5 + 3 + 7 + 1) s = .next t ∧ t.inputs = rest ∧ t.flags.busy = false ∧
      t.answers = s.answers ++ [w, b.setWidth 32] ∧ w.getLsbD 0 = false ∧ w.getLsbD 1 = true ∧
      t.dev.stored a.toNat = b ∧ ∀ x, x ≠ a.toNat → t.dev.stored x = s.dev.stored x

/-! ### The page writer -/

/-- R191: a `writePage` whose precondition fails is dropped at acceptance: no step, no event, Bus State and device
untouched, `OK = 0` and `DROPPED = 1` (D16), `ATTEMPTS`, `POLL_OK`, `VERIFY_OK`, `RDATA` unchanged. -/
def Obligations.InvalidPageDropped : Prop :=
  ∀ s : State, s.flags.busy = false →
    ¬ (1 ≤ s.regs.lenOp.toNat ∧ s.regs.lenOp.toNat ≤ s.cfg.pageSize ∧
      s.regs.addrOp.toNat + s.regs.lenOp.toNat - 1 ≤ s.cfg.maxAddr) →
    ∃ t, exec .writepage s = .next t ∧ t.flags = { s.flags with ok := false, dropped := true } ∧ t.seq.ph = .idle ∧
      t.bus = s.bus ∧ t.regs = s.regs ∧ t.dev = s.dev ∧ t.trace = s.trace

/-- R191, R192: a `writePage` whose precondition holds starts its first attempt, with `ATTEMPTS = 0`. -/
def Obligations.ValidPageStarts : Prop :=
  ∀ s : State, s.flags.busy = false → 1 ≤ s.regs.lenOp.toNat → s.regs.lenOp.toNat ≤ s.cfg.pageSize →
    s.regs.addrOp.toNat + s.regs.lenOp.toNat - 1 ≤ s.cfg.maxAddr →
    exec .writepage s = .next { s with
      regs := { s.regs with attempts := 0 }
      flags := { s.flags with busy := true, ok := false, dropped := false }
      seq := { s.seq with
        op := 0x30, ph := .wp1, retP := .finish, pgBase := s.regs.addrOp.toNat, pgLen := s.regs.lenOp.toNat } }

/-- R193, R194, R34: the write phase of an attempt of any command that writes pages, from idle lines: `3 + 4n` steps; all
pulses in one window, in increasing index and address order; the attempt is counted, saturating; an idle unprotected
device, given a page that is no protection sequence and lies in one aligned page, then commits exactly these bytes. -/
def Obligations.PageSentInOneWindow : Prop :=
  ∀ (i : Instr) (s : State) (n : Nat), i.pages → s.flags.busy = true → s.seq.ph = .wp1 → s.linesIdle →
    s.pageValid = true → s.seq.pgLen = n →
    ∃ t, execTimes (3 + 4 * n) i s = .next t ∧ t.flags = s.flags ∧ t.seq.ph = .pl0 ∧ t.seq.retT = .afterPoll ∧
      t.seq.expect = s.pageByte (n - 1) ∧ t.seq.pollCnt = 0 ∧
      t.regs = { s.regs with
        attempts := if s.regs.attempts.toNat = 2 ^ 32 - 1 then s.regs.attempts else s.regs.attempts + 1 } ∧
      t.bus = { s.bus with aLatch := s.seq.pgBase + n - 1, dLatch := s.pageByte (n - 1), dir := true } ∧
      t.trace = s.trace ++ windowEvents (s.pageCells s.seq.pgBase n) ∧
      (s.dev.busy = false → t.dev.last = some (s.seq.pgBase + n - 1, s.pageByte (n - 1))) ∧
      (s.dev.busy = false → s.dev.prot = false → s.pageCells s.seq.pgBase n ≠ unlockSeq →
        s.pageCells s.seq.pgBase n ≠ lockSeq → onePage s.cfg.pageSize (s.pageCells s.seq.pgBase n) = true →
        t.dev.busy = true ∧ t.dev.cycle = s.pageCells s.seq.pgBase n ∧ t.dev.undef = s.dev.undef)

/-- R195: when the poll of an attempt ends, matched or out of budget, the read-back begins at the first byte. -/
def Obligations.ReadBackFollowsEveryPoll : Prop :=
  ∀ (i : Instr) (s : State), i.pages → s.flags.busy = true → s.seq.ph = .pl5 → s.seq.retT = .afterPoll →
    (s.regs.rdata = s.seq.expect ∨ s.seq.pollCnt + 1 = s.cfg.pollBudget) →
    ∃ t, exec i s = .next t ∧ t.flags = { s.flags with pollOk := decide (s.regs.rdata = s.seq.expect) } ∧
      t.seq.ph = .rs0 ∧ t.seq.retT = .check ∧ t.seq.idx = 0 ∧ t.seq.tAddr = s.seq.pgBase ∧ t.regs = s.regs

/-- R196: a byte read back equal, with bytes left, goes on to the next address. -/
def Obligations.ReadBackGoesOn : Prop :=
  ∀ (i : Instr) (s : State), i.pages → s.flags.busy = true → s.seq.ph = .rs6 → s.seq.retT = .check →
    s.regs.rdata = s.pageByte s.seq.idx → s.seq.idx + 1 < s.seq.pgLen →
    ∃ t, exec i s = .next t ∧ t.flags = s.flags ∧ t.seq.ph = .rs0 ∧ t.seq.idx = s.seq.idx + 1 ∧
      t.seq.tAddr = s.seq.pgBase + (s.seq.idx + 1) ∧ t.regs = s.regs

/-- R196, R197, R279: an attempt that failed (a byte that differs, or a poll that timed out before a read-back that
matched) is retried from `WP1`, with nothing of the page, the counters or the return label changed, unless the cap is
reached. -/
def Obligations.FailedAttemptRetries : Prop :=
  ∀ (i : Instr) (s : State), i.pages → s.flags.busy = true → s.seq.ph = .rs6 → s.seq.retT = .check →
    (∀ k, s.cfg.retryCap = some k → s.regs.attempts.toNat < k) →
    (s.regs.rdata ≠ s.pageByte s.seq.idx → ∃ t, exec i s = .next t ∧ t.regs = s.regs ∧
      t.flags = { s.flags with verifyOk := false } ∧ t.seq = { s.seq with ph := .wp1 }) ∧
    (s.regs.rdata = s.pageByte s.seq.idx → s.seq.pgLen ≤ s.seq.idx + 1 → s.flags.pollOk = false →
      ∃ t, exec i s = .next t ∧ t.regs = s.regs ∧ t.flags = { s.flags with verifyOk := true } ∧
        t.seq = { s.seq with ph := .wp1, idx := s.seq.idx + 1 })

/-- R197, R198: with `RETRY_CAP = K` a failed attempt of `writePage` that was at least the `K`-th ends it with `OK = 0`. -/
def Obligations.CapEndsWritePage : Prop :=
  ∀ (s : State) (k : Nat), s.flags.busy = true → s.seq.ph = .rs6 → s.seq.retT = .check → s.seq.retP = .finish →
    s.cfg.retryCap = some k → k ≤ s.regs.attempts.toNat →
    (s.regs.rdata ≠ s.pageByte s.seq.idx ∨ (s.seq.pgLen ≤ s.seq.idx + 1 ∧ s.flags.pollOk = false)) →
    ∃ t, exec .writepage s = .next t ∧ t.flags.busy = false ∧ t.flags.ok = false ∧ t.seq.ph = .idle ∧
      t.regs = s.regs

/-- R190, R195, R197: `writePage` finishes with `OK = 1` only at the end of a full read-back that matched, after a poll that
matched: the trace then ends with the read of every byte of the page in turn, each sample the byte of `PAGE_BUF`. The premise
`State.Inv`, which every step keeps (`StepGoesOnAndKeepsInv`), carries that of the bytes before the last. -/
def Obligations.SuccessNeedsPollAndReadBack : Prop :=
  ∀ s t : State, s.Inv → s.flags.busy = true → exec .writepage s = .next t → s.paging .finish →
    t.flags.busy = false → t.flags.ok = true →
    s.seq.ph = .rs6 ∧ s.flags.pollOk = true ∧ s.regs.rdata = s.pageByte s.seq.idx ∧ s.seq.idx + 1 = s.seq.pgLen ∧
      t.flags.pollOk = true ∧ t.flags.verifyOk = true ∧
      ∃ before, t.trace = before ++ (List.range s.seq.pgLen).flatMap fun j =>
        readEvents (s.seq.pgBase + j) (s.pageByte j)

/-- R198: "With `RETRY_CAP = none`, `WP` returns only `true`": a running `writePage` is never ended with `OK = 0`. -/
def Obligations.UncappedWritePageEndsOnlyInSuccess : Prop :=
  ∀ s t : State, s.flags.busy = true → exec .writepage s = .next t → s.paging .finish → s.cfg.retryCap = none →
    t.flags.busy = true ∨ t.flags.ok = true

/-- R288 (a bound the spec derives): with `RETRY_CAP = K` (and `K` within the 32 bits of `ATTEMPTS`) `writePage` finishes whatever the device answers,
in at most `K` attempts of at most `(3 + 4n) + (1 + 5 * POLL_BUDGET) + 7n` steps, and not before its step `m`: an invalid page is
dropped at acceptance (R191), a valid one ends after a poll and a read-back that matched (R190) or at the `K`-th attempt (R197). -/
def Obligations.CappedWritePageFinishes : Prop :=
  ∀ (s : State) (k : Nat), s.cfg.wf → s.flags.busy = false → s.cfg.retryCap = some k → k < 2 ^ 32 →
    ∃ m t, execTimes m .writepage s = .next t ∧ 1 ≤ m ∧
      m ≤ 1 + k * ((3 + 4 * s.regs.lenOp.toNat) + (1 + 5 * s.cfg.pollBudget) + 7 * s.regs.lenOp.toNat) ∧
      (∀ j u, 1 ≤ j → j < m → execTimes j .writepage s = .next u → u.flags.busy = true) ∧
      t.flags.busy = false ∧ t.seq.ph = .idle ∧ t.seq.op = 0x30 ∧
      (t.flags.dropped = false ↔ 1 ≤ s.regs.lenOp.toNat ∧ s.regs.lenOp.toNat ≤ s.cfg.pageSize ∧
        s.regs.addrOp.toNat + s.regs.lenOp.toNat - 1 ≤ s.cfg.maxAddr) ∧
      (t.flags.dropped = true → m = 1 ∧ t.flags.ok = false ∧ t.regs = s.regs) ∧
      (t.flags.dropped = false → 1 ≤ t.regs.attempts.toNat ∧ t.regs.attempts.toNat ≤ k ∧
        (t.flags.ok = true → t.flags.pollOk = true ∧ t.flags.verifyOk = true) ∧
        (t.flags.ok = false → t.regs.attempts.toNat = k ∧ ¬ (t.flags.pollOk = true ∧ t.flags.verifyOk = true)))

/-- R199 (f), (h), (i): a valid page whose bytes a protected, idle, defined device already holds succeeds at the first
attempt, in acceptance and `(3 + 4n) + (1 + 5) + 7n` steps, though nothing is written. -/
def Obligations.ProtectedMatchingPageSucceeds : Prop :=
  ∀ (s : State) (n : Nat), s.cfg.wf → s.flags.busy = false → s.linesIdle → s.dev.ready → s.dev.prot = true →
    s.regs.lenOp.toNat = n → 1 ≤ n → n ≤ s.cfg.pageSize → s.regs.addrOp.toNat + n - 1 ≤ s.cfg.maxAddr →
    (∀ j, j < n → s.dev.stored (s.regs.addrOp.toNat + j) = s.pageByte j) →
    ∃ t, execTimes (1 + ((3 + 4 * n) + (1 + 5) + 7 * n)) .writepage s = .next t ∧
      t.flags = { s.flags with ok := true, pollOk := true, verifyOk := true, dropped := false } ∧ t.seq.ph = .idle ∧
      t.regs = { s.regs with attempts := 1, rdata := s.pageByte (n - 1) } ∧
      t.bus = { s.bus with
        aLatch := s.regs.addrOp.toNat + n - 1, dLatch := s.pageByte (n - 1), dir := false } ∧
      t.dev.mem = s.dev.mem ∧ t.dev.prot = true ∧ t.dev.busy = false

/-! ### The protection sequencer -/

/-- R222, R223, R224: `unlock` from idle lines: acceptance, 27 pin events and `SETTLE_TICKS` ticks; the six pulses of its
table in one window; an idle device is then unprotected. -/
def Obligations.UnlockSendsSixPulses : Prop :=
  ∀ s : State, s.cfg.wf → s.flags.busy = false → s.linesIdle →
    ∃ t, execTimes (1 + (27 + s.cfg.settleTicks)) .unlock s = .next t ∧
      t.trace = s.trace ++ windowEvents [(0x5555, 0xAA), (0x2AAA, 0x55), (0x5555, 0x80), (0x5555, 0xAA),
        (0x2AAA, 0x55), (0x5555, 0x20)] ++ List.replicate s.cfg.settleTicks .settle ∧
      t.bus = { s.bus with aLatch := 0x5555, dLatch := 0x20, dir := true } ∧
      t.flags = { s.flags with ok := true, dropped := false } ∧ t.seq.ph = .idle ∧ t.regs = s.regs ∧
      t.dev.mem = s.dev.mem ∧
      (s.dev.busy = false → t.dev.prot = false ∧ t.dev.busy = false ∧ t.dev.undef = s.dev.undef)

/-- R222, R225, R224: `lock` from idle lines: acceptance, 15 pin events and `SETTLE_TICKS` ticks; the three pulses of its
table in one window; an idle device is then protected. -/
def Obligations.LockSendsThreePulses : Prop :=
  ∀ s : State, s.cfg.wf → s.flags.busy = false → s.linesIdle →
    ∃ t, execTimes (1 + (15 + s.cfg.settleTicks)) .lock s = .next t ∧
      t.trace = s.trace ++ windowEvents [(0x5555, 0xAA), (0x2AAA, 0x55), (0x5555, 0xA0)] ++
        List.replicate s.cfg.settleTicks .settle ∧
      t.bus = { s.bus with aLatch := 0x5555, dLatch := 0xA0, dir := true } ∧
      t.flags = { s.flags with ok := true, dropped := false } ∧ t.seq.ph = .idle ∧ t.regs = s.regs ∧
      t.dev.mem = s.dev.mem ∧
      (s.dev.busy = false → t.dev.prot = true ∧ t.dev.busy = false ∧ t.dev.undef = s.dev.undef)

/-! ### The bulk operations -/

/-- R241, R242: `eraseAll` fills `PAGE_BUF` with zeros at acceptance and starts its first block, at address 0. -/
def Obligations.EraseAllStarts : Prop :=
  ∀ s : State, s.cfg.wf → s.flags.busy = false →
    exec .eraseall s = .next { s with
      regs := { s.regs with attempts := 0, pageBuf := List.replicate s.cfg.pageSize 0 }
      flags := { s.flags with busy := true, ok := false, dropped := false }
      seq := { s.seq with
        op := 0x50, ph := .wp1, retP := .afterBlock, allOk := true, pgBase := 0,
        pgLen := min s.cfg.pageSize (s.cfg.maxAddr + 1) } }

/-- R240, R241, R242, D27: when the page call of a block of `eraseAll` returns, verified (`ok`) or ended by the cap, `ALL_OK` keeps
whether all were verified, and the walk goes on with the next aligned block, the last one possibly short; after the last
block the command finishes with `OK = ALL_OK`. -/
def Obligations.EraseAllWalks : Prop :=
  ∀ (s : State) (ok : Bool), s.cfg.wf → s.flags.busy = true → s.seq.ph = .rs6 → s.seq.retT = .check →
    s.seq.retP = .afterBlock →
    (ok = true → s.regs.rdata = s.pageByte s.seq.idx ∧ s.seq.idx + 1 = s.seq.pgLen ∧ s.flags.pollOk = true) →
    (ok = false → (∃ k, s.cfg.retryCap = some k ∧ k ≤ s.regs.attempts.toNat) ∧
      (s.regs.rdata ≠ s.pageByte s.seq.idx ∨ (s.seq.idx + 1 = s.seq.pgLen ∧ s.flags.pollOk = false))) →
    ∃ t, exec .eraseall s = .next t ∧ t.flags.verifyOk = decide (s.regs.rdata = s.pageByte s.seq.idx) ∧
      t.flags.pollOk = s.flags.pollOk ∧ t.flags.dropped = s.flags.dropped ∧
      t.seq.allOk = (s.seq.allOk && ok) ∧ t.seq.pgBase = s.seq.pgBase + s.cfg.pageSize ∧
      (s.seq.pgBase + s.cfg.pageSize ≤ s.cfg.maxAddr →
        t.flags.busy = true ∧ t.seq.ph = .wp1 ∧ t.seq.retP = .afterBlock ∧ t.regs = { s.regs with attempts := 0 } ∧
        t.seq.pgLen = min s.cfg.pageSize (s.cfg.maxAddr + 1 - (s.seq.pgBase + s.cfg.pageSize))) ∧
      (s.cfg.maxAddr < s.seq.pgBase + s.cfg.pageSize →
        t.flags.busy = false ∧ t.seq.ph = .idle ∧ t.flags.ok = (s.seq.allOk && ok) ∧ t.regs = s.regs)

/-- R288 (which the spec derives): with `RETRY_CAP = K` (within the 32 bits of `ATTEMPTS`) `eraseAll` finishes whatever the device
answers, not before its step `m`, behind the last block, with `OK = ALL_OK`, nothing dropped, and at most `K` attempts at
its last page. -/
def Obligations.CappedEraseAllFinishes : Prop :=
  ∀ (s : State) (k : Nat), s.cfg.wf → s.flags.busy = false → s.cfg.retryCap = some k → k < 2 ^ 32 →
    ∃ m t, execTimes m .eraseall s = .next t ∧ 1 ≤ m ∧
      (∀ j u, 1 ≤ j → j < m → execTimes j .eraseall s = .next u → u.flags.busy = true) ∧
      t.flags.busy = false ∧ t.seq.ph = .idle ∧ t.seq.op = 0x50 ∧ t.flags.ok = t.seq.allOk ∧
      t.flags.dropped = false ∧ s.cfg.maxAddr < t.seq.pgBase ∧
      t.regs.pageBuf = List.replicate s.cfg.pageSize 0 ∧ 1 ≤ t.regs.attempts.toNat ∧ t.regs.attempts.toNat ≤ k

/-- R246, R250: acceptance of `loadStream`: with `totalLength = 0` it finishes there with `OK = 1`, else it waits for bytes. -/
def Obligations.LoadStreamStarts : Prop :=
  ∀ s : State, s.flags.busy = false →
    (s.regs.lenOp = 0 → ∃ t, exec .loadstream s = .next t ∧
      t.flags = { s.flags with ok := true, dropped := false } ∧ t.seq.ph = .idle ∧ t.regs = s.regs ∧
      t.port = s.port ∧ t.trace = s.trace) ∧
    (s.regs.lenOp ≠ 0 → exec .loadstream s = .next { s with
      flags := { s.flags with busy := true, ok := false, dropped := false }
      seq := { s.seq with
        op := 0x51, ph := .ls0, pgBase := s.regs.addrOp.toNat, remain := s.regs.lenOp.toNat, pgLen := 0,
        allOk := true, sEnded := false } })

/-- R246, R248: at `LS0` an offered byte is consumed once and goes to `PAGE_BUF[PG_LEN]`; with the chunk full or the stream
taken the chunk goes to the page writer, else the next byte is awaited. No pin changes. That the offer ends with the step
is the model's reading of "the producer then moves to its next byte" (log 22). -/
def Obligations.LoadStreamTakesByte : Prop :=
  ∀ s : State, s.flags.busy = true → s.seq.ph = .ls0 → s.port.valid = true → 0 < s.seq.remain →
    ∃ t, exec .loadstream s = .next t ∧ t.port = { s.port with valid := false } ∧ t.bus = s.bus ∧ t.trace = s.trace ∧
      t.regs.pageBuf = s.regs.pageBuf.set s.seq.pgLen s.port.data ∧ t.seq.remain = s.seq.remain - 1 ∧
      (s.seq.pgLen + 1 ≠ s.cfg.pageSize → s.seq.remain ≠ 1 →
        t.flags = s.flags ∧ t.seq = { s.seq with pgLen := s.seq.pgLen + 1, remain := s.seq.remain - 1 }) ∧
      (s.seq.pgLen + 1 = s.cfg.pageSize ∨ s.seq.remain = 1 → s.seq.pgLen + 1 ≤ s.cfg.pageSize →
        s.seq.pgBase + s.seq.pgLen ≤ s.cfg.maxAddr →
        t.flags = s.flags ∧ t.seq.ph = .wp1 ∧ t.seq.retP = .afterChunk ∧ t.seq.pgLen = s.seq.pgLen + 1 ∧
        t.seq.pgBase = s.seq.pgBase ∧ t.regs.attempts = 0)

/-- R246, R248, R249: at `LS0` with no byte offered, the end mark sends the bytes gathered or finishes with `OK = ALL_OK`;
with neither the sequencer waits and nothing changes. R248, R110: the producer's moves, also under the host's wait: it drives
its pins; or it delivers the source of a call, a byte at a time, and then the end mark, and to no other command (log 29). -/
def Obligations.LoadStreamEndsOrWaits : Prop :=
  (∀ s : State, s.flags.busy = true → s.seq.ph = .ls0 → s.port.valid = false →
    (s.port.ended = false → exec .loadstream s = .next s) ∧
    (s.port.ended = true → s.seq.pgLen = 0 →
      ∃ t, exec .loadstream s = .next t ∧ t.flags = { s.flags with busy := false, ok := s.seq.allOk } ∧
        t.seq.ph = .idle ∧ t.regs = s.regs ∧ t.bus = s.bus ∧ t.trace = s.trace) ∧
    (s.port.ended = true → 1 ≤ s.seq.pgLen → s.seq.pgLen ≤ s.cfg.pageSize →
      s.seq.pgBase + s.seq.pgLen - 1 ≤ s.cfg.maxAddr →
      ∃ t, exec .loadstream s = .next t ∧ t.flags = s.flags ∧ t.regs = { s.regs with attempts := 0 } ∧
        t.seq = { s.seq with ph := .wp1, retP := .afterChunk, sEnded := true } ∧ t.bus = s.bus ∧ t.trace = s.trace)) ∧
  (∀ (s : State) (valid ended : Bool) (data : Byte) (rest : List Turn), s.cfg.wf →
    (s.inputs = .producer valid ended data :: rest →
      step s = .next { s with inputs := rest, port := ⟨valid, ended, data⟩ }) ∧
    (s.flags.busy = true → s.inputs = .hostAwait :: .producer valid ended data :: rest →
      step s = .next { s with inputs := .hostAwait :: rest, port := ⟨valid, ended, data⟩ })) ∧
  (∀ (s : State) (source : List Byte) (rest : List Turn), s.cfg.wf → s.inputs = .deliver source :: rest →
    (∀ b bytes, s.flags.busy = true → decode s.seq.op = .ok .loadstream → s.port.valid = false → source = b :: bytes →
      step s = .next { s with inputs := .deliver bytes :: rest, port := ⟨true, false, b⟩ }) ∧
    (s.flags.busy = true → decode s.seq.op = .ok .loadstream → s.port.valid = false → source = [] → s.port.ended = false →
      step s = .next { s with inputs := .deliver [] :: rest, port := ⟨false, true, s.port.data⟩ }) ∧
    (s.flags.busy = true → s.port.valid = true ∨ (source = [] ∧ s.port.ended = true) → rest = [] ∨ rest = [.hostAwait] →
      decode s.seq.op = .ok .loadstream → step s = exec .loadstream s) ∧
    (∀ i, s.flags.busy = true → decode s.seq.op = .ok i → i ≠ .loadstream → rest = [] ∨ rest = [.hostAwait] →
      step s = exec i s) ∧
    (s.flags.busy = false → step s = .next { s with inputs := rest, port := ⟨false, false, 0⟩ }))

/-- R250, R249 (c): a chunk that would pass `MAX_ADDR` is dropped whole, be it sent by its last byte or by the end mark: no
event, `DROPPED = 1`, `ALL_OK` cleared; the stream goes on behind it, or the command finishes with `OK = 0`. -/
def Obligations.LoadStreamDropsCrossingChunk : Prop :=
  ∀ s : State, s.flags.busy = true → s.seq.ph = .ls0 →
    (s.port.valid = true → 0 < s.seq.remain → s.seq.pgLen + 1 = s.cfg.pageSize ∨ s.seq.remain = 1 →
      s.cfg.maxAddr < s.seq.pgBase + s.seq.pgLen →
      ∃ t, exec .loadstream s = .next t ∧ t.flags.dropped = true ∧ t.seq.allOk = false ∧ t.bus = s.bus ∧
        t.dev = s.dev ∧ t.trace = s.trace ∧ t.regs.attempts = s.regs.attempts ∧
        t.seq.pgBase = s.seq.pgBase + (s.seq.pgLen + 1) ∧ t.seq.pgLen = 0 ∧
        (s.seq.remain ≠ 1 → s.seq.sEnded = false → t.flags.busy = true ∧ t.seq.ph = .ls0) ∧
        (s.seq.remain = 1 → t.flags.busy = false ∧ t.flags.ok = false ∧ t.seq.ph = .idle)) ∧
    (s.port.valid = false → s.port.ended = true → 1 ≤ s.seq.pgLen →
      s.cfg.maxAddr < s.seq.pgBase + s.seq.pgLen - 1 →
      ∃ t, exec .loadstream s = .next t ∧
        t.flags = { s.flags with busy := false, ok := false, dropped := true } ∧ t.seq.ph = .idle ∧
        t.seq.allOk = false ∧ t.bus = s.bus ∧ t.dev = s.dev ∧ t.trace = s.trace ∧ t.regs = s.regs ∧
        t.seq.pgBase = s.seq.pgBase + s.seq.pgLen ∧ t.seq.pgLen = 0)

/-- R240, R246, R247, D27: when the page call of a chunk of `loadStream` returns, verified (`ok`) or ended by the cap, `ALL_OK` keeps
whether all were verified, and the stream goes on behind the chunk, or, taken or ended, the command finishes with `OK = ALL_OK`. -/
def Obligations.LoadStreamChunkDone : Prop :=
  ∀ (s : State) (ok : Bool), s.flags.busy = true → s.seq.ph = .rs6 → s.seq.retT = .check →
    s.seq.retP = .afterChunk →
    (ok = true → s.regs.rdata = s.pageByte s.seq.idx ∧ s.seq.idx + 1 = s.seq.pgLen ∧ s.flags.pollOk = true) →
    (ok = false → (∃ k, s.cfg.retryCap = some k ∧ k ≤ s.regs.attempts.toNat) ∧
      (s.regs.rdata ≠ s.pageByte s.seq.idx ∨ (s.seq.idx + 1 = s.seq.pgLen ∧ s.flags.pollOk = false))) →
    ∃ t, exec .loadstream s = .next t ∧ t.flags.verifyOk = decide (s.regs.rdata = s.pageByte s.seq.idx) ∧
      t.flags.pollOk = s.flags.pollOk ∧ t.flags.dropped = s.flags.dropped ∧ t.regs = s.regs ∧
      t.seq.pgBase = s.seq.pgBase + s.seq.pgLen ∧ t.seq.pgLen = 0 ∧ t.seq.allOk = (s.seq.allOk && ok) ∧
      (s.seq.remain = 0 ∨ s.seq.sEnded = true →
        t.flags.busy = false ∧ t.flags.ok = (s.seq.allOk && ok) ∧ t.seq.ph = .idle) ∧
      (s.seq.remain ≠ 0 → s.seq.sEnded = false → t.flags.busy = true ∧ t.seq.ph = .ls0)

/-! ### Invariants -/

/-- The invariant holds of the machine right after reset, with the configuration and the device the model chose (logs 1, 7). -/
def Obligations.InvHoldsAtReset : Prop := State.reset.Inv

/-- From every state with the invariant the machine goes on, and its next state has it again: the configuration admissible,
`A_LATCH` and every address the device holds in `[0, MAX_ADDR]` (R21, R61), the array in canonical form, the bytes of a
read-back so far read equal, on the trace (R196), the
working registers `IDX`, `POLL_CNT` and `SETTLE_CNT` in the ranges their labels need, and a position the accepted command can
hold. -/
def Obligations.StepGoesOnAndKeepsInv : Prop :=
  ∀ s : State, s.Inv → ∃ t, step s = .next t ∧ t.Inv

/-- R25, R26, R311 (which the spec derives from its step lists): a composite command whose lines are as its label says keeps them so with every sequencer step: it
never has write-enable and output-enable together, never drives the bus against the device, and ends with idle lines. -/
def Obligations.CompositeKeepsDiscipline : Prop :=
  (∀ (i : Instr) (s t : State), i.composite = true → s.flags.busy = false → s.linesIdle → exec i s = .next t →
    t.linesIdle ∧ t.disciplined) ∧
  (∀ (i : Instr) (s t : State), i.composite = true → s.flags.busy = true → s.disciplined → exec i s = .next t →
    t.disciplined ∧ (t.flags.busy = false → t.linesIdle) ∧
    ¬ (t.bus.we = true ∧ t.bus.oe = true) ∧ ¬ (t.bus.dir = true ∧ t.bus.ce = true ∧ t.bus.oe = true))
end

