-- ==== Sys2Proof/Laws/Device.lean ====
section
/-! SUPPORT. Laws of the device: the array's canonical form, read after write, what a reaction to a pin change can do. -/

namespace Sys2Proof.Machine

/-! ### The array -/

theorem Memory.read?_write_same (m : Memory) (a : Nat) (v : Byte) : Memory.read? (Memory.write m a v) a = some v := by
  induction m with
  | nil => simp [Memory.write, Memory.read?]
  | cons c rest ih =>
    obtain ⟨k, b⟩ := c
    rcases Nat.lt_trichotomy a k with h | h | h
    · simp [Memory.write, Memory.read?, h]
    · simp [Memory.write, Memory.read?, h]
    · simp [Memory.write, Memory.read?, Nat.not_lt_of_gt h, Nat.ne_of_gt h, Nat.ne_of_lt h, ih]

theorem Memory.read?_write_other (m : Memory) {a x : Nat} (v : Byte) (h : x ≠ a) :
    Memory.read? (Memory.write m a v) x = Memory.read? m x := by
  induction m with
  | nil => simp [Memory.write, Memory.read?, h.symm]
  | cons c rest ih =>
    obtain ⟨k, b⟩ := c
    rcases Nat.lt_trichotomy a k with hk | hk | hk
    · simp [Memory.write, Memory.read?, hk, h.symm]
    · subst hk; simp [Memory.write, Memory.read?, h.symm]
    · simp [Memory.write, Memory.read?, Nat.not_lt_of_gt hk, Nat.ne_of_gt hk, ih]

/-- A write adds no address but its own. -/
theorem Memory.mem_write {m : Memory} {a : Nat} {v : Byte} {c : Host.Cell} (h : c ∈ Memory.write m a v) :
    c.1 = a ∨ c ∈ m := by
  induction m with
  | nil => simp [Memory.write] at h; simp [h]
  | cons d rest ih =>
    obtain ⟨k, b⟩ := d
    rcases Nat.lt_trichotomy a k with hk | hk | hk
    · simp [Memory.write, hk] at h; rcases h with h | h | h <;> simp [h]
    · simp [Memory.write, hk] at h; rcases h with h | h <;> simp [h, hk]
    · simp [Memory.write, Nat.not_lt_of_gt hk, Nat.ne_of_gt hk] at h
      rcases h with h | h
      · simp [h]
      · rcases ih h with h' | h' <;> simp [h']

/-- A write keeps the canonical form. -/
theorem Memory.write_wf {m : Memory} (h : Memory.wf m) (a : Nat) (v : Byte) : Memory.wf (Memory.write m a v) := by
  induction m with
  | nil => simp [Memory.write, Memory.wf]
  | cons c rest ih =>
    obtain ⟨k, b⟩ := c
    rw [Memory.wf, List.pairwise_cons] at h
    rcases Nat.lt_trichotomy a k with hk | hk | hk
    · simp only [Memory.write, hk, if_true, Memory.wf, List.pairwise_cons]
      refine ⟨fun d hd => ?_, h⟩
      rcases List.mem_cons.1 hd with rfl | hd
      · exact hk
      · exact Nat.lt_trans hk (h.1 d hd)
    · subst hk
      simpa only [Memory.write, Nat.lt_irrefl, if_true, if_false, Memory.wf, List.pairwise_cons] using h
    · simp only [Memory.write, Nat.not_lt_of_gt hk, Nat.ne_of_gt hk, if_false, Memory.wf, List.pairwise_cons]
      refine ⟨fun d hd => ?_, ih h.2⟩
      rcases Memory.mem_write hd with hd | hd
      · rw [hd]; exact hk
      · exact h.1 d hd

/-- Storing a list of pairs keeps the canonical form. -/
theorem Memory.writeAll_wf {m : Memory} (h : Memory.wf m) (cells : List Host.Cell) :
    Memory.wf (Memory.writeAll m cells) := by
  induction cells generalizing m with
  | nil => exact h
  | cons c rest ih => exact ih (Memory.write_wf h c.1 c.2)

/-- Storing a list of pairs adds no address but theirs. -/
theorem Memory.mem_writeAll {m : Memory} {cells : List Host.Cell} {d : Host.Cell} (h : d ∈ Memory.writeAll m cells) :
    (∃ c ∈ cells, d.1 = c.1) ∨ d ∈ m := by
  induction cells generalizing m with
  | nil => exact .inr h
  | cons c rest ih =>
    rcases ih h with ⟨e, he, hde⟩ | h
    · exact .inl ⟨e, by simp [he], hde⟩
    · rcases Memory.mem_write h with h | h
      · exact .inl ⟨c, by simp, h⟩
      · exact .inr h

/-- After storing a list of pairs an address reads as the last pair for it, else as before. -/
theorem Memory.read?_writeAll (m : Memory) (cells : List Host.Cell) (a : Nat) :
    Memory.read? (Memory.writeAll m cells) a =
      match cells.reverse.find? (fun c => c.1 == a) with
      | some c => some c.2
      | none => Memory.read? m a := by
  induction cells generalizing m with
  | nil => rfl
  | cons c rest ih =>
    have step : Memory.writeAll m (c :: rest) = Memory.writeAll (Memory.write m c.1 c.2) rest := rfl
    rw [step, ih, List.reverse_cons, List.find?_append]
    cases hf : rest.reverse.find? (fun c => c.1 == a) with
    | some d => rfl
    | none =>
      by_cases hc : c.1 = a
      · subst hc; simp [Memory.read?_write_same]
      · simp [hc, Memory.read?_write_other m c.2 (Ne.symm hc)]

/-! ### What a reaction can do -/

/-- What no reaction to a pin change touches: the array, the kind of device, and whether it stays busy for ever. -/
structure Device.Kept (d e : Device) : Prop where
  mem : e.mem = d.mem
  kind : e.kind = d.kind
  hung : e.hung = d.hung

theorem Device.Kept.refl (d : Device) : d.Kept d := ⟨rfl, rfl, rfl⟩

theorem Device.Kept.trans {d e f : Device} (h : d.Kept e) (g : e.Kept f) : d.Kept f :=
  ⟨g.mem.trans h.mem, g.kind.trans h.kind, g.hung.trans h.hung⟩

theorem Device.openWindow_kept (d : Device) : d.Kept d.openWindow := ⟨rfl, rfl, rfl⟩

theorem Device.watch_kept (d : Device) (b : Bus) : d.Kept (d.watch b) := ⟨rfl, rfl, rfl⟩

theorem Device.latch_kept (d : Device) (b : Bus) (n : Nat) : d.Kept (d.latch b n).1 := by
  unfold Device.latch
  split
  · exact ⟨rfl, rfl, rfl⟩
  · split <;> exact ⟨rfl, rfl, rfl⟩

theorem Device.cutPulse_kept (d : Device) (b : Bus) (n : Nat) : d.Kept (d.cutPulse b n).1 := by
  unfold Device.cutPulse
  split
  · dsimp only
    split
    · exact d.latch_kept b _
    · exact .refl d
  · exact .refl d

theorem Device.recognise_kept (d : Device) (on : Bool) (n : Nat) : d.Kept (d.recognise on n).1 := by
  unfold Device.recognise
  split <;> exact ⟨rfl, rfl, rfl⟩

theorem Device.closeWindow_kept (d : Device) (p n : Nat) : d.Kept (d.closeWindow p n).1 := by
  have drop : ∀ e : Device, e.Kept { e with pend := [] } := fun e => ⟨rfl, rfl, rfl⟩
  unfold Device.closeWindow
  refine Device.Kept.trans ?_ (drop _)
  repeat' split
  all_goals first
    | exact .refl d
    | exact d.recognise_kept _ n
    | exact ⟨rfl, rfl, rfl⟩

/-- R74: no reaction to a pin change touches the array. -/
theorem Device.react_kept (d : Device) (p : Nat) (b c : Bus) (n : Nat) : d.Kept (d.react p b c n).1 := by
  unfold Device.react
  refine Device.Kept.trans ?_ (Device.watch_kept _ c)
  have h1 : d.Kept (if !b.ce && c.ce then d.openWindow else d) := by
    split
    · exact d.openWindow_kept
    · exact .refl d
  generalize (if !b.ce && c.ce then d.openWindow else d) = e at h1
  have h2 : ∀ x : Reacted, (x = if b.ce && b.we && !c.we then e.latch b n else (e, n)) → d.Kept x.1 := by
    rintro x rfl
    split
    · exact h1.trans (e.latch_kept b n)
    · exact h1
  generalize hx : (if b.ce && b.we && !c.we then e.latch b n else (e, n)) = x
  have h3 := h2 x hx.symm
  dsimp only
  split
  · exact (h3.trans (x.1.cutPulse_kept b x.2)).trans (Device.closeWindow_kept _ p _)
  · exact h3

theorem Device.onReset_kept (d : Device) (p : Nat) (b : Bus) (n : Nat) : d.Kept (d.onReset p b n).1 := by
  unfold Device.onReset
  split
  · have h := (d.cutPulse_kept b n).trans (Device.closeWindow_kept (d.cutPulse b n).1 p (d.cutPulse b n).2)
    dsimp only
    split
    · exact ⟨h.mem, h.kind, h.hung⟩
    · exact h
  · exact .refl d

/-! ### Addresses stay in the array -/

theorem Device.latch_inArray {d : Device} {m : Nat} (h : d.inArray m) (b : Bus) (n : Nat) (hb : b.aLatch ≤ m) :
    (d.latch b n).1.inArray m := by
  obtain ⟨hm, hp, hc, hl⟩ := h
  unfold Device.latch
  split
  · exact ⟨hm, hp, hc, hl⟩
  · split
    · exact ⟨hm, hp, hc, hl⟩
    · refine ⟨hm, fun c h => ?_, hc, fun c h => ?_⟩
      · rcases List.mem_append.1 h with h | h
        · exact hp c h
        · rw [List.mem_singleton.1 h]; exact hb
      · cases h; exact hb

theorem Device.cutPulse_inArray {d : Device} {m : Nat} (h : d.inArray m) (b : Bus) (n : Nat) (hb : b.aLatch ≤ m) :
    (d.cutPulse b n).1.inArray m := by
  unfold Device.cutPulse
  split
  · dsimp only
    split
    · exact Device.latch_inArray h b _ hb
    · exact h
  · exact h

theorem Device.recognise_inArray {d : Device} {m : Nat} (h : d.inArray m) (on : Bool) (n : Nat) :
    (d.recognise on n).1.inArray m := by
  unfold Device.recognise
  split <;> exact h

theorem Device.closeWindow_inArray {d : Device} {m : Nat} (h : d.inArray m) (p n : Nat) :
    (d.closeWindow p n).1.inArray m := by
  have drop : ∀ e : Device, e.inArray m → Device.inArray { e with pend := [] } m :=
    fun e he => ⟨he.1, by simp, he.2.2⟩
  unfold Device.closeWindow
  refine drop _ ?_
  repeat' split
  all_goals first
    | exact h
    | exact Device.recognise_inArray h _ n
    | exact ⟨h.1, h.2.1, h.2.1, h.2.2.2⟩

/-- R61: a reaction leaves every address the device holds in the array. -/
theorem Device.react_inArray {d : Device} {m : Nat} (h : d.inArray m) (p : Nat) (b c : Bus) (n : Nat)
    (hb : b.aLatch ≤ m) : (d.react p b c n).1.inArray m := by
  unfold Device.react
  have hwatch : ∀ e : Device, e.inArray m → (e.watch c).inArray m := fun e he => he
  refine hwatch _ ?_
  have h1 : (if !b.ce && c.ce then d.openWindow else d).inArray m := by
    split
    · exact ⟨h.1, by simp [Device.openWindow], h.2.2⟩
    · exact h
  generalize (if !b.ce && c.ce then d.openWindow else d) = e at h1
  have h2 : (if b.ce && b.we && !c.we then e.latch b n else (e, n)).1.inArray m := by
    split
    · exact Device.latch_inArray h1 b n hb
    · exact h1
  generalize (if b.ce && b.we && !c.we then e.latch b n else (e, n)) = x at h2
  dsimp only
  split
  · exact Device.closeWindow_inArray (Device.cutPulse_inArray h2 b x.2 hb) p _
  · exact h2

theorem Device.onReset_inArray {d : Device} {m : Nat} (h : d.inArray m) (p : Nat) (b : Bus) (n : Nat)
    (hb : b.aLatch ≤ m) : (d.onReset p b n).1.inArray m := by
  unfold Device.onReset
  split
  · have h' := Device.closeWindow_inArray (Device.cutPulse_inArray h b n hb) p (d.cutPulse b n).2
    dsimp only
    split
    · exact h'
    · exact h'
  · exact h

theorem Device.commit_inArray {d : Device} {m : Nat} (h : d.inArray m) : d.commit.inArray m := by
  obtain ⟨hm, hp, hc, hl⟩ := h
  unfold Device.commit
  split
  · refine ⟨fun c h => ?_, hp, by simp, hl⟩
    rcases Memory.mem_writeAll h with ⟨e, he, h⟩ | h
    · rw [h]; exact hc e he
    · exact hm c h
  · exact ⟨hm, hp, hc, hl⟩

theorem Device.fail_inArray {d : Device} {m : Nat} (h : d.inArray m) (keep : List Bool) : (d.fail keep).inArray m := by
  obtain ⟨hm, hp, hc, hl⟩ := h
  unfold Device.fail
  split
  · refine ⟨fun c h => ?_, hp, by simp, hl⟩
    rcases Memory.mem_writeAll h with ⟨e, he, h⟩ | h
    · rw [h]
      obtain ⟨x, hx, hxe⟩ := List.mem_filterMap.1 he
      split at hxe
      · cases hxe; exact hc _ (List.of_mem_zip hx).1
      · cases hxe
    · exact hm c h
  · exact ⟨hm, hp, hc, hl⟩

theorem Device.hang_inArray {d : Device} {m : Nat} (h : d.inArray m) : d.hang.inArray m := by
  unfold Device.hang
  split <;> exact h

theorem Device.commit_wf {d : Device} (h : Memory.wf d.mem) : Memory.wf d.commit.mem := by
  unfold Device.commit
  split
  · exact Memory.writeAll_wf h _
  · exact h

theorem Device.fail_wf {d : Device} (h : Memory.wf d.mem) (keep : List Bool) : Memory.wf (d.fail keep).mem := by
  unfold Device.fail
  split
  · exact Memory.writeAll_wf h _
  · exact h

theorem Device.hang_wf {d : Device} (h : Memory.wf d.mem) : Memory.wf d.hang.mem := by
  unfold Device.hang
  split <;> exact h

end Sys2Proof.Machine
end

