-- ==== Sys2Proof/Laws/State.lean ====
section
/-! SUPPORT. One lemma per field per named update of State. -/

namespace Sys2Proof.Machine

variable (s : State)

/-! ### `goto` -/

@[simp] theorem goto_cfg (l : Label) : (s.goto l).cfg = s.cfg := rfl
@[simp] theorem goto_bus (l : Label) : (s.goto l).bus = s.bus := rfl
@[simp] theorem goto_regs (l : Label) : (s.goto l).regs = s.regs := rfl
@[simp] theorem goto_flags (l : Label) : (s.goto l).flags = s.flags := rfl
@[simp] theorem goto_seq (l : Label) : (s.goto l).seq = { s.seq with ph := l } := rfl
@[simp] theorem goto_dev (l : Label) : (s.goto l).dev = s.dev := rfl
@[simp] theorem goto_port (l : Label) : (s.goto l).port = s.port := rfl
@[simp] theorem goto_inputs (l : Label) : (s.goto l).inputs = s.inputs := rfl
@[simp] theorem goto_answers (l : Label) : (s.goto l).answers = s.answers := rfl
@[simp] theorem goto_trace (l : Label) : (s.goto l).trace = s.trace := rfl
@[simp] theorem goto_draws (l : Label) : (s.goto l).draws = s.draws := rfl

/-! ### `accept` -/

@[simp] theorem accept_cfg (i : Instr) : (s.accept i).cfg = s.cfg := rfl
@[simp] theorem accept_bus (i : Instr) : (s.accept i).bus = s.bus := rfl
@[simp] theorem accept_regs (i : Instr) : (s.accept i).regs = s.regs := rfl
@[simp] theorem accept_flags (i : Instr) : (s.accept i).flags = { s.flags with busy := true, ok := false, dropped := false } := rfl
@[simp] theorem accept_seq (i : Instr) : (s.accept i).seq = { s.seq with op := encode i } := rfl
@[simp] theorem accept_dev (i : Instr) : (s.accept i).dev = s.dev := rfl
@[simp] theorem accept_port (i : Instr) : (s.accept i).port = s.port := rfl
@[simp] theorem accept_inputs (i : Instr) : (s.accept i).inputs = s.inputs := rfl
@[simp] theorem accept_answers (i : Instr) : (s.accept i).answers = s.answers := rfl
@[simp] theorem accept_trace (i : Instr) : (s.accept i).trace = s.trace := rfl
@[simp] theorem accept_draws (i : Instr) : (s.accept i).draws = s.draws := rfl

/-! ### `finish` -/

@[simp] theorem finish_cfg (ok : Bool) : (s.finish ok).cfg = s.cfg := rfl
@[simp] theorem finish_bus (ok : Bool) : (s.finish ok).bus = s.bus := rfl
@[simp] theorem finish_regs (ok : Bool) : (s.finish ok).regs = s.regs := rfl
@[simp] theorem finish_flags (ok : Bool) : (s.finish ok).flags = { s.flags with busy := false, ok := ok } := rfl
@[simp] theorem finish_seq (ok : Bool) : (s.finish ok).seq = { s.seq with ph := .idle } := rfl
@[simp] theorem finish_dev (ok : Bool) : (s.finish ok).dev = s.dev := rfl
@[simp] theorem finish_port (ok : Bool) : (s.finish ok).port = s.port := rfl
@[simp] theorem finish_inputs (ok : Bool) : (s.finish ok).inputs = s.inputs := rfl
@[simp] theorem finish_answers (ok : Bool) : (s.finish ok).answers = s.answers := rfl
@[simp] theorem finish_trace (ok : Bool) : (s.finish ok).trace = s.trace := rfl
@[simp] theorem finish_draws (ok : Bool) : (s.finish ok).draws = s.draws := rfl

/-! ### `setPollOk` -/

@[simp] theorem setPollOk_cfg (ok : Bool) : (s.setPollOk ok).cfg = s.cfg := rfl
@[simp] theorem setPollOk_bus (ok : Bool) : (s.setPollOk ok).bus = s.bus := rfl
@[simp] theorem setPollOk_regs (ok : Bool) : (s.setPollOk ok).regs = s.regs := rfl
@[simp] theorem setPollOk_flags (ok : Bool) : (s.setPollOk ok).flags = { s.flags with pollOk := ok } := rfl
@[simp] theorem setPollOk_seq (ok : Bool) : (s.setPollOk ok).seq = s.seq := rfl
@[simp] theorem setPollOk_dev (ok : Bool) : (s.setPollOk ok).dev = s.dev := rfl
@[simp] theorem setPollOk_port (ok : Bool) : (s.setPollOk ok).port = s.port := rfl
@[simp] theorem setPollOk_inputs (ok : Bool) : (s.setPollOk ok).inputs = s.inputs := rfl
@[simp] theorem setPollOk_answers (ok : Bool) : (s.setPollOk ok).answers = s.answers := rfl
@[simp] theorem setPollOk_trace (ok : Bool) : (s.setPollOk ok).trace = s.trace := rfl
@[simp] theorem setPollOk_draws (ok : Bool) : (s.setPollOk ok).draws = s.draws := rfl

/-! ### `setVerifyOk` -/

@[simp] theorem setVerifyOk_cfg (ok : Bool) : (s.setVerifyOk ok).cfg = s.cfg := rfl
@[simp] theorem setVerifyOk_bus (ok : Bool) : (s.setVerifyOk ok).bus = s.bus := rfl
@[simp] theorem setVerifyOk_regs (ok : Bool) : (s.setVerifyOk ok).regs = s.regs := rfl
@[simp] theorem setVerifyOk_flags (ok : Bool) : (s.setVerifyOk ok).flags = { s.flags with verifyOk := ok } := rfl
@[simp] theorem setVerifyOk_seq (ok : Bool) : (s.setVerifyOk ok).seq = s.seq := rfl
@[simp] theorem setVerifyOk_dev (ok : Bool) : (s.setVerifyOk ok).dev = s.dev := rfl
@[simp] theorem setVerifyOk_port (ok : Bool) : (s.setVerifyOk ok).port = s.port := rfl
@[simp] theorem setVerifyOk_inputs (ok : Bool) : (s.setVerifyOk ok).inputs = s.inputs := rfl
@[simp] theorem setVerifyOk_answers (ok : Bool) : (s.setVerifyOk ok).answers = s.answers := rfl
@[simp] theorem setVerifyOk_trace (ok : Bool) : (s.setVerifyOk ok).trace = s.trace := rfl
@[simp] theorem setVerifyOk_draws (ok : Bool) : (s.setVerifyOk ok).draws = s.draws := rfl

/-! ### `setDropped` -/

@[simp] theorem setDropped_cfg : (s.setDropped).cfg = s.cfg := rfl
@[simp] theorem setDropped_bus : (s.setDropped).bus = s.bus := rfl
@[simp] theorem setDropped_regs : (s.setDropped).regs = s.regs := rfl
@[simp] theorem setDropped_flags : (s.setDropped).flags = { s.flags with dropped := true } := rfl
@[simp] theorem setDropped_seq : (s.setDropped).seq = s.seq := rfl
@[simp] theorem setDropped_dev : (s.setDropped).dev = s.dev := rfl
@[simp] theorem setDropped_port : (s.setDropped).port = s.port := rfl
@[simp] theorem setDropped_inputs : (s.setDropped).inputs = s.inputs := rfl
@[simp] theorem setDropped_answers : (s.setDropped).answers = s.answers := rfl
@[simp] theorem setDropped_trace : (s.setDropped).trace = s.trace := rfl
@[simp] theorem setDropped_draws : (s.setDropped).draws = s.draws := rfl

/-! ### `setAddress` -/

@[simp] theorem setAddress_cfg (a : Nat) : (s.setAddress a).cfg = s.cfg := rfl
@[simp] theorem setAddress_bus (a : Nat) : (s.setAddress a).bus = { s.bus with aLatch := clamp s.cfg a } := rfl
@[simp] theorem setAddress_regs (a : Nat) : (s.setAddress a).regs = s.regs := rfl
@[simp] theorem setAddress_flags (a : Nat) : (s.setAddress a).flags = s.flags := rfl
@[simp] theorem setAddress_seq (a : Nat) : (s.setAddress a).seq = s.seq := rfl
@[simp] theorem setAddress_dev (a : Nat) : (s.setAddress a).dev = s.dev := rfl
@[simp] theorem setAddress_port (a : Nat) : (s.setAddress a).port = s.port := rfl
@[simp] theorem setAddress_inputs (a : Nat) : (s.setAddress a).inputs = s.inputs := rfl
@[simp] theorem setAddress_answers (a : Nat) : (s.setAddress a).answers = s.answers := rfl
@[simp] theorem setAddress_trace (a : Nat) : (s.setAddress a).trace = s.trace ++ [.addr (clamp s.cfg a)] := rfl
@[simp] theorem setAddress_draws (a : Nat) : (s.setAddress a).draws = s.draws := rfl

/-! ### `drive` -/

@[simp] theorem drive_cfg (b : Bus) (e : Event) : (s.drive b e).cfg = s.cfg := rfl
@[simp] theorem drive_bus (b : Bus) (e : Event) : (s.drive b e).bus = b := rfl
@[simp] theorem drive_regs (b : Bus) (e : Event) : (s.drive b e).regs = s.regs := rfl
@[simp] theorem drive_flags (b : Bus) (e : Event) : (s.drive b e).flags = s.flags := rfl
@[simp] theorem drive_seq (b : Bus) (e : Event) : (s.drive b e).seq = s.seq := rfl
@[simp] theorem drive_dev (b : Bus) (e : Event) : (s.drive b e).dev = (s.dev.react s.cfg.pageSize s.bus b s.draws).1 := rfl
@[simp] theorem drive_port (b : Bus) (e : Event) : (s.drive b e).port = s.port := rfl
@[simp] theorem drive_inputs (b : Bus) (e : Event) : (s.drive b e).inputs = s.inputs := rfl
@[simp] theorem drive_answers (b : Bus) (e : Event) : (s.drive b e).answers = s.answers := rfl
@[simp] theorem drive_trace (b : Bus) (e : Event) : (s.drive b e).trace = s.trace ++ [e] := rfl
@[simp] theorem drive_draws (b : Bus) (e : Event) : (s.drive b e).draws = (s.dev.react s.cfg.pageSize s.bus b s.draws).2 := rfl

/-! ### `readData` -/

@[simp] theorem readData_cfg : (s.readData).cfg = s.cfg := rfl
@[simp] theorem readData_bus : (s.readData).bus = s.bus := rfl
@[simp] theorem readData_regs : (s.readData).regs = { s.regs with rdata := (s.dev.sample s.bus s.draws).1 } := rfl
@[simp] theorem readData_flags : (s.readData).flags = s.flags := rfl
@[simp] theorem readData_seq : (s.readData).seq = s.seq := rfl
@[simp] theorem readData_dev : (s.readData).dev = s.dev := rfl
@[simp] theorem readData_port : (s.readData).port = s.port := rfl
@[simp] theorem readData_inputs : (s.readData).inputs = s.inputs := rfl
@[simp] theorem readData_answers : (s.readData).answers = s.answers := rfl
@[simp] theorem readData_trace : (s.readData).trace = s.trace ++ [.sample (s.dev.sample s.bus s.draws).1] := rfl
@[simp] theorem readData_draws : (s.readData).draws = (s.dev.sample s.bus s.draws).2 := rfl

/-! ### `setDirection` -/

@[simp] theorem setDirection_cfg (on : Bool) : (s.setDirection on).cfg = s.cfg := rfl
@[simp] theorem setDirection_bus (on : Bool) : (s.setDirection on).bus = { s.bus with dir := on } := rfl
@[simp] theorem setDirection_regs (on : Bool) : (s.setDirection on).regs = s.regs := rfl
@[simp] theorem setDirection_flags (on : Bool) : (s.setDirection on).flags = s.flags := rfl
@[simp] theorem setDirection_seq (on : Bool) : (s.setDirection on).seq = s.seq := rfl
@[simp] theorem setDirection_dev (on : Bool) : (s.setDirection on).dev = (s.dev.react s.cfg.pageSize s.bus { s.bus with dir := on } s.draws).1 := rfl
@[simp] theorem setDirection_port (on : Bool) : (s.setDirection on).port = s.port := rfl
@[simp] theorem setDirection_inputs (on : Bool) : (s.setDirection on).inputs = s.inputs := rfl
@[simp] theorem setDirection_answers (on : Bool) : (s.setDirection on).answers = s.answers := rfl
@[simp] theorem setDirection_trace (on : Bool) : (s.setDirection on).trace = s.trace ++ [.dir on] := rfl
@[simp] theorem setDirection_draws (on : Bool) : (s.setDirection on).draws = (s.dev.react s.cfg.pageSize s.bus { s.bus with dir := on } s.draws).2 := rfl

/-! ### `driveCE` -/

@[simp] theorem driveCE_cfg (on : Bool) : (s.driveCE on).cfg = s.cfg := rfl
@[simp] theorem driveCE_bus (on : Bool) : (s.driveCE on).bus = { s.bus with ce := on } := rfl
@[simp] theorem driveCE_regs (on : Bool) : (s.driveCE on).regs = s.regs := rfl
@[simp] theorem driveCE_flags (on : Bool) : (s.driveCE on).flags = s.flags := rfl
@[simp] theorem driveCE_seq (on : Bool) : (s.driveCE on).seq = s.seq := rfl
@[simp] theorem driveCE_dev (on : Bool) : (s.driveCE on).dev = (s.dev.react s.cfg.pageSize s.bus { s.bus with ce := on } s.draws).1 := rfl
@[simp] theorem driveCE_port (on : Bool) : (s.driveCE on).port = s.port := rfl
@[simp] theorem driveCE_inputs (on : Bool) : (s.driveCE on).inputs = s.inputs := rfl
@[simp] theorem driveCE_answers (on : Bool) : (s.driveCE on).answers = s.answers := rfl
@[simp] theorem driveCE_trace (on : Bool) : (s.driveCE on).trace = s.trace ++ [.ce on] := rfl
@[simp] theorem driveCE_draws (on : Bool) : (s.driveCE on).draws = (s.dev.react s.cfg.pageSize s.bus { s.bus with ce := on } s.draws).2 := rfl

/-! ### `driveWE` -/

@[simp] theorem driveWE_cfg (on : Bool) : (s.driveWE on).cfg = s.cfg := rfl
@[simp] theorem driveWE_bus (on : Bool) : (s.driveWE on).bus = { s.bus with we := on } := rfl
@[simp] theorem driveWE_regs (on : Bool) : (s.driveWE on).regs = s.regs := rfl
@[simp] theorem driveWE_flags (on : Bool) : (s.driveWE on).flags = s.flags := rfl
@[simp] theorem driveWE_seq (on : Bool) : (s.driveWE on).seq = s.seq := rfl
@[simp] theorem driveWE_dev (on : Bool) : (s.driveWE on).dev = (s.dev.react s.cfg.pageSize s.bus { s.bus with we := on } s.draws).1 := rfl
@[simp] theorem driveWE_port (on : Bool) : (s.driveWE on).port = s.port := rfl
@[simp] theorem driveWE_inputs (on : Bool) : (s.driveWE on).inputs = s.inputs := rfl
@[simp] theorem driveWE_answers (on : Bool) : (s.driveWE on).answers = s.answers := rfl
@[simp] theorem driveWE_trace (on : Bool) : (s.driveWE on).trace = s.trace ++ [.we on] := rfl
@[simp] theorem driveWE_draws (on : Bool) : (s.driveWE on).draws = (s.dev.react s.cfg.pageSize s.bus { s.bus with we := on } s.draws).2 := rfl

/-! ### `driveOE` -/

@[simp] theorem driveOE_cfg (on : Bool) : (s.driveOE on).cfg = s.cfg := rfl
@[simp] theorem driveOE_bus (on : Bool) : (s.driveOE on).bus = { s.bus with oe := on } := rfl
@[simp] theorem driveOE_regs (on : Bool) : (s.driveOE on).regs = s.regs := rfl
@[simp] theorem driveOE_flags (on : Bool) : (s.driveOE on).flags = s.flags := rfl
@[simp] theorem driveOE_seq (on : Bool) : (s.driveOE on).seq = s.seq := rfl
@[simp] theorem driveOE_dev (on : Bool) : (s.driveOE on).dev = (s.dev.react s.cfg.pageSize s.bus { s.bus with oe := on } s.draws).1 := rfl
@[simp] theorem driveOE_port (on : Bool) : (s.driveOE on).port = s.port := rfl
@[simp] theorem driveOE_inputs (on : Bool) : (s.driveOE on).inputs = s.inputs := rfl
@[simp] theorem driveOE_answers (on : Bool) : (s.driveOE on).answers = s.answers := rfl
@[simp] theorem driveOE_trace (on : Bool) : (s.driveOE on).trace = s.trace ++ [.oe on] := rfl
@[simp] theorem driveOE_draws (on : Bool) : (s.driveOE on).draws = (s.dev.react s.cfg.pageSize s.bus { s.bus with oe := on } s.draws).2 := rfl

/-! ### `countAttempt` -/

@[simp] theorem countAttempt_cfg : (countAttempt s).cfg = s.cfg := rfl
@[simp] theorem countAttempt_bus : (countAttempt s).bus = s.bus := rfl
@[simp] theorem countAttempt_regs : (countAttempt s).regs = { s.regs with attempts := saturatingSucc s.regs.attempts } := rfl
@[simp] theorem countAttempt_flags : (countAttempt s).flags = s.flags := rfl
@[simp] theorem countAttempt_seq : (countAttempt s).seq = s.seq := rfl
@[simp] theorem countAttempt_dev : (countAttempt s).dev = s.dev := rfl
@[simp] theorem countAttempt_port : (countAttempt s).port = s.port := rfl
@[simp] theorem countAttempt_inputs : (countAttempt s).inputs = s.inputs := rfl
@[simp] theorem countAttempt_answers : (countAttempt s).answers = s.answers := rfl
@[simp] theorem countAttempt_trace : (countAttempt s).trace = s.trace := rfl
@[simp] theorem countAttempt_draws : (countAttempt s).draws = s.draws := rfl

/-! ### `startPoll` -/

@[simp] theorem startPoll_cfg (e : Byte) (r : RetT) : (startPoll e r s).cfg = s.cfg := rfl
@[simp] theorem startPoll_bus (e : Byte) (r : RetT) : (startPoll e r s).bus = s.bus := rfl
@[simp] theorem startPoll_regs (e : Byte) (r : RetT) : (startPoll e r s).regs = s.regs := rfl
@[simp] theorem startPoll_flags (e : Byte) (r : RetT) : (startPoll e r s).flags = s.flags := rfl
@[simp] theorem startPoll_seq (e : Byte) (r : RetT) : (startPoll e r s).seq = { s.seq with expect := e, pollCnt := 0, retT := r, ph := .pl0 } := rfl
@[simp] theorem startPoll_dev (e : Byte) (r : RetT) : (startPoll e r s).dev = s.dev := rfl
@[simp] theorem startPoll_port (e : Byte) (r : RetT) : (startPoll e r s).port = s.port := rfl
@[simp] theorem startPoll_inputs (e : Byte) (r : RetT) : (startPoll e r s).inputs = s.inputs := rfl
@[simp] theorem startPoll_answers (e : Byte) (r : RetT) : (startPoll e r s).answers = s.answers := rfl
@[simp] theorem startPoll_trace (e : Byte) (r : RetT) : (startPoll e r s).trace = s.trace := rfl
@[simp] theorem startPoll_draws (e : Byte) (r : RetT) : (startPoll e r s).draws = s.draws := rfl

/-! ### `applyReset` -/

@[simp] theorem applyReset_cfg : (s.applyReset).cfg = s.cfg := rfl
@[simp] theorem applyReset_bus : (s.applyReset).bus = .reset := rfl
@[simp] theorem applyReset_regs : (s.applyReset).regs = .reset s.cfg := rfl
@[simp] theorem applyReset_flags : (s.applyReset).flags = .reset := rfl
@[simp] theorem applyReset_seq : (s.applyReset).seq = .reset := rfl
@[simp] theorem applyReset_dev : (s.applyReset).dev = (s.dev.onReset s.cfg.pageSize s.bus s.draws).1 := rfl
@[simp] theorem applyReset_port : (s.applyReset).port = s.port := rfl
@[simp] theorem applyReset_inputs : (s.applyReset).inputs = s.inputs := rfl
@[simp] theorem applyReset_answers : (s.applyReset).answers = s.answers := rfl
@[simp] theorem applyReset_trace : (s.applyReset).trace = s.trace := rfl
@[simp] theorem applyReset_draws : (s.applyReset).draws = (s.dev.onReset s.cfg.pageSize s.bus s.draws).2 := rfl

/-! ### `setData`: an unconstrained byte where the bus is not output (U1) -/

@[simp] theorem setData_bus (b : Byte) :
    (s.setData b).bus = { s.bus with dLatch := if s.bus.dir then b else Config.freeByte s.draws } := by
  unfold State.setData; split <;> rfl
@[simp] theorem setData_draws (b : Byte) : (s.setData b).draws = if s.bus.dir then s.draws else s.draws + 1 := by
  unfold State.setData; split <;> rfl
@[simp] theorem setData_trace (b : Byte) : (s.setData b).trace = s.trace ++ [.data b] := by
  unfold State.setData; split <;> rfl
@[simp] theorem setData_cfg (b : Byte) : (s.setData b).cfg = s.cfg := by unfold State.setData; split <;> rfl
@[simp] theorem setData_regs (b : Byte) : (s.setData b).regs = s.regs := by unfold State.setData; split <;> rfl
@[simp] theorem setData_flags (b : Byte) : (s.setData b).flags = s.flags := by unfold State.setData; split <;> rfl
@[simp] theorem setData_seq (b : Byte) : (s.setData b).seq = s.seq := by unfold State.setData; split <;> rfl
@[simp] theorem setData_dev (b : Byte) : (s.setData b).dev = s.dev := by unfold State.setData; split <;> rfl
@[simp] theorem setData_port (b : Byte) : (s.setData b).port = s.port := by unfold State.setData; split <;> rfl
@[simp] theorem setData_inputs (b : Byte) : (s.setData b).inputs = s.inputs := by unfold State.setData; split <;> rfl
@[simp] theorem setData_answers (b : Byte) : (s.setData b).answers = s.answers := by unfold State.setData; split <;> rfl

/-! ### Reset values of the spec -/

@[simp] theorem resetWith_cfg (c : Config) : (State.resetWith c).cfg = c := rfl
@[simp] theorem resetWith_bus (c : Config) : (State.resetWith c).bus = .reset := rfl
@[simp] theorem resetWith_regs (c : Config) : (State.resetWith c).regs = .reset c := rfl
@[simp] theorem resetWith_flags (c : Config) : (State.resetWith c).flags = .reset := rfl
@[simp] theorem resetWith_seq (c : Config) : (State.resetWith c).seq = .reset := rfl
@[simp] theorem resetWith_dev (c : Config) : (State.resetWith c).dev = .launch := rfl

/-! ### The STATUS view -/

/-- R33: one bit of the view. -/
theorem bitAt_getLsbD (b : Bool) (k j : Nat) (hk : k < 32) : (bitAt b k).getLsbD j = (b && decide (j = k)) := by
  unfold bitAt
  cases b
  · simp
  · simp only [if_true, BitVec.getLsbD_shiftLeft, BitVec.getLsbD_one, Bool.true_and]
    by_cases h : j = k
    · subst h; simp [hk]
    · simp [h]; intros; omega

end Sys2Proof.Machine
end

