-- ==== Sys2Proof/Laws/Exec.lean ====
section
/-! SUPPORT. Every meaning is acceptance or one sequencer step; a sequencer step is one primitive and bookkeeping. -/

namespace Sys2Proof.Machine

/-! ### `exec` in one form -/

/-- The bookkeeping of a command at acceptance, up to its first step. -/
def startOf : Instr → State → State
  | .setaddr | .setdata | .readdata | .setdir _ => startPrim
  | .ceAssert | .ceDeassert | .weAssert | .weDeassert | .oeAssert | .oeDeassert => startPrim
  | .readbyte => startReadbyte
  | .writebyte => startWritebyte
  | .writepage => startWritepage
  | .unlock | .lock => startProt
  | .eraseall => startEraseall
  | .loadstream => startLoadstream

/-- The procedures a command runs. -/
def procsOf : Instr → List Proc
  | .setaddr => [primStep fun s => s.setAddress s.addrOperand]
  | .setdata => [primStep fun s => s.setData s.byteOperand]
  | .readdata => [primStep State.readData]
  | .setdir output => [primStep fun s => s.setDirection output]
  | .ceAssert => [primStep fun s => s.driveCE true]
  | .ceDeassert => [primStep fun s => s.driveCE false]
  | .weAssert => [primStep fun s => s.driveWE true]
  | .weDeassert => [primStep fun s => s.driveWE false]
  | .oeAssert => [primStep fun s => s.driveOE true]
  | .oeDeassert => [primStep fun s => s.driveOE false]
  | .readbyte => [readSeq]
  | .writebyte => [writeSeq, poll]
  | .writepage => [pageWrite, poll, readSeq]
  | .unlock => [protSeq unlockSeq]
  | .lock => [protSeq lockSeq]
  | .eraseall => [pageWrite, poll, readSeq]
  | .loadstream => [streamStep, pageWrite, poll, readSeq]

theorem exec_eq_command (i : Instr) (s : State) : exec i s = command i (startOf i) (procsOf i) s := by
  cases i <;> rfl

/-- R101: where `BUSY = 0` a command is accepted. -/
theorem exec_idle (i : Instr) {s : State} (h : s.flags.busy = false) : exec i s = .next (startOf i (s.accept i)) := by
  rw [exec_eq_command, command, h]; rfl

/-- R30: where `BUSY = 1` a command takes the step at `PH`. -/
theorem exec_busy (i : Instr) {s : State} (h : s.flags.busy = true) : exec i s = runProcs (procsOf i) s := by
  rw [exec_eq_command, command, h]; rfl

/-- A step of one of the procedures is what a run of procedures is made of. -/
theorem runProcs_next {procs : List Proc} {s t : State} (h : runProcs procs s = .next t) :
    ∃ p ∈ procs, ∃ f, p s.seq.ph = some f ∧ f s = .next t := by
  unfold runProcs at h
  split at h
  · rename_i f hf
    obtain ⟨p, hp, hpf⟩ := List.exists_of_findSome?_eq_some hf
    exact ⟨p, hp, f, hpf, h⟩
  · cases h

/-! ### Bookkeeping -/

/-- Bookkeeping: what happens "together with the step that precedes" (R36): only flags, the position but for `OP`, and `ATTEMPTS` change. -/
structure Bookkept (s t : State) : Prop where
  cfg : t.cfg = s.cfg
  bus : t.bus = s.bus
  regs : t.regs = { s.regs with attempts := t.regs.attempts }
  dev : t.dev = s.dev
  port : t.port = s.port
  inputs : t.inputs = s.inputs
  answers : t.answers = s.answers
  trace : t.trace = s.trace
  draws : t.draws = s.draws
  op : t.seq.op = s.seq.op

theorem Bookkept.refl (s : State) : Bookkept s s := ⟨rfl, rfl, rfl, rfl, rfl, rfl, rfl, rfl, rfl, rfl⟩

theorem Bookkept.trans {s t u : State} (h : Bookkept s t) (g : Bookkept t u) : Bookkept s u := by
  refine ⟨g.cfg.trans h.cfg, g.bus.trans h.bus, ?_, g.dev.trans h.dev, g.port.trans h.port, g.inputs.trans h.inputs,
    g.answers.trans h.answers, g.trace.trans h.trace, g.draws.trans h.draws, g.op.trans h.op⟩
  rw [g.regs, h.regs]

/-- A change of flags and position alone is bookkeeping. -/
theorem Bookkept.of_eq {s : State} (f : Flags) (q : Sequencer) (h : q.op = s.seq.op) :
    Bookkept s { s with flags := f, seq := q } :=
  ⟨rfl, rfl, rfl, rfl, rfl, rfl, rfl, rfl, rfl, h⟩

theorem Bookkept.attempts {s : State} (a : Word) (f : Flags) (q : Sequencer) (h : q.op = s.seq.op) :
    Bookkept s { s with regs := { s.regs with attempts := a }, flags := f, seq := q } :=
  ⟨rfl, rfl, rfl, rfl, rfl, rfl, rfl, rfl, rfl, h⟩

theorem goto_kept (s : State) (l : Label) : Bookkept s (s.goto l) := .of_eq _ _ rfl
theorem finish_kept (s : State) (ok : Bool) : Bookkept s (s.finish ok) := .of_eq _ _ rfl
theorem setPollOk_kept (s : State) (ok : Bool) : Bookkept s (s.setPollOk ok) := .of_eq _ _ rfl
theorem setVerifyOk_kept (s : State) (ok : Bool) : Bookkept s (s.setVerifyOk ok) := .of_eq _ _ rfl
theorem setDropped_kept (s : State) : Bookkept s s.setDropped := .of_eq _ _ rfl
theorem seq_kept (s : State) (q : Sequencer) (h : q.op = s.seq.op) : Bookkept s { s with seq := q } := .of_eq _ _ h

theorem wpCall_kept {dropReturn : State → State} (hd : ∀ s, Bookkept s (dropReturn s)) (s : State) :
    Bookkept s (wpCall dropReturn s) := by
  unfold wpCall
  split
  · exact .attempts _ _ _ rfl
  · exact (setDropped_kept s).trans (hd _)

theorem eraseBlock_kept (s : State) : Bookkept s (eraseBlock s) :=
  (seq_kept s { s.seq with
    pgLen := min s.cfg.pageSize (s.cfg.maxAddr + 1 - s.seq.pgBase), retP := .afterBlock } rfl).trans
    (wpCall_kept (fun s => finish_kept s false) _)

theorem eraseAfter_kept (ok : Bool) (s : State) : Bookkept s (eraseAfter ok s) := by
  unfold eraseAfter
  refine (seq_kept s { s.seq with allOk := s.seq.allOk && ok, pgBase := s.seq.pgBase + s.cfg.pageSize } rfl).trans ?_
  dsimp only
  split
  · exact eraseBlock_kept _
  · exact finish_kept _ _

theorem loadAfter_kept (ok : Bool) (s : State) : Bookkept s (loadAfter ok s) := by
  unfold loadAfter
  refine (seq_kept s { s.seq with allOk := s.seq.allOk && ok, pgBase := s.seq.pgBase + s.seq.pgLen, pgLen := 0 } rfl).trans ?_
  dsimp only
  split
  · exact finish_kept _ _
  · exact goto_kept _ _

theorem loadFlush_kept (s : State) : Bookkept s (loadFlush s) :=
  (seq_kept s { s.seq with retP := .afterChunk } rfl).trans (wpCall_kept (loadAfter_kept false) _)

theorem wpReturn_kept (ok : Bool) (s : State) : Bookkept s (wpReturn ok s) := by
  unfold wpReturn
  split
  · exact finish_kept _ _
  · exact eraseAfter_kept _ _
  · exact loadAfter_kept _ _

theorem decideAttempt_kept (s : State) : Bookkept s (decideAttempt s) := by
  unfold decideAttempt
  repeat' split
  all_goals first
    | exact wpReturn_kept _ _
    | exact goto_kept _ _

theorem checkByte_kept (s : State) : Bookkept s (checkByte s) := by
  unfold checkByte
  split
  · exact (setVerifyOk_kept s _).trans (decideAttempt_kept _)
  · refine (seq_kept s { s.seq with idx := s.seq.idx + 1 } rfl).trans ?_
    dsimp only
    split
    · exact .of_eq _ _ rfl
    · exact (setVerifyOk_kept _ _).trans (decideAttempt_kept _)

theorem readReturn_kept {s t : State} (h : readReturn s = .next t) : Bookkept s t := by
  unfold readReturn at h
  split at h <;> cases h
  · exact finish_kept _ _
  · exact checkByte_kept _

theorem pollReturn_kept {ok : Bool} {s t : State} (h : pollReturn ok s = .next t) : Bookkept s t := by
  unfold pollReturn at h
  dsimp only at h
  split at h <;> cases h
  · exact (setPollOk_kept s _).trans (finish_kept _ _)
  · exact (setPollOk_kept s _).trans (.of_eq _ _ rfl)

theorem pollDecide_kept {s t : State} (h : pollDecide s = .next t) : Bookkept s t := by
  unfold pollDecide at h
  refine (seq_kept s { s.seq with pollCnt := s.seq.pollCnt + 1 } rfl).trans ?_
  dsimp only at h
  split at h
  · exact pollReturn_kept h
  · split at h
    · exact pollReturn_kept h
    · cases h; exact goto_kept _ _

theorem nextPulse_kept (s : State) : Bookkept s (nextPulse s) := by
  unfold nextPulse
  dsimp only
  split <;> exact .of_eq _ _ rfl

theorem nextEntry_kept (table : List Host.Cell) (s : State) : Bookkept s (nextEntry table s) := by
  unfold nextEntry
  dsimp only
  split <;> exact .of_eq _ _ rfl

theorem startSettle_kept (s : State) : Bookkept s (startSettle s) := by
  unfold startSettle
  dsimp only
  split <;> exact .of_eq _ _ rfl

theorem startPoll_kept (e : Byte) (r : RetT) (s : State) : Bookkept s (startPoll e r s) := .of_eq _ _ rfl

theorem countAttempt_kept (s : State) : Bookkept s (countAttempt s) := .attempts _ _ _ rfl

/-! ### The returns, each by its label -/

theorem readReturn_finish {s : State} (h : s.seq.retT = .finish) : readReturn s = .next (s.finish true) := by
  rw [readReturn, h]

theorem readReturn_check {s : State} (h : s.seq.retT = .check) : readReturn s = .next (checkByte s) := by
  rw [readReturn, h]

theorem pollReturn_finish {s : State} (ok : Bool) (h : s.seq.retT = .finish) :
    pollReturn ok s = .next ((s.setPollOk ok).finish ok) := by
  unfold pollReturn; dsimp only; rw [setPollOk_seq, h]

theorem pollReturn_afterPoll {s : State} (ok : Bool) (h : s.seq.retT = .afterPoll) :
    pollReturn ok s = .next { s.setPollOk ok with
      seq := { s.seq with idx := 0, tAddr := s.seq.pgBase, retT := .check, ph := .rs0 } } := by
  unfold pollReturn; dsimp only; rw [setPollOk_seq, h]

/-- R165: the three ends of a sample. -/
theorem pollDecide_eq (s : State) :
    pollDecide s =
      if s.regs.rdata = s.seq.expect then pollReturn true { s with seq := { s.seq with pollCnt := s.seq.pollCnt + 1 } }
      else if s.seq.pollCnt + 1 = s.cfg.pollBudget then
        pollReturn false { s with seq := { s.seq with pollCnt := s.seq.pollCnt + 1 } }
      else .next { s with seq := { s.seq with pollCnt := s.seq.pollCnt + 1, ph := .pl1 } } := rfl

theorem wpReturn_finish {s : State} (ok : Bool) (h : s.seq.retP = .finish) : wpReturn ok s = s.finish ok := by
  rw [wpReturn, h]

theorem wpReturn_afterBlock {s : State} (ok : Bool) (h : s.seq.retP = .afterBlock) :
    wpReturn ok s = eraseAfter ok s := by
  rw [wpReturn, h]

theorem wpReturn_afterChunk {s : State} (ok : Bool) (h : s.seq.retP = .afterChunk) :
    wpReturn ok s = loadAfter ok s := by
  rw [wpReturn, h]

theorem wpCall_valid {dropReturn : State → State} {s : State} (h : s.pageValid = true) :
    wpCall dropReturn s = ({ s with regs := { s.regs with attempts := 0 } }).goto .wp1 := by
  rw [wpCall, if_pos h]

theorem wpCall_dropped {dropReturn : State → State} {s : State} (h : s.pageValid = false) :
    wpCall dropReturn s = dropReturn s.setDropped := by
  rw [wpCall, if_neg (by simp [h])]

/-- R191: the precondition of a page call, in numbers. -/
theorem pageValid_iff (s : State) :
    s.pageValid = true ↔ 1 ≤ s.seq.pgLen ∧ s.seq.pgLen ≤ s.cfg.pageSize ∧ s.seq.pgBase + s.seq.pgLen - 1 ≤ s.cfg.maxAddr := by
  simp [State.pageValid, and_assoc]

/-- R197: an attempt that polled and verified returns. -/
theorem decideAttempt_ok {s : State} (h1 : s.flags.pollOk = true) (h2 : s.flags.verifyOk = true) :
    decideAttempt s = wpReturn true s := by
  simp [decideAttempt, h1, h2]

/-- R197, R198: a failed attempt under the cap, or without one, is retried. -/
theorem decideAttempt_retry {s : State} (h : (s.flags.pollOk && s.flags.verifyOk) = false)
    (hk : ∀ k, s.cfg.retryCap = some k → s.regs.attempts.toNat < k) : decideAttempt s = s.goto .wp1 := by
  rw [decideAttempt, if_neg (by simp [h])]
  split
  · rename_i k hc
    rw [if_neg (Nat.not_le_of_lt (hk k hc))]; rfl
  · rfl

/-- R198: a failed attempt at the cap ends the call. -/
theorem decideAttempt_capped {s : State} {k : Nat} (h : (s.flags.pollOk && s.flags.verifyOk) = false)
    (hc : s.cfg.retryCap = some k) (hk : k ≤ s.regs.attempts.toNat) : decideAttempt s = wpReturn false s := by
  rw [decideAttempt, if_neg (by simp [h]), hc]
  exact if_pos hk

/-- R196: a byte that differs ends the read-back. -/
theorem checkByte_differs {s : State} (h : s.regs.rdata ≠ s.pageByte s.seq.idx) :
    checkByte s = decideAttempt (s.setVerifyOk false) := by
  rw [checkByte, if_pos h]

/-- R196: a byte that is equal, with bytes left. -/
theorem checkByte_goesOn {s : State} (h : s.regs.rdata = s.pageByte s.seq.idx) (hl : s.seq.idx + 1 < s.seq.pgLen) :
    checkByte s = { s with seq := { s.seq with
      idx := s.seq.idx + 1, tAddr := s.seq.pgBase + (s.seq.idx + 1), ph := .rs0 } } := by
  rw [checkByte, if_neg (by simpa using h)]
  exact if_pos hl

/-- R196: the last byte, equal. -/
theorem checkByte_last {s : State} (h : s.regs.rdata = s.pageByte s.seq.idx) (hl : s.seq.pgLen ≤ s.seq.idx + 1) :
    checkByte s = decideAttempt ({ s with seq := { s.seq with idx := s.seq.idx + 1 } }.setVerifyOk true) := by
  rw [checkByte, if_neg (by simpa using h)]
  exact if_neg (Nat.not_lt_of_le hl)

/-! ### One primitive a step -/

/-- R130, R222: the actions on the pins: the ten primitives and the settle tick. -/
inductive Prim
  | addr (a : Nat)
  | data (b : Byte)
  | dir (output : Bool)
  | sample
  | ce (on : Bool)
  | we (on : Bool)
  | oe (on : Bool)
  | settle

/-- What an action does. -/
def Prim.apply : Prim → State → State
  | .addr a, s => s.setAddress a
  | .data b, s => s.setData b
  | .dir output, s => s.setDirection output
  | .sample, s => s.readData
  | .ce on, s => s.driveCE on
  | .we on, s => s.driveWE on
  | .oe on, s => s.driveOE on
  | .settle, s => { s with trace := s.trace ++ [.settle] }

/-- The step of a procedure is one action and bookkeeping. -/
def OnePrimitive (p : Proc) : Prop :=
  ∀ l f s t, p l = some f → f s = .next t → ∃ a : Prim, Bookkept (a.apply s) t

theorem readSeq_onePrimitive : OnePrimitive readSeq := by
  intro l f s t hp hf
  cases l <;> simp only [readSeq, Option.some.injEq, reduceCtorEq] at hp <;> subst hp
  case rs6 => exact ⟨.ce false, readReturn_kept hf⟩
  all_goals cases hf
  · exact ⟨.addr _, goto_kept _ _⟩
  · exact ⟨.dir _, goto_kept _ _⟩
  · exact ⟨.ce _, goto_kept _ _⟩
  · exact ⟨.oe _, goto_kept _ _⟩
  · exact ⟨.sample, goto_kept _ _⟩
  · exact ⟨.oe _, goto_kept _ _⟩

theorem poll_onePrimitive : OnePrimitive poll := by
  intro l f s t hp hf
  cases l <;> simp only [poll, Option.some.injEq, reduceCtorEq] at hp <;> subst hp
  case pl5 => exact ⟨.ce false, pollDecide_kept hf⟩
  all_goals cases hf
  · exact ⟨.dir _, goto_kept _ _⟩
  · exact ⟨.ce _, goto_kept _ _⟩
  · exact ⟨.oe _, goto_kept _ _⟩
  · exact ⟨.sample, goto_kept _ _⟩
  · exact ⟨.oe _, goto_kept _ _⟩

theorem writeSeq_onePrimitive : OnePrimitive writeSeq := by
  intro l f s t hp hf
  cases l <;> simp only [writeSeq, Option.some.injEq, reduceCtorEq] at hp <;> subst hp <;> cases hf
  · exact ⟨.addr _, goto_kept _ _⟩
  · exact ⟨.dir _, goto_kept _ _⟩
  · exact ⟨.data _, goto_kept _ _⟩
  · exact ⟨.ce _, goto_kept _ _⟩
  · exact ⟨.we _, goto_kept _ _⟩
  · exact ⟨.we _, goto_kept _ _⟩
  · exact ⟨.ce _, startPoll_kept _ _ _⟩

theorem pageWrite_onePrimitive : OnePrimitive pageWrite := by
  intro l f s t hp hf
  cases l <;> simp only [pageWrite, Option.some.injEq, reduceCtorEq] at hp <;> subst hp <;> cases hf
  · exact ⟨.dir _, (countAttempt_kept _).trans (goto_kept _ _)⟩
  · exact ⟨.ce true, seq_kept _ _ rfl⟩
  · exact ⟨.addr _, goto_kept _ _⟩
  · exact ⟨.data _, goto_kept _ _⟩
  · exact ⟨.we _, goto_kept _ _⟩
  · exact ⟨.we _, nextPulse_kept _⟩
  · exact ⟨.ce _, startPoll_kept _ _ _⟩

theorem settleTick_kept (s : State) : Bookkept (Prim.settle.apply s) (settleTick s) := by
  unfold settleTick
  dsimp only
  split <;> exact .of_eq _ _ rfl

theorem protSeq_onePrimitive (table : List Host.Cell) : OnePrimitive (protSeq table) := by
  intro l f s t hp hf
  cases l <;> simp only [protSeq, Option.some.injEq, reduceCtorEq] at hp <;> subst hp <;> cases hf
  · exact ⟨.dir _, goto_kept _ _⟩
  · exact ⟨.ce true, seq_kept _ _ rfl⟩
  · exact ⟨.addr _, goto_kept _ _⟩
  · exact ⟨.data _, goto_kept _ _⟩
  · exact ⟨.we _, goto_kept _ _⟩
  · exact ⟨.we _, nextEntry_kept _ _⟩
  · exact ⟨.ce _, startSettle_kept _⟩
  · exact ⟨.settle, settleTick_kept _⟩

theorem primStep_onePrimitive {primitive : State → State} (h : ∀ s, ∃ a : Prim, primitive s = a.apply s) :
    OnePrimitive (primStep primitive) := by
  intro l f s t hp hf
  cases l <;> simp only [primStep, Option.some.injEq, reduceCtorEq] at hp
  subst hp
  cases hf
  obtain ⟨a, ha⟩ := h s
  exact ⟨a, ha ▸ finish_kept _ _⟩

/-! ### The stream step -/

/-- R36: the step at `LS0` makes no bus event; it may take a byte into `PAGE_BUF`, ending the producer's offer. -/
structure StreamTaken (s t : State) : Prop where
  cfg : t.cfg = s.cfg
  bus : t.bus = s.bus
  regs : ∃ buf, buf.length = s.regs.pageBuf.length ∧ t.regs = { s.regs with attempts := t.regs.attempts, pageBuf := buf }
  dev : t.dev = s.dev
  port : ∃ v, t.port = { s.port with valid := v }
  inputs : t.inputs = s.inputs
  answers : t.answers = s.answers
  trace : t.trace = s.trace
  draws : t.draws = s.draws
  op : t.seq.op = s.seq.op

theorem Bookkept.stream {s t : State} (h : Bookkept s t) : StreamTaken s t :=
  ⟨h.cfg, h.bus, ⟨s.regs.pageBuf, rfl, h.regs⟩, h.dev, ⟨s.port.valid, h.port⟩, h.inputs, h.answers, h.trace,
    h.draws, h.op⟩

theorem takeByte_taken (s : State) : StreamTaken s (takeByte s) := by
  unfold takeByte
  dsimp only
  split
  · have h := loadFlush_kept { s with
      regs := { s.regs with pageBuf := s.regs.pageBuf.set s.seq.pgLen s.port.data }
      seq := { s.seq with pgLen := s.seq.pgLen + 1, remain := s.seq.remain - 1 }
      port := { s.port with valid := false } }
    exact ⟨h.cfg, h.bus, ⟨_, by simp, h.regs⟩, h.dev, ⟨_, h.port⟩, h.inputs, h.answers, h.trace, h.draws, h.op⟩
  · exact ⟨rfl, rfl, ⟨_, by simp, rfl⟩, rfl, ⟨_, rfl⟩, rfl, rfl, rfl, rfl, rfl⟩

theorem takeEnd_kept (s : State) : Bookkept s (takeEnd s) := by
  unfold takeEnd
  refine (seq_kept s { s.seq with sEnded := true } rfl).trans ?_
  dsimp only
  split
  · exact loadFlush_kept _
  · exact finish_kept _ _

theorem streamStep_taken {l : Label} {f : State → Result} {s t : State} (hp : streamStep l = some f)
    (hf : f s = .next t) : l = .ls0 ∧ StreamTaken s t := by
  cases l <;> simp only [streamStep, Option.some.injEq, reduceCtorEq] at hp
  subst hp
  refine ⟨rfl, ?_⟩
  cases hf
  split
  · exact takeByte_taken _
  · split
    · exact (takeEnd_kept _).stream
    · exact (Bookkept.refl _).stream

/-! ### Every sequencer step -/

/-- R36, R130: what a sequencer step of any command can do: one action on the pins and bookkeeping, or the stream step. -/
theorem exec_busy_cases {i : Instr} {s t : State} (hb : s.flags.busy = true) (h : exec i s = .next t) :
    (∃ a : Prim, Bookkept (a.apply s) t) ∨ (i = .loadstream ∧ s.seq.ph = .ls0 ∧ StreamTaken s t) := by
  rw [exec_busy i hb] at h
  obtain ⟨p, hp, f, hpf, hf⟩ := runProcs_next h
  cases i <;> simp only [procsOf, List.mem_cons, List.not_mem_nil, or_false] at hp
  case loadstream =>
    rcases hp with rfl | rfl | rfl | rfl
    · exact .inr ⟨rfl, streamStep_taken hpf hf⟩
    · exact .inl (pageWrite_onePrimitive _ _ _ _ hpf hf)
    · exact .inl (poll_onePrimitive _ _ _ _ hpf hf)
    · exact .inl (readSeq_onePrimitive _ _ _ _ hpf hf)
  case setaddr => subst hp; exact .inl (primStep_onePrimitive (fun _ => ⟨.addr _, rfl⟩) _ _ _ _ hpf hf)
  case setdata => subst hp; exact .inl (primStep_onePrimitive (fun _ => ⟨.data _, rfl⟩) _ _ _ _ hpf hf)
  case readdata => subst hp; exact .inl (primStep_onePrimitive (fun _ => ⟨.sample, rfl⟩) _ _ _ _ hpf hf)
  case setdir => subst hp; exact .inl (primStep_onePrimitive (fun _ => ⟨.dir _, rfl⟩) _ _ _ _ hpf hf)
  case ceAssert => subst hp; exact .inl (primStep_onePrimitive (fun _ => ⟨.ce true, rfl⟩) _ _ _ _ hpf hf)
  case ceDeassert => subst hp; exact .inl (primStep_onePrimitive (fun _ => ⟨.ce false, rfl⟩) _ _ _ _ hpf hf)
  case weAssert => subst hp; exact .inl (primStep_onePrimitive (fun _ => ⟨.we true, rfl⟩) _ _ _ _ hpf hf)
  case weDeassert => subst hp; exact .inl (primStep_onePrimitive (fun _ => ⟨.we false, rfl⟩) _ _ _ _ hpf hf)
  case oeAssert => subst hp; exact .inl (primStep_onePrimitive (fun _ => ⟨.oe true, rfl⟩) _ _ _ _ hpf hf)
  case oeDeassert => subst hp; exact .inl (primStep_onePrimitive (fun _ => ⟨.oe false, rfl⟩) _ _ _ _ hpf hf)
  case readbyte => subst hp; exact .inl (readSeq_onePrimitive _ _ _ _ hpf hf)
  case writebyte =>
    rcases hp with rfl | rfl
    · exact .inl (writeSeq_onePrimitive _ _ _ _ hpf hf)
    · exact .inl (poll_onePrimitive _ _ _ _ hpf hf)
  case unlock => subst hp; exact .inl (protSeq_onePrimitive _ _ _ _ _ hpf hf)
  case lock => subst hp; exact .inl (protSeq_onePrimitive _ _ _ _ _ hpf hf)
  all_goals
    rcases hp with rfl | rfl | rfl
    · exact .inl (pageWrite_onePrimitive _ _ _ _ hpf hf)
    · exact .inl (poll_onePrimitive _ _ _ _ hpf hf)
    · exact .inl (readSeq_onePrimitive _ _ _ _ hpf hf)

theorem Prim.apply_seq (a : Prim) (s : State) : (a.apply s).seq = s.seq := by
  cases a <;> simp [Prim.apply]

/-- R30: a sequencer step keeps `OP`. -/
theorem exec_busy_op {i : Instr} {s t : State} (hb : s.flags.busy = true) (h : exec i s = .next t) :
    t.seq.op = s.seq.op := by
  rcases exec_busy_cases hb h with ⟨a, ha⟩ | ⟨-, -, ha⟩
  · rw [ha.op, a.apply_seq]
  · exact ha.op

/-! ### Every acceptance -/

/-- R101: acceptance changes no pin and calls no device; only `eraseAll` fills `PAGE_BUF` in it. -/
structure Accepted (s t : State) : Prop where
  cfg : t.cfg = s.cfg
  bus : t.bus = s.bus
  regs : ∃ buf, t.regs = { s.regs with attempts := t.regs.attempts, pageBuf := buf } ∧
    (buf = s.regs.pageBuf ∨ buf = List.replicate s.cfg.pageSize 0)
  dev : t.dev = s.dev
  port : t.port = s.port
  inputs : t.inputs = s.inputs
  answers : t.answers = s.answers
  trace : t.trace = s.trace
  draws : t.draws = s.draws

theorem startLoadstream_kept (s : State) : Bookkept s (startLoadstream s) := by
  unfold startLoadstream
  dsimp only
  split <;> exact .of_eq _ _ rfl

theorem startOf_accepted (i : Instr) (s : State) : Accepted s (startOf i (s.accept i)) := by
  cases i
  case eraseall =>
    have h := eraseBlock_kept { s.accept .eraseall with
      regs := { s.regs with pageBuf := List.replicate s.cfg.pageSize 0 }
      seq := { (s.accept .eraseall).seq with pgBase := 0, allOk := true } }
    exact ⟨h.cfg, h.bus, ⟨_, h.regs, .inr rfl⟩, h.dev, h.port, h.inputs, h.answers, h.trace, h.draws⟩
  case loadstream =>
    have h := startLoadstream_kept (s.accept .loadstream)
    exact ⟨h.cfg, h.bus, ⟨_, h.regs, .inl rfl⟩, h.dev, h.port, h.inputs, h.answers, h.trace, h.draws⟩
  case writepage =>
    have h := wpCall_kept (fun s => finish_kept s false) { s.accept .writepage with seq := { (s.accept .writepage).seq with
      pgBase := s.addrOperand, pgLen := s.lenOperand, retP := .finish } }
    exact ⟨h.cfg, h.bus, ⟨_, h.regs, .inl rfl⟩, h.dev, h.port, h.inputs, h.answers, h.trace, h.draws⟩
  all_goals exact ⟨rfl, rfl, ⟨_, rfl, .inl rfl⟩, rfl, rfl, rfl, rfl, rfl, rfl⟩

theorem exec_idle_accepted {i : Instr} {s t : State} (hb : s.flags.busy = false) (h : exec i s = .next t) :
    Accepted s t := by
  rw [exec_idle i hb] at h
  cases h
  exact startOf_accepted i s

/-- A meaning appends at most one event, and none while idle. -/
theorem exec_trace_length {i : Instr} {s t : State} (h : exec i s = .next t) :
    t.trace.length ≤ s.trace.length + (if s.flags.busy then 1 else 0) := by
  cases hb : s.flags.busy with
  | false =>
    rw [exec_idle i hb] at h
    cases h
    rw [(startOf_accepted i s).trace]; simp
  | true =>
    rcases exec_busy_cases hb h with ⟨a, ha⟩ | ⟨-, -, ha⟩
    · rw [ha.trace]; cases a <;> simp [Prim.apply]
    · rw [ha.trace]; simp

/-! ### The frame of every meaning -/

/-- What no meaning touches: the configuration, the pending moves, the host's answers and operands (R29), the pins of the
producer but for its offer, and the device array (R60: it changes by the device's own steps only). -/
structure Framed (s t : State) : Prop where
  cfg : t.cfg = s.cfg
  inputs : t.inputs = s.inputs
  answers : t.answers = s.answers
  addrOp : t.regs.addrOp = s.regs.addrOp
  dataOp : t.regs.dataOp = s.regs.dataOp
  lenOp : t.regs.lenOp = s.regs.lenOp
  ended : t.port.ended = s.port.ended
  data : t.port.data = s.port.data
  dev : s.dev.Kept t.dev

theorem Prim.apply_framed (a : Prim) (s : State) : Framed s (a.apply s) := by
  cases a <;> refine ⟨?_, ?_, ?_, ?_, ?_, ?_, ?_, ?_, ?_⟩ <;> simp [Prim.apply, Device.react_kept, Device.Kept.refl]

theorem Framed.bookkept {s t u : State} (h : Framed s t) (g : Bookkept t u) : Framed s u := by
  refine ⟨g.cfg.trans h.cfg, g.inputs.trans h.inputs, g.answers.trans h.answers, ?_, ?_, ?_, ?_, ?_, g.dev ▸ h.dev⟩
  · rw [g.regs]; exact h.addrOp
  · rw [g.regs]; exact h.dataOp
  · rw [g.regs]; exact h.lenOp
  · rw [g.port]; exact h.ended
  · rw [g.port]; exact h.data

theorem exec_framed {i : Instr} {s t : State} (h : exec i s = .next t) : Framed s t := by
  cases hb : s.flags.busy with
  | false =>
    have a := exec_idle_accepted hb h
    obtain ⟨buf, hr, -⟩ := a.regs
    refine ⟨a.cfg, a.inputs, a.answers, ?_, ?_, ?_, ?_, ?_, a.dev ▸ .refl _⟩
    · rw [hr]
    · rw [hr]
    · rw [hr]
    · rw [a.port]
    · rw [a.port]
  | true =>
    rcases exec_busy_cases hb h with ⟨a, ha⟩ | ⟨-, -, a⟩
    · exact (a.apply_framed s).bookkept ha
    · obtain ⟨buf, -, hr⟩ := a.regs
      obtain ⟨v, hv⟩ := a.port
      refine ⟨a.cfg, a.inputs, a.answers, ?_, ?_, ?_, ?_, ?_, a.dev ▸ .refl _⟩
      · rw [hr]
      · rw [hr]
      · rw [hr]
      · rw [hv]
      · rw [hv]

end Sys2Proof.Machine
end

