-- ==== Sys2Proof/Laws/Runs.lean ====
section
/-! SUPPORT. The device's answer to each pin change a composite makes, and runs of the procedures in closed form. -/

namespace Sys2Proof.Machine

/-! ### Runs -/

theorem andThen_assoc (r : Result) (f g : State → Result) :
    andThen (andThen r f) g = andThen r (fun s => andThen (f s) g) := by
  cases r <;> rfl

/-- A run of `j + k` steps is one of `j` and then one of `k`. -/
theorem execTimes_add (j k : Nat) (i : Instr) (s : State) :
    execTimes (j + k) i s = andThen (execTimes j i s) (execTimes k i) := by
  induction j generalizing s with
  | zero => simp [execTimes, andThen]
  | succ j ih =>
    rw [show j + 1 + k = (j + k) + 1 by omega]
    simp only [execTimes, andThen_assoc]
    congr 1
    funext t
    exact ih t

theorem execTimes_trans {j k : Nat} {i : Instr} {s t : State} {r : Result} (h : execTimes j i s = .next t)
    (g : execTimes k i t = r) : execTimes (j + k) i s = r := by
  rw [execTimes_add, h]; exact g

theorem execTimes_one (i : Instr) (s : State) : execTimes 1 i s = exec i s := by
  simp only [execTimes]
  cases exec i s <;> rfl

/-- The command takes the steps of this procedure wherever it defines one. -/
def Runs (i : Instr) (p : Proc) : Prop :=
  ∀ (s : State) (f : State → Result), s.flags.busy = true → p s.seq.ph = some f → exec i s = f s

theorem readbyte_runs : Runs .readbyte readSeq := by
  intro s f hb hp; rw [exec_busy _ hb, runProcs]; simp [procsOf, hp]

theorem writebyte_runs_writeSeq : Runs .writebyte writeSeq := by
  intro s f hb hp; rw [exec_busy _ hb, runProcs]; simp [procsOf, hp]

theorem writebyte_runs_poll : Runs .writebyte poll := by
  intro s f hb hp
  rw [exec_busy _ hb, runProcs]
  have : writeSeq s.seq.ph = none := by cases hph : s.seq.ph <;> rw [hph] at hp <;> first | rfl | cases hp
  simp [procsOf, hp, this]

theorem unlock_runs : Runs .unlock (protSeq unlockSeq) := by
  intro s f hb hp; rw [exec_busy _ hb, runProcs]; simp [procsOf, hp]

theorem lock_runs : Runs .lock (protSeq lockSeq) := by
  intro s f hb hp; rw [exec_busy _ hb, runProcs]; simp [procsOf, hp]

theorem loadstream_runs : Runs .loadstream streamStep := by
  intro s f hb hp; rw [exec_busy _ hb, runProcs]; simp [procsOf, hp]

theorem pages_run_pageWrite {i : Instr} (hi : i.pages) : Runs i pageWrite := by
  intro s f hb hp
  have : streamStep s.seq.ph = none := by cases hph : s.seq.ph <;> rw [hph] at hp <;> first | rfl | cases hp
  rcases hi with rfl | rfl | rfl <;> rw [exec_busy _ hb, runProcs] <;> simp [procsOf, hp, this]

theorem pages_run_poll {i : Instr} (hi : i.pages) : Runs i poll := by
  intro s f hb hp
  have h1 : streamStep s.seq.ph = none := by cases hph : s.seq.ph <;> rw [hph] at hp <;> first | rfl | cases hp
  have h2 : pageWrite s.seq.ph = none := by cases hph : s.seq.ph <;> rw [hph] at hp <;> first | rfl | cases hp
  rcases hi with rfl | rfl | rfl <;> rw [exec_busy _ hb, runProcs] <;> simp [procsOf, hp, h1, h2]

theorem pages_run_readSeq {i : Instr} (hi : i.pages) : Runs i readSeq := by
  intro s f hb hp
  have h1 : streamStep s.seq.ph = none := by cases hph : s.seq.ph <;> rw [hph] at hp <;> first | rfl | cases hp
  have h2 : pageWrite s.seq.ph = none := by cases hph : s.seq.ph <;> rw [hph] at hp <;> first | rfl | cases hp
  have h3 : poll s.seq.ph = none := by cases hph : s.seq.ph <;> rw [hph] at hp <;> first | rfl | cases hp
  rcases hi with rfl | rfl | rfl <;> rw [exec_busy _ hb, runProcs] <;> simp [procsOf, hp, h1, h2, h3]

/-- What a procedure makes of a state. -/
def Proc.at (p : Proc) (s : State) : Option Result := (p s.seq.ph).map fun f => f s

theorem Runs.exec {i : Instr} {p : Proc} (h : Runs i p) {s : State} {r : Result} (hb : s.flags.busy = true)
    (hp : p.at s = some r) : exec i s = r := by
  obtain ⟨f, hf, rfl⟩ := Option.map_eq_some_iff.1 hp
  exact h s f hb hf

/-- One step of a procedure at the head of a run. -/
theorem Runs.step {i : Instr} {p : Proc} (h : Runs i p) {k : Nat} {s t : State} (hb : s.flags.busy = true)
    (hp : p.at s = some (.next t)) : execTimes (k + 1) i s = execTimes k i t := by
  simp only [execTimes, h.exec hb hp, andThen]

/-- Acceptance at the head of a run. -/
theorem execTimes_accept (k : Nat) (i : Instr) {s : State} (hb : s.flags.busy = false) :
    execTimes (k + 1) i s = execTimes k i (startOf i (s.accept i)) := by
  simp only [execTimes, exec_idle i hb, andThen]

/-! ### The device's answer to one pin change -/

section
variable (d : Device) (p : Nat) (a : Nat) (v : Byte) (dr we oe : Bool) (n : Nat)

/-- A change of direction outside a window: nothing. -/
@[simp] theorem Device.react_dir_idle (o : Bool) :
    d.react p ⟨a, v, dr, false, we, oe⟩ ⟨a, v, o, false, we, oe⟩ n = (d, n) := by
  simp [Device.react, Device.watch]

/-- Chip-enable asserted with the other lines idle: a window opens. -/
@[simp] theorem Device.react_open :
    d.react p ⟨a, v, dr, false, false, false⟩ ⟨a, v, dr, true, false, false⟩ n = (d.openWindow, n) := by
  simp [Device.react, Device.watch, Device.openWindow]

/-- Output-enable in a read window: nothing. -/
@[simp] theorem Device.react_oe (o : Bool) :
    d.react p ⟨a, v, false, true, false, oe⟩ ⟨a, v, false, true, false, o⟩ n = (d, n) := by
  simp [Device.react, Device.watch]

/-- Write-enable asserted in a write window: nothing yet. -/
@[simp] theorem Device.react_we_on :
    d.react p ⟨a, v, dr, true, false, false⟩ ⟨a, v, dr, true, true, false⟩ n = (d, n) := by
  simp [Device.react, Device.watch]

/-- Write-enable deasserted in a write window: the trailing edge. -/
@[simp] theorem Device.react_we_off :
    d.react p ⟨a, v, dr, true, true, false⟩ ⟨a, v, dr, true, false, false⟩ n =
      d.latch ⟨a, v, dr, true, true, false⟩ n := by
  simp [Device.react, Device.watch]

/-- Chip-enable deasserted with write-enable idle: the window closes. -/
@[simp] theorem Device.react_close :
    d.react p ⟨a, v, dr, true, false, oe⟩ ⟨a, v, dr, false, false, oe⟩ n = d.closeWindow p n := by
  simp [Device.react, Device.watch, Device.cutPulse]

end

/-- A window that closes with nothing latched. -/
theorem Device.closeWindow_empty (d : Device) (p n : Nat) (h : d.pend = []) : d.closeWindow p n = (d, n) := by
  cases d; simp only at h; subst h; rfl

/-- R133 outside a window: the device sees nothing. -/
theorem setDirection_idle {s : State} (h : s.bus.ce = false) (o : Bool) :
    s.setDirection o = { s with bus := { s.bus with dir := o }, trace := s.trace ++ [.dir o] } := by
  obtain ⟨cfg, ⟨al, dl, dr, ce, we, oe⟩, regs, flags, seq, dev, port, inputs, answers, trace, draws⟩ := s
  obtain rfl : ce = false := h
  simp [State.setDirection, State.drive]

/-! ### `READSEQ` -/

/-- A read window that opens and closes leaves nothing behind. -/
@[simp] theorem Device.openWindow_close (d : Device) (p n : Nat) :
    d.openWindow.closeWindow p n = (d.openWindow, n) := Device.closeWindow_empty _ p n rfl

/-- The sample a read at an address takes. -/
def State.readAt (s : State) (a : Nat) : Byte × Nat :=
  s.dev.openWindow.sample { s.bus with aLatch := clamp s.cfg a, dir := false, ce := true, oe := true } s.draws

/-- A defined device without a write cycle answers a read with the stored byte, and no free value is used. -/
theorem State.readAt_stored {s : State} (a : Nat) (h : s.linesIdle) (h1 : s.dev.undef = false) (h2 : s.dev.busy = false) :
    s.readAt a = (s.dev.stored (clamp s.cfg a), s.draws) := by
  obtain ⟨-, hwe, -⟩ := h
  simp [State.readAt, Device.sample, Device.drive, Device.openWindow, Device.stored, h1, h2, hwe]

/-- R161: a read at `T_ADDR` from idle lines: seven steps, the last with the return. -/
theorem readSeq_run {i : Instr} (hr : Runs i readSeq) {s : State} (hb : s.flags.busy = true) (hph : s.seq.ph = .rs0)
    (hl : s.linesIdle) :
    execTimes 7 i s = readReturn { s with
        bus := { s.bus with aLatch := clamp s.cfg s.seq.tAddr, dir := false }
        dev := s.dev.openWindow
        regs := { s.regs with rdata := (s.readAt s.seq.tAddr).1 }
        draws := (s.readAt s.seq.tAddr).2
        seq := { s.seq with ph := .rs6 }
        trace := s.trace ++ readEvents (clamp s.cfg s.seq.tAddr) (s.readAt s.seq.tAddr).1 } := by
  obtain ⟨cfg, ⟨al, dl, dr, ce, we, oe⟩, regs, flags, seq, dev, port, inputs, answers, trace, draws⟩ := s
  obtain ⟨rfl, rfl, rfl⟩ : ce = false ∧ we = false ∧ oe = false := hl
  refine (hr.step hb (by rw [Proc.at, hph]; exact rfl)).trans ?_
  iterate 5 refine (hr.step (by exact hb) (by exact rfl)).trans ?_
  rw [execTimes_one]
  refine (hr.exec (by exact hb) (by exact rfl)).trans ?_
  simp [State.setAddress, State.setDirection, State.driveCE, State.driveOE, State.drive, State.readData, State.goto,
    readEvents, State.readAt]

/-! ### `POLL` -/

/-- The sample a poll takes. -/
def State.pollSample (s : State) : Byte × Nat :=
  s.dev.openWindow.sample ⟨s.bus.aLatch, s.bus.dLatch, false, true, false, true⟩ s.draws

/-- R165: one sample of the polling loop from idle lines with the bus turned around: five steps, the last with the decision. -/
theorem poll_run {i : Instr} (hr : Runs i poll) {s : State} (hb : s.flags.busy = true) (hph : s.seq.ph = .pl1)
    (hl : s.linesIdle) (hdir : s.bus.dir = false) :
    execTimes 5 i s = pollDecide { s with
        dev := s.dev.openWindow
        regs := { s.regs with rdata := s.pollSample.1 }
        draws := s.pollSample.2
        seq := { s.seq with ph := .pl5 }
        trace := s.trace ++ pollEvents s.pollSample.1 } := by
  obtain ⟨cfg, ⟨al, dl, dr, ce, we, oe⟩, regs, flags, seq, dev, port, inputs, answers, trace, draws⟩ := s
  obtain ⟨rfl, rfl, rfl⟩ : ce = false ∧ we = false ∧ oe = false := hl
  obtain rfl : dr = false := hdir
  refine (hr.step hb (by rw [Proc.at, hph]; exact rfl)).trans ?_
  iterate 3 refine (hr.step (by exact hb) (by exact rfl)).trans ?_
  rw [execTimes_one]
  refine (hr.exec (by exact hb) (by exact rfl)).trans ?_
  simp [State.driveCE, State.driveOE, State.drive, State.readData, State.goto, pollEvents, State.pollSample]

/-! ### The write sequence of `writeByte` -/

/-- What a window with one pulse leaves of the device. -/
def Device.onePulse (d : Device) (p a : Nat) (b : Byte) (n : Nat) : Reacted :=
  let r := d.openWindow.latch ⟨a, b, true, true, true, false⟩ n
  r.1.closeWindow p r.2

/-- R163: the write sequence from idle lines: seven steps, one pulse in one window. -/
theorem writeSeq_run {i : Instr} (hr : Runs i writeSeq) {s : State} (hb : s.flags.busy = true) (hph : s.seq.ph = .wb0)
    (hl : s.linesIdle) :
    execTimes 7 i s = .next { s with
      bus := { s.bus with aLatch := clamp s.cfg s.addrOperand, dLatch := s.byteOperand, dir := true }
      dev := (s.dev.onePulse s.cfg.pageSize (clamp s.cfg s.addrOperand) s.byteOperand s.draws).1
      draws := (s.dev.onePulse s.cfg.pageSize (clamp s.cfg s.addrOperand) s.byteOperand s.draws).2
      seq := { s.seq with expect := s.byteOperand, pollCnt := 0, retT := .finish, ph := .pl0 }
      trace := s.trace ++ [.addr (clamp s.cfg s.addrOperand), .dir true, .data s.byteOperand, .ce true, .we true,
        .we false, .ce false] } := by
  obtain ⟨cfg, ⟨al, dl, dr, ce, we, oe⟩, regs, flags, seq, dev, port, inputs, answers, trace, draws⟩ := s
  obtain ⟨rfl, rfl, rfl⟩ : ce = false ∧ we = false ∧ oe = false := hl
  refine (hr.step hb (by rw [Proc.at, hph]; exact rfl)).trans ?_
  iterate 5 refine (hr.step (by exact hb) (by exact rfl)).trans ?_
  refine (hr.step (by exact hb) (by exact rfl)).trans ?_
  simp [State.setAddress, State.setDirection, State.setData, State.driveCE, State.driveWE, State.drive, State.goto,
    startPoll, execTimes, Device.onePulse, State.addrOperand, State.byteOperand]

/-! ### Windows of pulses -/

/-- The device after the pulses of a list, in an open window. -/
def Device.pulses (d : Device) (n : Nat) : List Host.Cell → Reacted
  | [] => (d, n)
  | c :: rest =>
    let r := d.latch ⟨c.1, c.2, true, true, true, false⟩ n
    r.1.pulses r.2 rest

theorem Device.pulses_append (d : Device) (n : Nat) (cs es : List Host.Cell) :
    d.pulses n (cs ++ es) = (d.pulses n cs).1.pulses (d.pulses n cs).2 es := by
  induction cs generalizing d n with
  | nil => rfl
  | cons c cs ih => exact ih _ _

/-- An idle device latches every pulse. -/
theorem Device.pulses_idle (d : Device) (n : Nat) (cs : List Host.Cell) (h : d.busy = false) :
    d.pulses n cs = ({ d with pend := d.pend ++ cs, last := cs.getLast?.or d.last }, n) := by
  induction cs generalizing d with
  | nil => simp [Device.pulses]
  | cons c cs ih =>
    have hl : d.latch ⟨c.1, c.2, true, true, true, false⟩ n = ({ d with pend := d.pend ++ [c], last := some c }, n) := by
      simp [Device.latch, latchedByte, h]
    simp only [Device.pulses, hl]
    rw [ih { d with pend := d.pend ++ [c], last := some c } h]
    cases cs <;> simp [List.getLast?_cons]

/-- R74: what no pulse touches. -/
theorem Device.pulses_kept (d : Device) (n : Nat) (cs : List Host.Cell) : d.Kept (d.pulses n cs).1 := by
  induction cs generalizing d n with
  | nil => exact .refl d
  | cons c cs ih => exact (d.latch_kept _ n).trans (ih _ _)

/-- What a whole window of pulses leaves of the device. -/
def Device.window (d : Device) (p n : Nat) (cs : List Host.Cell) : Reacted :=
  let r := d.openWindow.pulses n cs
  r.1.closeWindow p r.2

theorem Device.window_idle (d : Device) (p n : Nat) (cs : List Host.Cell) (h : d.busy = false) :
    d.window p n cs =
      ({ d with pend := cs, last := cs.getLast?.or d.last, contended := false } : Device).closeWindow p n := by
  simp only [Device.window, Device.pulses_idle d.openWindow n cs h]
  rfl

theorem Device.window_kept (d : Device) (p n : Nat) (cs : List Host.Cell) : d.Kept (d.window p n cs).1 :=
  (d.openWindow_kept.trans (Device.pulses_kept _ n cs)).trans (Device.closeWindow_kept _ p _)

/-- R193: one pulse of a page: four steps. -/
theorem pagePulse_run {i : Instr} (hr : Runs i pageWrite) {s : State} (hb : s.flags.busy = true)
    (hph : s.seq.ph = .wp3) (hdir : s.bus.dir = true) (hce : s.bus.ce = true) (hwe : s.bus.we = false)
    (hoe : s.bus.oe = false) :
    execTimes 4 i s = .next (nextPulse { s with
      bus := { s.bus with aLatch := clamp s.cfg (s.seq.pgBase + s.seq.idx), dLatch := s.pageByte s.seq.idx }
      dev := (s.dev.latch ⟨clamp s.cfg (s.seq.pgBase + s.seq.idx), s.pageByte s.seq.idx, true, true, true, false⟩ s.draws).1
      draws := (s.dev.latch ⟨clamp s.cfg (s.seq.pgBase + s.seq.idx), s.pageByte s.seq.idx, true, true, true, false⟩ s.draws).2
      trace := s.trace ++ pulseEvents (clamp s.cfg (s.seq.pgBase + s.seq.idx), s.pageByte s.seq.idx)
      seq := { s.seq with ph := .wp6 } }) := by
  obtain ⟨cfg, ⟨al, dl, dr, ce, we, oe⟩, regs, flags, seq, dev, port, inputs, answers, trace, draws⟩ := s
  obtain rfl : dr = true := hdir
  obtain rfl : ce = true := hce
  obtain rfl : we = false := hwe
  obtain rfl : oe = false := hoe
  refine (hr.step hb (by rw [Proc.at, hph]; exact rfl)).trans ?_
  iterate 2 refine (hr.step (by exact hb) (by exact rfl)).trans ?_
  refine (hr.step (by exact hb) (by exact rfl)).trans ?_
  simp [State.setAddress, State.setData, State.driveWE, State.drive, State.goto, execTimes, pulseEvents, State.pageByte]

/-- R222: one pulse of a protection table: four steps. -/
theorem protPulse_run {i : Instr} {table : List Host.Cell} (hr : Runs i (protSeq table)) {s : State}
    (hb : s.flags.busy = true) (hph : s.seq.ph = .ps2) (hdir : s.bus.dir = true) (hce : s.bus.ce = true)
    (hwe : s.bus.we = false) (hoe : s.bus.oe = false) :
    execTimes 4 i s = .next (nextEntry table { s with
      bus := { s.bus with aLatch := clamp s.cfg (tableEntry table s.seq.idx).1, dLatch := (tableEntry table s.seq.idx).2 }
      dev := (s.dev.latch ⟨clamp s.cfg (tableEntry table s.seq.idx).1, (tableEntry table s.seq.idx).2, true, true, true, false⟩ s.draws).1
      draws := (s.dev.latch ⟨clamp s.cfg (tableEntry table s.seq.idx).1, (tableEntry table s.seq.idx).2, true, true, true, false⟩ s.draws).2
      trace := s.trace ++ pulseEvents (clamp s.cfg (tableEntry table s.seq.idx).1, (tableEntry table s.seq.idx).2)
      seq := { s.seq with ph := .ps5 } }) := by
  obtain ⟨cfg, ⟨al, dl, dr, ce, we, oe⟩, regs, flags, seq, dev, port, inputs, answers, trace, draws⟩ := s
  obtain rfl : dr = true := hdir
  obtain rfl : ce = true := hce
  obtain rfl : we = false := hwe
  obtain rfl : oe = false := hoe
  refine (hr.step hb (by rw [Proc.at, hph]; exact rfl)).trans ?_
  iterate 2 refine (hr.step (by exact hb) (by exact rfl)).trans ?_
  refine (hr.step (by exact hb) (by exact rfl)).trans ?_
  simp [State.setAddress, State.setData, State.driveWE, State.drive, State.goto, execTimes, pulseEvents]

/-- The pairs of a page from index `j` on. -/
def State.cellsFrom (s : State) (j m : Nat) : List Host.Cell :=
  (List.range' j m).map fun k => (s.seq.pgBase + k, s.pageByte k)

theorem State.cellsFrom_zero (s : State) (n : Nat) : s.cellsFrom 0 n = s.pageCells s.seq.pgBase n := by
  simp [State.cellsFrom, State.pageCells, List.range_eq_range']

/-- R193: the pulses of a page that are left, `4` steps each. -/
theorem pagePulses_run {i : Instr} (hr : Runs i pageWrite) (m : Nat) {s : State} (hb : s.flags.busy = true)
    (hph : s.seq.ph = .wp3) (hdir : s.bus.dir = true) (hce : s.bus.ce = true) (hwe : s.bus.we = false)
    (hoe : s.bus.oe = false) (hm : s.seq.idx + (m + 1) = s.seq.pgLen)
    (hmax : s.seq.pgBase + s.seq.pgLen - 1 ≤ s.cfg.maxAddr) :
    execTimes (4 * (m + 1)) i s = .next { s with
      bus := { s.bus with aLatch := s.seq.pgBase + s.seq.pgLen - 1, dLatch := s.pageByte (s.seq.pgLen - 1) }
      dev := (s.dev.pulses s.draws (s.cellsFrom s.seq.idx (m + 1))).1
      draws := (s.dev.pulses s.draws (s.cellsFrom s.seq.idx (m + 1))).2
      trace := s.trace ++ (s.cellsFrom s.seq.idx (m + 1)).flatMap pulseEvents
      seq := { s.seq with idx := s.seq.pgLen, ph := .wp7 } } := by
  induction m generalizing s with
  | zero =>
    have hc : clamp s.cfg (s.seq.pgBase + s.seq.idx) = s.seq.pgBase + s.seq.idx := by
      simp only [clamp]; omega
    refine (pagePulse_run hr hb hph hdir hce hwe hoe).trans ?_
    have h3 : s.seq.pgLen = s.seq.idx + 1 := by omega
    simp [nextPulse, State.goto, State.cellsFrom, Device.pulses, h3, hc]
  | succ m ih =>
    have hc : clamp s.cfg (s.seq.pgBase + s.seq.idx) = s.seq.pgBase + s.seq.idx := by
      simp only [clamp]; omega
    rw [show 4 * (m + 1 + 1) = 4 + 4 * (m + 1) by omega]
    refine execTimes_trans (pagePulse_run hr hb hph hdir hce hwe hoe) ?_
    have h1 : s.seq.idx + 1 < s.seq.pgLen := by omega
    rw [nextPulse]
    dsimp only
    rw [if_pos h1, hc]
    refine (ih (by exact hb) (by exact rfl) (by exact hdir) (by exact hce) (by exact hwe) (by exact hoe)
      (by simp; omega) (by exact hmax)).trans ?_
    simp [State.goto, State.cellsFrom, State.pageByte, List.range'_succ, Device.pulses]

/-- R193: the write phase of an attempt from idle lines: `3 + 4n` steps, one window. -/
theorem pageWrite_run {i : Instr} (hr : Runs i pageWrite) {s : State} {n : Nat} (hb : s.flags.busy = true)
    (hph : s.seq.ph = .wp1) (hl : s.linesIdle) (hn : s.seq.pgLen = n) (h1 : 1 ≤ n)
    (hmax : s.seq.pgBase + n - 1 ≤ s.cfg.maxAddr) :
    execTimes (3 + 4 * n) i s = .next { s with
      bus := { s.bus with aLatch := s.seq.pgBase + n - 1, dLatch := s.pageByte (n - 1), dir := true }
      regs := { s.regs with attempts := saturatingSucc s.regs.attempts }
      dev := (s.dev.window s.cfg.pageSize s.draws (s.pageCells s.seq.pgBase n)).1
      draws := (s.dev.window s.cfg.pageSize s.draws (s.pageCells s.seq.pgBase n)).2
      trace := s.trace ++ windowEvents (s.pageCells s.seq.pgBase n)
      seq := { s.seq with
        idx := n, expect := s.pageByte (n - 1), pollCnt := 0, retT := .afterPoll, ph := .pl0 } } := by
  subst hn
  obtain ⟨m, hm⟩ : ∃ m, s.seq.pgLen = m + 1 := ⟨s.seq.pgLen - 1, by omega⟩
  obtain ⟨cfg, ⟨al, dl, dr, ce, we, oe⟩, regs, flags, seq, dev, port, inputs, answers, trace, draws⟩ := s
  obtain ⟨rfl, rfl, rfl⟩ : ce = false ∧ we = false ∧ oe = false := hl
  rw [show 3 + 4 * seq.pgLen = (4 * (m + 1) + 1) + 2 by simp at hm; omega]
  refine (hr.step hb (by rw [Proc.at, hph]; exact rfl)).trans ?_
  refine (hr.step (by exact hb) (by exact rfl)).trans ?_
  refine execTimes_trans (pagePulses_run hr m (by exact hb) (by exact rfl) (by exact rfl) (by exact rfl) (by exact rfl)
    (by exact rfl) (by simpa using hm.symm) (by exact hmax)) ?_
  refine (hr.step (by exact hb) (by exact rfl)).trans ?_
  simp only at hm
  simp [State.setDirection, State.driveCE, State.drive, State.goto, countAttempt, startPoll, execTimes, windowEvents,
    Device.window, State.cellsFrom, State.pageCells, State.pageByte, hm, List.range_eq_range']

/-! ### The protection sequencer -/

/-- R222: the pulses of a table that are left, `4` steps each. -/
theorem protPulses_run {i : Instr} {table : List Host.Cell} (hr : Runs i (protSeq table)) (rest : List Host.Cell)
    (c : Host.Cell) {s : State} (hb : s.flags.busy = true) (hph : s.seq.ph = .ps2) (hdir : s.bus.dir = true)
    (hce : s.bus.ce = true) (hwe : s.bus.we = false) (hoe : s.bus.oe = false)
    (hm : table.drop s.seq.idx = c :: rest) (hmax : ∀ e ∈ table, e.1 ≤ s.cfg.maxAddr) :
    execTimes (4 * (rest.length + 1)) i s = .next { s with
      bus := { s.bus with
        aLatch := ((c :: rest).getLast (by simp)).1, dLatch := ((c :: rest).getLast (by simp)).2 }
      dev := (s.dev.pulses s.draws (c :: rest)).1
      draws := (s.dev.pulses s.draws (c :: rest)).2
      trace := s.trace ++ (c :: rest).flatMap pulseEvents
      seq := { s.seq with idx := table.length, ph := .ps6 } } := by
  induction rest generalizing s c with
  | nil =>
    have hlen : table.length = s.seq.idx + 1 := by
      have := congrArg List.length hm; simp at this; omega
    have hat : tableEntry table s.seq.idx = c := by
      have := congrArg (fun l => l.head?) hm
      simp only [List.head?_drop, List.head?_cons] at this
      simp [tableEntry, List.getD, this]
    have hcl : clamp s.cfg c.1 = c.1 := by
      have := hmax c (List.mem_of_mem_drop (hm ▸ List.mem_cons_self)); simp only [clamp]; omega
    refine (protPulse_run hr hb hph hdir hce hwe hoe).trans ?_
    simp [nextEntry, State.goto, Device.pulses, hlen, hat, hcl]
  | cons e rest ih =>
    have hlen : s.seq.idx + 1 < table.length := by
      have := congrArg List.length hm; simp at this; omega
    have hat : tableEntry table s.seq.idx = c := by
      have := congrArg (fun l => l.head?) hm
      simp only [List.head?_drop, List.head?_cons] at this
      simp [tableEntry, List.getD, this]
    have hcl : clamp s.cfg c.1 = c.1 := by
      have := hmax c (List.mem_of_mem_drop (hm ▸ List.mem_cons_self)); simp only [clamp]; omega
    have hm' : table.drop (s.seq.idx + 1) = e :: rest := by
      rw [← List.tail_drop, hm]; rfl
    rw [show 4 * ((e :: rest).length + 1) = 4 + 4 * (rest.length + 1) by simp; omega]
    refine execTimes_trans (protPulse_run hr hb hph hdir hce hwe hoe) ?_
    rw [nextEntry]
    dsimp only
    rw [if_pos hlen, hat, hcl]
    refine (ih e (by exact hb) (by exact rfl) (by exact hdir) (by exact hce) (by exact hwe) (by exact hoe)
      (by simpa using hm') (by exact hmax)).trans ?_
    simp [State.goto, Device.pulses]

/-- R222, R224: what is left of the settle delay, a step a tick, then `finish(1)`. -/
theorem settle_run {i : Instr} {table : List Host.Cell} (hr : Runs i (protSeq table)) (n : Nat) {s : State}
    (hb : s.flags.busy = true) (hph : s.seq.ph = .ps7) (hn : s.seq.settleCnt = n + 1) :
    execTimes (n + 1) i s = .next { s with
      flags := { s.flags with busy := false, ok := true }
      trace := s.trace ++ List.replicate (n + 1) .settle
      seq := { s.seq with settleCnt := 0, ph := .idle } } := by
  induction n generalizing s with
  | zero =>
    refine (hr.step hb (by rw [Proc.at, hph]; exact rfl)).trans ?_
    simp [settleTick, hn, State.finish, execTimes]
  | succ n ih =>
    refine (hr.step hb (by rw [Proc.at, hph]; exact rfl)).trans ?_
    have h : ¬ s.seq.settleCnt - 1 = 0 := by omega
    rw [settleTick]
    dsimp only
    rw [if_neg h]
    refine (ih (by exact hb) (by exact rfl) (by simp; omega)).trans ?_
    simp [State.goto, List.replicate_succ]

/-- R222: a protection table sent from idle lines, and its settle delay. -/
theorem protSeq_run {i : Instr} {table : List Host.Cell} (hr : Runs i (protSeq table)) {s : State}
    (hb : s.flags.busy = true) (hph : s.seq.ph = .ps0) (hl : s.linesIdle) (hne : table ≠ [])
    (hmax : ∀ e ∈ table, e.1 ≤ s.cfg.maxAddr) :
    execTimes (3 + 4 * table.length + s.cfg.settleTicks) i s = .next { s with
      bus := { s.bus with aLatch := (table.getLast hne).1, dLatch := (table.getLast hne).2, dir := true }
      flags := { s.flags with busy := false, ok := true }
      dev := (s.dev.window s.cfg.pageSize s.draws table).1
      draws := (s.dev.window s.cfg.pageSize s.draws table).2
      trace := s.trace ++ windowEvents table ++ List.replicate s.cfg.settleTicks .settle
      seq := { s.seq with idx := table.length, settleCnt := 0, ph := .idle } } := by
  obtain ⟨c, rest, hcr⟩ : ∃ c rest, table = c :: rest := List.exists_cons_of_ne_nil hne
  have hlen : table.length = rest.length + 1 := by rw [hcr]; rfl
  obtain ⟨cfg, ⟨al, dl, dr, ce, we, oe⟩, regs, flags, seq, dev, port, inputs, answers, trace, draws⟩ := s
  obtain ⟨rfl, rfl, rfl⟩ : ce = false ∧ we = false ∧ oe = false := hl
  rw [show 3 + 4 * table.length + cfg.settleTicks = (4 * (rest.length + 1) + (cfg.settleTicks + 1)) + 2 by omega]
  refine (hr.step hb (by rw [Proc.at, hph]; exact rfl)).trans ?_
  refine (hr.step (by exact hb) (by exact rfl)).trans ?_
  refine execTimes_trans (protPulses_run hr rest c (by exact hb) (by exact rfl) (by exact rfl) (by exact rfl)
    (by exact rfl) (by exact rfl) (by simpa using hcr) (by exact hmax)) ?_
  refine (hr.step (by exact hb) (by exact rfl)).trans ?_
  rw [startSettle]
  dsimp only
  split
  · rename_i h
    replace h : cfg.settleTicks = 0 := h
    simp [State.setDirection, State.driveCE, State.drive, State.goto, State.finish, execTimes, windowEvents, Device.window,
      h, hcr]
  · rename_i h
    replace h : cfg.settleTicks ≠ 0 := h
    obtain ⟨n, hn⟩ : ∃ n, cfg.settleTicks = n + 1 := ⟨cfg.settleTicks - 1, by omega⟩
    rw [hn]
    refine (settle_run hr n (by exact hb) (by exact rfl) (by exact hn)).trans ?_
    simp [State.setDirection, State.driveCE, State.drive, State.goto, windowEvents, Device.window, hcr, hn]

end Sys2Proof.Machine
end

