-- ==== Sys2Proof/Laws/Attempts.lean ====
section
/-! SUPPORT. Whole attempts of the page writer, and polling a device whose write cycle runs. -/

namespace Sys2Proof.Machine

/-- R195, R196: the read-back of a page the device holds, to its return. -/
theorem readBack_matches {i : Instr} (hr : Runs i readSeq) (m : Nat) : ∀ s : State, s.flags.busy = true → s.seq.ph = .rs0 → s.linesIdle →
    s.seq.retT = .check → s.seq.idx + (m + 1) = s.seq.pgLen → s.seq.tAddr = s.seq.pgBase + s.seq.idx →
    s.seq.pgBase + s.seq.pgLen - 1 ≤ s.cfg.maxAddr → s.dev.busy = false → s.dev.undef = false → s.flags.pollOk = true →
    (∀ j, j < s.seq.pgLen → s.dev.stored (s.seq.pgBase + j) = s.pageByte j) →
    ∃ tr, execTimes (7 * (m + 1)) i s = .next (wpReturn true { s with
      bus := { s.bus with aLatch := s.seq.pgBase + s.seq.pgLen - 1, dir := false }
      dev := s.dev.openWindow
      regs := { s.regs with rdata := s.pageByte (s.seq.pgLen - 1) }
      flags := { s.flags with verifyOk := true }
      trace := tr
      seq := { s.seq with idx := s.seq.pgLen, tAddr := s.seq.pgBase + s.seq.pgLen - 1, ph := .rs6 } }) := by
  induction m with
  | zero =>
    intro s hb hph hl hrt hidx hta hmax hd hu hp hst
    have h7 := readSeq_run hr hb hph hl
    rw [readReturn_check (by exact hrt), State.readAt_stored _ hl hu hd] at h7
    have hc : clamp s.cfg s.seq.tAddr = s.seq.pgBase + s.seq.idx := by rw [hta, clamp]; omega
    rw [hc, hst _ (by omega)] at h7
    rw [checkByte_last (by rfl) (by simp; omega), decideAttempt_ok (by exact hp) rfl] at h7
    refine ⟨s.trace ++ readEvents (s.seq.pgBase + s.seq.idx) (s.pageByte s.seq.idx), h7.trans ?_⟩
    have h3 : s.seq.pgLen = s.seq.idx + 1 := by omega
    simp [State.setVerifyOk, h3, ← hta]
  | succ m ih =>
    intro s hb hph hl hrt hidx hta hmax hd hu hp hst
    have h7 := readSeq_run hr hb hph hl
    rw [readReturn_check (by exact hrt), State.readAt_stored _ hl hu hd] at h7
    have hc : clamp s.cfg s.seq.tAddr = s.seq.pgBase + s.seq.idx := by rw [hta, clamp]; omega
    rw [hc, hst _ (by omega)] at h7
    rw [checkByte_goesOn (by rfl) (by simp; omega)] at h7
    obtain ⟨t1, ht1, h7⟩ : ∃ t1, t1 = _ ∧ execTimes 7 i s = .next t1 := ⟨_, rfl, h7⟩
    obtain ⟨tr, htr⟩ := ih t1 (by rw [ht1]; exact hb) (by rw [ht1]) (by rw [ht1]; exact hl) (by rw [ht1]; exact hrt) (by rw [ht1]; simp; omega) (by rw [ht1]) (by rw [ht1]; exact hmax) (by rw [ht1]; exact hd) (by rw [ht1]; exact hu) (by rw [ht1]; exact hp) (by rw [ht1]; exact hst)
    refine ⟨tr, ?_⟩
    rw [show 7 * (m + 1 + 1) = 7 + 7 * (m + 1) by omega]
    refine (execTimes_trans h7 htr).trans ?_
    rw [ht1]
    rfl

/-- Page addresses rise by one, so no page is a protection sequence. -/
theorem pageCells_no_sequence (s : State) (a n : Nat) : s.pageCells a n ≠ unlockSeq ∧ s.pageCells a n ≠ lockSeq := by
  have h0 : ∀ c : Host.Cell, c.1 = 0x5555 → ∀ d : Host.Cell, d.1 = 0x2AAA → ∀ r, s.pageCells a n ≠ c :: d :: r := by
    intro c hc d hd r h
    have e0 := congrArg (fun l => l[0]?.map Prod.fst) h
    have e1 := congrArg (fun l => l[1]?.map Prod.fst) h
    simp [State.pageCells, hc, hd] at e0 e1
    obtain ⟨x, hx, hxa⟩ := e0
    obtain ⟨y, hy, hya⟩ := e1
    by_cases h1 : 1 < n
    · have : 0 < n := by omega
      simp [h1, this] at hx hy
      omega
    · simp [h1] at hy
  exact ⟨h0 _ rfl _ rfl _, h0 _ rfl _ rfl _⟩

/-- R165, R195: a poll whose first sample matches, to the start of the read-back. -/
theorem poll_matches {i : Instr} (hr : Runs i poll) {s : State} (hb : s.flags.busy = true) (hph : s.seq.ph = .pl0) (hl : s.linesIdle)
    (hrt : s.seq.retT = .afterPoll) (hd : s.dev.busy = false) (hu : s.dev.undef = false) (he : s.dev.stored s.bus.aLatch = s.seq.expect) :
    ∃ tr, execTimes 6 i s = .next { s with
      bus := { s.bus with dir := false }
      dev := s.dev.openWindow
      regs := { s.regs with rdata := s.seq.expect }
      flags := { s.flags with pollOk := true }
      trace := tr
      seq := { s.seq with pollCnt := s.seq.pollCnt + 1, idx := 0, tAddr := s.seq.pgBase, retT := .check, ph := .rs0 } } := by
  have hx := setDirection_idle hl.1 false
  have hp0 : execTimes (5 + 1) i s = execTimes 5 i ((s.setDirection false).goto .pl1) := hr.step hb (by rw [Proc.at, hph]; exact rfl)
  rw [hx] at hp0
  have hp1 := poll_run hr (s := State.goto { s with bus := { s.bus with dir := false }, trace := s.trace ++ [.dir false] } .pl1) hb rfl hl rfl
  have hs : (State.goto { s with bus := { s.bus with dir := false }, trace := s.trace ++ [.dir false] } .pl1).pollSample = (s.seq.expect, s.draws) := by
    rw [State.pollSample]
    simp [Device.sample, Device.drive, Device.openWindow, hu, hd, Device.stored, State.goto] at he ⊢
    exact he
  rw [hs, pollDecide_eq, if_pos (by rfl), pollReturn_afterPoll _ (by exact hrt)] at hp1
  exact ⟨_, hp0.trans hp1⟩

/-- R199 (f): an attempt on a protected device that already holds the page. -/
theorem protected_attempt_matches {i : Instr} (hi : i.pages) {s : State} {n : Nat} (hb : s.flags.busy = true)
    (hph : s.seq.ph = .wp1) (hl : s.linesIdle) (hn : s.seq.pgLen = n) (h1 : 1 ≤ n)
    (hmax : s.seq.pgBase + n - 1 ≤ s.cfg.maxAddr) (hd : s.dev.busy = false) (hu : s.dev.undef = false) (hp : s.dev.prot = true)
    (hst : ∀ j, j < n → s.dev.stored (s.seq.pgBase + j) = s.pageByte j) :
    ∃ tr lst, execTimes ((3 + 4 * n) + 6 + 7 * n) i s = .next (wpReturn true { s with
      bus := { s.bus with aLatch := s.seq.pgBase + n - 1, dLatch := s.pageByte (n - 1), dir := false }
      dev := { s.dev with pend := [], last := lst, contended := false }
      regs := { s.regs with attempts := saturatingSucc s.regs.attempts, rdata := s.pageByte (n - 1) }
      flags := { s.flags with pollOk := true, verifyOk := true }
      trace := tr
      seq := { s.seq with expect := s.pageByte (n - 1), pollCnt := 1, idx := n, tAddr := s.seq.pgBase + n - 1, retT := .check, ph := .rs6 } }) := by
  have hw := pageWrite_run (n := n) (pages_run_pageWrite hi) hb hph hl hn h1 hmax
  have hne : s.pageCells s.seq.pgBase n ≠ [] := by simp [State.pageCells]; omega
  have hwin : (s.dev.window s.cfg.pageSize s.draws (s.pageCells s.seq.pgBase n)) = ({ s.dev with pend := [], last := (s.pageCells s.seq.pgBase n).getLast?.or s.dev.last, contended := false }, s.draws) := by
    rw [Device.window_idle _ _ _ _ hd]
    obtain ⟨n1, n2⟩ := pageCells_no_sequence s s.seq.pgBase n
    simp [Device.closeWindow, hne, n1, n2, hp]
  rw [hwin] at hw
  generalize (s.pageCells s.seq.pgBase n).getLast?.or s.dev.last = lst at hw
  obtain ⟨tr1, hp⟩ := poll_matches (pages_run_poll hi) (s := { s with
      bus := { s.bus with aLatch := s.seq.pgBase + n - 1, dLatch := s.pageByte (n - 1), dir := true }
      regs := { s.regs with attempts := saturatingSucc s.regs.attempts }
      dev := { s.dev with pend := [], last := lst, contended := false }
      draws := s.draws
      trace := s.trace ++ windowEvents (s.pageCells s.seq.pgBase n)
      seq := { s.seq with
        idx := n, expect := s.pageByte (n - 1), pollCnt := 0, retT := .afterPoll, ph := .pl0 } }) hb rfl hl rfl hd hu (by
      have := hst (n - 1) (by omega)
      rw [show s.seq.pgBase + (n - 1) = s.seq.pgBase + n - 1 by omega] at this
      exact this)
  obtain ⟨m, hm⟩ : ∃ m, n = m + 1 := ⟨n - 1, by omega⟩
  obtain ⟨tr, hrb⟩ := readBack_matches (pages_run_readSeq hi) m { s with
      bus := { s.bus with aLatch := s.seq.pgBase + n - 1, dLatch := s.pageByte (n - 1), dir := false }
      dev := { s.dev with pend := [], last := lst, contended := false }
      regs := { s.regs with attempts := saturatingSucc s.regs.attempts, rdata := s.pageByte (n - 1) }
      flags := { s.flags with pollOk := true }
      trace := tr1
      seq := { s.seq with expect := s.pageByte (n - 1), pollCnt := 0 + 1, idx := 0, tAddr := s.seq.pgBase, retT := .check, ph := .rs0 } }
    hb rfl hl rfl (by simp [hn, hm]) (by simp) (by simpa [hn] using hmax) hd hu rfl (by intro j hj; exact hst j (by rw [← hn]; exact hj))
  rw [← hm] at hrb
  have run := execTimes_trans (execTimes_trans hw hp) hrb
  refine ⟨tr, lst, run.trans ?_⟩
  simp [Device.openWindow, hn, State.pageByte]

/-- R70, R166 (d): the status byte is never the byte written. -/
theorem statusByte_ne (last free : Byte) : statusByte last free ≠ last := by
  intro h
  have key : (statusByte last free).getLsbD 7 = !last.getLsbD 7 := by
    simp only [statusByte]; simp
  rw [h] at key
  cases hh : last.getLsbD 7 <;> rw [hh] at key <;> cases key

/-- R165, R166: `k` samples of a poll of `writeByte` while the write cycle runs, none of which matches. -/
theorem poll_while_busy (k : Nat) : ∀ s : State, s.flags.busy = true → s.seq.ph = .pl1 → s.linesIdle → s.bus.dir = false →
    s.dev.busy = true → s.dev.undef = false → s.dev.last = some (s.bus.aLatch, s.seq.expect) → s.dev.openWindow = s.dev →
    s.seq.pollCnt + k < s.cfg.pollBudget →
    ∃ v n tr, tr.length = s.trace.length + 5 * k ∧ execTimes (5 * k) .writebyte s = .next { s with regs := { s.regs with rdata := v }, draws := n, trace := tr, seq := { s.seq with pollCnt := s.seq.pollCnt + k } } := by
  induction k with
  | zero => intro s hb hph hl hd h1 h2 h3 h4 h5; exact ⟨s.regs.rdata, s.draws, s.trace, rfl, rfl⟩
  | succ k ih =>
    intro s hb hph hl hd h1 h2 h3 h4 h5
    have h := poll_run writebyte_runs_poll hb hph hl hd
    have hne : s.pollSample.1 ≠ s.seq.expect := by
      have : s.pollSample = (statusByte s.seq.expect (Config.freeByte s.draws), s.draws + 1) := by
        rw [State.pollSample, h4]
        simp [Device.sample, Device.drive, h1, h2, h3]
      rw [this]; exact statusByte_ne _ _
    rw [pollDecide_eq, if_neg (by exact hne), if_neg (by show ¬ s.seq.pollCnt + 1 = s.cfg.pollBudget; omega)] at h
    obtain ⟨v, n, tr, htr, hr⟩ := ih { s with regs := { s.regs with rdata := s.pollSample.1 }, draws := s.pollSample.2, trace := s.trace ++ pollEvents s.pollSample.1, seq := { s.seq with pollCnt := s.seq.pollCnt + 1 } }
      hb hph hl hd h1 h2 h3 h4 (by simp; omega)
    refine ⟨v, n, tr, ?_, ?_⟩
    · rw [htr]; simp [pollEvents]; omega
    · rw [show 5 * (k + 1) = 5 + 5 * k by omega]
      refine execTimes_trans (t := { s with regs := { s.regs with rdata := s.pollSample.1 }, draws := s.pollSample.2, trace := s.trace ++ pollEvents s.pollSample.1, seq := { s.seq with pollCnt := s.seq.pollCnt + 1 } }) ?_ ?_
      · rw [h, h4, ← hph]
      · rw [hr]; simp; omega


end Sys2Proof.Machine
end

