-- ==== Sys2Proof/Laws/ReadBack.lean ====
section
/-! SUPPORT. Where the page writer leaves the sequencer, and that every step keeps the read-back equal so far (R195, R196). -/

namespace Sys2Proof.Machine

/-- The labels the page writer's bookkeeping leads to from outside an attempt. -/
def AtRest (l : Label) : Prop := l = .idle ∨ l = .wp1 ∨ l = .ls0

theorem AtRest.not_reading {l : Label} (h : AtRest l) : ¬ l.reading := by
  rcases h with rfl | rfl | rfl <;> simp [Label.reading]

theorem atRest_wpCall {d : State → State} (hd : ∀ s, AtRest (d s).seq.ph) (s : State) : AtRest (wpCall d s).seq.ph := by
  unfold wpCall; split
  · exact .inr (.inl rfl)
  · exact hd _

theorem atRest_eraseBlock (s : State) : AtRest (eraseBlock s).seq.ph :=
  atRest_wpCall (d := fun s => s.finish false) (fun _ => .inl rfl) _

theorem atRest_eraseAfter (ok : Bool) (s : State) : AtRest (eraseAfter ok s).seq.ph := by
  unfold eraseAfter; dsimp only; split
  · exact atRest_eraseBlock _
  · exact .inl rfl

theorem atRest_loadAfter (ok : Bool) (s : State) : AtRest (loadAfter ok s).seq.ph := by
  unfold loadAfter; dsimp only; split
  · exact .inl rfl
  · exact .inr (.inr rfl)

theorem atRest_loadFlush (s : State) : AtRest (loadFlush s).seq.ph := atRest_wpCall (atRest_loadAfter _) _

theorem atRest_wpReturn (ok : Bool) (s : State) : AtRest (wpReturn ok s).seq.ph := by
  unfold wpReturn; split
  · exact .inl rfl
  · exact atRest_eraseAfter _ _
  · exact atRest_loadAfter _ _

theorem atRest_decideAttempt (s : State) : AtRest (decideAttempt s).seq.ph := by
  unfold decideAttempt
  repeat' split
  all_goals first | exact atRest_wpReturn _ _ | exact .inr (.inl rfl)

theorem atRest_streamStep {l : Label} {s t : State} {f : State → Result} (hf : streamStep l = some f) (hl : s.seq.ph = l)
    (h : f s = .next t) : AtRest t.seq.ph := by
  cases l <;> simp only [streamStep, Option.some.injEq, reduceCtorEq] at hf
  subst hf
  cases h
  split
  · unfold takeByte; dsimp only; split
    · exact atRest_loadFlush _
    · exact .inr (.inr rfl)
  · split
    · unfold takeEnd; dsimp only; split
      · exact atRest_loadFlush _
      · exact .inl rfl
    · exact .inr (.inr hl)

/-! ### The read-back -/

theorem readBack_of_not_reading {t : State} (h : ¬ t.seq.ph.reading) : t.readBack := fun hr => absurd hr h

theorem readBack_of_not_check {t : State} (h : t.seq.retT ≠ .check) : t.readBack := fun _ hc => absurd hc h

/-- The read-back speaks of the bus trace, the page, `RDATA` and the sequencer only. -/
theorem readBack_congr {s t : State} (h : s.readBack) (hq : t.seq = s.seq) (ht : t.trace = s.trace)
    (hr : t.regs.rdata = s.regs.rdata) (hb : s.seq.ph.reading → t.regs.pageBuf = s.regs.pageBuf) : t.readBack := by
  intro h1 h2
  rw [hq] at h1 h2
  have := h h1 h2
  simp only [State.readBackEvents, State.pageByte, hq, ht, hr, hb h1] at this ⊢
  exact this

/-- R196: one more byte read equal. -/
theorem readBackEvents_succ (s : State) (n : Nat) :
    s.readBackEvents (n + 1) = s.readBackEvents n ++ readEvents (s.seq.pgBase + n) (s.pageByte n) := by
  simp [State.readBackEvents, List.range_succ]

theorem pageWrite_readBack {s t : State} {f : State → Result} (hf : pageWrite s.seq.ph = some f) (h : f s = .next t) :
    t.readBack := by
  refine readBack_of_not_reading ?_
  cases hph : s.seq.ph <;> rw [hph] at hf <;> simp only [pageWrite, Option.some.injEq, reduceCtorEq] at hf <;> subst hf
  case wp6 =>
    cases h; unfold nextPulse; dsimp only
    split <;> simp [Label.reading]
  all_goals cases h; simp [Label.reading, startPoll]

theorem writeSeq_readBack {s t : State} {f : State → Result} (hf : writeSeq s.seq.ph = some f) (h : f s = .next t) :
    t.readBack := by
  refine readBack_of_not_reading ?_
  cases hph : s.seq.ph <;> rw [hph] at hf <;> simp only [writeSeq, Option.some.injEq, reduceCtorEq] at hf <;> subst hf
  all_goals cases h; simp [Label.reading, startPoll]

theorem protSeq_readBack {table : List Host.Cell} {s t : State} {f : State → Result}
    (hf : protSeq table s.seq.ph = some f) (h : f s = .next t) : t.readBack := by
  refine readBack_of_not_reading ?_
  cases hph : s.seq.ph <;> rw [hph] at hf <;> simp only [protSeq, Option.some.injEq, reduceCtorEq] at hf <;> subst hf
  case ps5 => cases h; unfold nextEntry; dsimp only; split <;> simp [Label.reading]
  case ps6 => cases h; unfold startSettle; dsimp only; split <;> simp [Label.reading]
  case ps7 => cases h; unfold settleTick; dsimp only; split <;> simp [Label.reading, hph]
  all_goals cases h; simp [Label.reading]

theorem primStep_readBack {g : State → State} {s t : State} {f : State → Result}
    (hf : primStep g s.seq.ph = some f) (h : f s = .next t) : t.readBack := by
  refine readBack_of_not_reading ?_
  cases hph : s.seq.ph <;> rw [hph] at hf <;> simp only [primStep, Option.some.injEq, reduceCtorEq] at hf
  subst hf
  cases h; simp [Label.reading]

theorem pollReturn_readBack {ok : Bool} {s t : State} (h : pollReturn ok s = .next t) : t.readBack := by
  cases hr : s.seq.retT with
  | finish =>
    rw [pollReturn_finish ok hr] at h; cases h
    exact readBack_of_not_reading (by simp [Label.reading])
  | afterPoll =>
    rw [pollReturn_afterPoll ok hr] at h; cases h
    exact fun _ _ => ⟨rfl, s.trace, by simp [State.readBackEvents, Label.readSteps]⟩
  | check => unfold pollReturn at h; dsimp only at h; rw [setPollOk_seq, hr] at h; cases h

theorem poll_readBack {s t : State} {f : State → Result} (hf : poll s.seq.ph = some f) (h : f s = .next t) :
    t.readBack := by
  cases hph : s.seq.ph <;> rw [hph] at hf <;> simp only [poll, Option.some.injEq, reduceCtorEq] at hf <;> subst hf
  case pl5 =>
    dsimp only at h
    rw [pollDecide_eq] at h
    split at h
    · exact pollReturn_readBack h
    · split at h
      · exact pollReturn_readBack h
      · cases h; exact readBack_of_not_reading (by simp [Label.reading])
  all_goals cases h; exact readBack_of_not_reading (by simp [Label.reading])

/-- R196: a byte compared: the next read begins with this one on the trace, or the read-back is over. -/
theorem checkByte_readBack {s : State}
    (h : ∃ before, s.trace = before ++ s.readBackEvents s.seq.idx ++ readEvents (s.seq.pgBase + s.seq.idx) s.regs.rdata) :
    (checkByte s).readBack := by
  by_cases he : s.regs.rdata = s.pageByte s.seq.idx
  · by_cases hl : s.seq.idx + 1 < s.seq.pgLen
    · rw [checkByte_goesOn he hl]
      obtain ⟨before, hb⟩ := h
      refine fun _ _ => ⟨rfl, before, ?_⟩
      show s.trace = before ++ s.readBackEvents (s.seq.idx + 1) ++ []
      rw [readBackEvents_succ, ← he, hb]
      simp
    · rw [checkByte_last he (Nat.le_of_not_lt hl)]
      exact readBack_of_not_reading (atRest_decideAttempt _).not_reading
  · rw [checkByte_differs he]
    exact readBack_of_not_reading (atRest_decideAttempt _).not_reading

theorem readSeq_readBack {s t : State} {f : State → Result} (hf : readSeq s.seq.ph = some f) (h : f s = .next t)
    (hrb : s.readBack) (hm : s.seq.retT = .check → s.seq.pgBase + s.seq.idx ≤ s.cfg.maxAddr) : t.readBack := by
  cases hrt : s.seq.retT with
  | finish =>
    cases hph : s.seq.ph <;> rw [hph] at hf <;> simp only [readSeq, Option.some.injEq, reduceCtorEq] at hf <;> subst hf
    case rs6 =>
      dsimp only at h
      rw [readReturn_finish (by exact hrt)] at h; cases h
      exact readBack_of_not_reading (by simp [Label.reading])
    all_goals cases h; exact readBack_of_not_check (by simp [hrt])
  | afterPoll =>
    cases hph : s.seq.ph <;> rw [hph] at hf <;> simp only [readSeq, Option.some.injEq, reduceCtorEq] at hf <;> subst hf
    case rs6 =>
      dsimp only [readReturn] at h
      rw [show (s.driveCE false).seq.retT = .afterPoll from hrt] at h; cases h
    all_goals cases h; exact readBack_of_not_check (by simp [hrt])
  | check =>
    have ha := hm hrt
    cases hph : s.seq.ph <;> rw [hph] at hf <;> simp only [readSeq, Option.some.injEq, reduceCtorEq] at hf <;> subst hf
    case rs6 =>
      dsimp only at h
      rw [readReturn_check (by exact hrt)] at h; cases h
      obtain ⟨-, before, hb⟩ := hrb (by simp [Label.reading, hph]) hrt
      refine checkByte_readBack ⟨before, ?_⟩
      rw [hph] at hb
      show s.trace ++ [.ce false] = before ++ s.readBackEvents s.seq.idx ++ _
      rw [hb]; simp [readEvents, Label.readSteps]
    all_goals
      obtain ⟨hT, before, hb⟩ := hrb (by simp [Label.reading, hph]) hrt
      rw [hph] at hb
      cases h
      refine fun _ _ => ⟨by simpa using hT, before, ?_⟩
      simp [State.readBackEvents, State.pageByte, hb, hT, readEvents, Label.readSteps, clamp, Nat.min_eq_left ha]

/-- R195, R196: a sequencer step keeps the read-back. -/
theorem exec_busy_readBack {i : Instr} {s t : State} (hb : s.flags.busy = true) (h : exec i s = .next t) (hrb : s.readBack)
    (hm : s.seq.ph.reading → s.seq.retT = .check → s.seq.pgBase + s.seq.idx ≤ s.cfg.maxAddr) : t.readBack := by
  rw [exec_busy i hb] at h
  obtain ⟨p, hp, f, hpf, hf⟩ := runProcs_next h
  have R : p = readSeq → t.readBack := by
    rintro rfl
    refine readSeq_readBack hpf hf hrb (hm ?_)
    cases hph : s.seq.ph <;> rw [hph] at hpf <;> simp only [readSeq, reduceCtorEq] at hpf <;> simp [Label.reading]
  cases i <;> simp only [procsOf, List.mem_cons, List.not_mem_nil, or_false] at hp
  case readbyte => exact R hp
  case writebyte =>
    rcases hp with rfl | rfl
    · exact writeSeq_readBack hpf hf
    · exact poll_readBack hpf hf
  case unlock => subst hp; exact protSeq_readBack hpf hf
  case lock => subst hp; exact protSeq_readBack hpf hf
  case writepage =>
    rcases hp with rfl | rfl | hp
    · exact pageWrite_readBack hpf hf
    · exact poll_readBack hpf hf
    · exact R hp
  case eraseall =>
    rcases hp with rfl | rfl | hp
    · exact pageWrite_readBack hpf hf
    · exact poll_readBack hpf hf
    · exact R hp
  case loadstream =>
    rcases hp with rfl | rfl | rfl | hp
    · exact readBack_of_not_reading (atRest_streamStep hpf rfl hf).not_reading
    · exact pageWrite_readBack hpf hf
    · exact poll_readBack hpf hf
    · exact R hp
  all_goals subst hp; exact primStep_readBack hpf hf

/-- R101: an accepted command is not in a read-back. -/
theorem startOf_readBack (i : Instr) (s : State) : (startOf i s).readBack := by
  cases i
  case readbyte => exact readBack_of_not_check (t := startReadbyte s) (by simp [startReadbyte])
  case writepage =>
    exact readBack_of_not_reading (atRest_wpCall (d := fun s => s.finish false) (fun _ => .inl rfl) _).not_reading
  case eraseall => exact readBack_of_not_reading (atRest_eraseBlock _).not_reading
  case loadstream =>
    show (startLoadstream s).readBack
    refine readBack_of_not_reading ?_
    unfold startLoadstream; dsimp only
    split <;> simp [Label.reading]
  case writebyte => exact readBack_of_not_reading (t := startWritebyte s) (by simp [startWritebyte, Label.reading])
  case unlock => exact readBack_of_not_reading (t := startProt s) (by simp [startProt, Label.reading])
  case lock => exact readBack_of_not_reading (t := startProt s) (by simp [startProt, Label.reading])
  all_goals exact readBack_of_not_reading (t := startPrim s) (by simp [startPrim, Label.reading])

end Sys2Proof.Machine
end

