-- ==== Sys2Proof/Laws/Discipline.lean ====
section
/-! SUPPORT. The bus discipline of composite commands (R25, R26, R311): each step of each procedure keeps the lines its label says. -/

namespace Sys2Proof.Machine

/-- A label whose lines are idle, with the bus in either direction. -/
def resting (l : Label) : Prop := l.lines = ⟨none, false, false, false⟩

theorem AtRest.resting {l : Label} (h : AtRest l) : resting l := by rcases h with rfl | rfl | rfl <;> rfl

theorem resting_checkByte (s : State) : resting (checkByte s).seq.ph := by
  unfold checkByte; split
  · exact (atRest_decideAttempt _).resting
  · dsimp only; split
    · rfl
    · exact (atRest_decideAttempt _).resting

theorem resting_readReturn {s t : State} (h : readReturn s = .next t) : resting t.seq.ph := by
  unfold readReturn at h; split at h <;> cases h
  · rfl
  · exact resting_checkByte _

theorem resting_startOf (i : Instr) (s : State) : resting (startOf i s).seq.ph := by
  cases i
  case writepage => exact (atRest_wpCall (d := fun s => s.finish false) (fun _ => .inl rfl) _).resting
  case eraseall => exact (atRest_eraseBlock _).resting
  case loadstream =>
    show resting (startLoadstream s).seq.ph
    unfold startLoadstream; dsimp only; split <;> rfl
  all_goals rfl

theorem resting_disciplined {t : State} (h : t.linesIdle) (hr : resting t.seq.ph) : t.disciplined := by
  unfold State.disciplined; rw [hr]; exact ⟨fun d h => by simp at h, h⟩

/-- A disciplined state has no write-enable with output-enable, and no two drivers of the data bus. -/
theorem disciplined_safe {t : State} (h : t.disciplined) :
    ¬ (t.bus.we = true ∧ t.bus.oe = true) ∧ ¬ (t.bus.dir = true ∧ t.bus.ce = true ∧ t.bus.oe = true) := by
  obtain ⟨h1, h2, h3, h4⟩ := h
  rw [h2, h3, h4]
  cases hh : t.seq.ph <;> simp only [hh, Label.lines] at * <;> simp at * <;> simp [h1]

theorem readSeq_disciplined {s t : State} {f} (hf : readSeq s.seq.ph = some f) (h : f s = .next t) (hd : s.disciplined) :
    t.disciplined := by
  obtain ⟨h1, h2, h3, h4⟩ := hd
  cases hph : s.seq.ph <;> rw [hph] at hf h1 h2 h3 h4 <;>
    simp only [readSeq, Option.some.injEq, reduceCtorEq] at hf <;> subst hf
  case rs6 =>
    have b := (readReturn_kept h).bus
    refine resting_disciplined ?_ (resting_readReturn h)
    unfold State.linesIdle; rw [b]; exact ⟨rfl, h3, h4⟩
  all_goals cases h; simp [State.disciplined, Label.lines] at *; simp [*]

theorem poll_disciplined {s t : State} {f} (hf : poll s.seq.ph = some f) (h : f s = .next t) (hd : s.disciplined) :
    t.disciplined := by
  obtain ⟨h1, h2, h3, h4⟩ := hd
  cases hph : s.seq.ph <;> rw [hph] at hf h1 h2 h3 h4 <;>
    simp only [poll, Option.some.injEq, reduceCtorEq] at hf <;> subst hf
  case pl5 =>
    have b := (pollDecide_kept h).bus
    have hbus : t.bus = { s.bus with ce := false } := b
    unfold State.disciplined
    rw [hbus]
    have h1' := h1 false rfl
    have hph : t.seq.ph = .idle ∨ t.seq.ph = .rs0 ∨ t.seq.ph = .pl1 := by
      unfold pollDecide pollReturn at h
      dsimp only at h
      repeat' split at h
      all_goals cases h <;> simp
    rcases hph with e | e | e <;> rw [e] <;> simp_all [Label.lines]
  all_goals cases h; simp [State.disciplined, Label.lines] at *; simp [*]

theorem writeSeq_disciplined {s t : State} {f} (hf : writeSeq s.seq.ph = some f) (h : f s = .next t) (hd : s.disciplined) :
    t.disciplined := by
  obtain ⟨h1, h2, h3, h4⟩ := hd
  cases hph : s.seq.ph <;> rw [hph] at hf h1 h2 h3 h4 <;>
    simp only [writeSeq, Option.some.injEq, reduceCtorEq] at hf <;> subst hf
  all_goals cases h; simp [State.disciplined, Label.lines] at *; simp [*]

theorem pageWrite_disciplined {s t : State} {f} (hf : pageWrite s.seq.ph = some f) (h : f s = .next t) (hd : s.disciplined) :
    t.disciplined := by
  obtain ⟨h1, h2, h3, h4⟩ := hd
  cases hph : s.seq.ph <;> rw [hph] at hf h1 h2 h3 h4 <;>
    simp only [pageWrite, Option.some.injEq, reduceCtorEq] at hf <;> subst hf
  case wp6 =>
    cases h; unfold nextPulse; dsimp only; split <;> (simp [State.disciplined, Label.lines] at *; simp [*])
  all_goals cases h; simp [State.disciplined, Label.lines] at *; simp [*]

theorem protSeq_disciplined {tb} {s t : State} {f} (hf : protSeq tb s.seq.ph = some f) (h : f s = .next t) (hd : s.disciplined) :
    t.disciplined := by
  obtain ⟨h1, h2, h3, h4⟩ := hd
  cases hph : s.seq.ph <;> rw [hph] at hf h1 h2 h3 h4 <;>
    simp only [protSeq, Option.some.injEq, reduceCtorEq] at hf <;> subst hf
  case ps5 =>
    cases h; unfold nextEntry; dsimp only; split <;> (simp [State.disciplined, Label.lines] at *; simp [*])
  case ps6 =>
    cases h; unfold startSettle; dsimp only; split <;> (simp [State.disciplined, Label.lines] at *; simp [*])
  case ps7 =>
    cases h; unfold settleTick; dsimp only; split <;> (simp [State.disciplined, Label.lines] at *; simp [*])
  all_goals cases h; simp [State.disciplined, Label.lines] at *; simp [*]

theorem stream_disciplined {s t : State} {f} (hf : streamStep s.seq.ph = some f) (h : f s = .next t) (hd : s.disciplined) :
    t.disciplined := by
  obtain ⟨hls, ht⟩ := streamStep_taken hf h
  have hl : s.linesIdle := by obtain ⟨h1, h2, h3, h4⟩ := hd; rw [hls] at h2 h3 h4; exact ⟨h2, h3, h4⟩
  refine resting_disciplined (by unfold State.linesIdle; rw [ht.bus]; exact hl) (atRest_streamStep hf rfl h).resting

/-- R25: a sequencer step of a composite command keeps the discipline. -/
theorem exec_disciplined {i : Instr} {s t : State} (hi : i.composite = true) (hb : s.flags.busy = true)
    (hd : s.disciplined) (h : exec i s = .next t) : t.disciplined := by
  rw [exec_busy i hb] at h
  obtain ⟨p, hpm, f, hpf, hf⟩ := runProcs_next h
  cases i <;> simp only [procsOf, List.mem_cons, List.not_mem_nil, or_false] at hpm <;> simp only [Instr.composite, Bool.false_eq_true] at hi
  case readbyte => subst hpm; exact readSeq_disciplined hpf hf hd
  case writebyte =>
    rcases hpm with rfl | rfl
    · exact writeSeq_disciplined hpf hf hd
    · exact poll_disciplined hpf hf hd
  case unlock => subst hpm; exact protSeq_disciplined hpf hf hd
  case lock => subst hpm; exact protSeq_disciplined hpf hf hd
  case loadstream =>
    rcases hpm with rfl | rfl | rfl | rfl
    · exact stream_disciplined hpf hf hd
    · exact pageWrite_disciplined hpf hf hd
    · exact poll_disciplined hpf hf hd
    · exact readSeq_disciplined hpf hf hd
  all_goals
    rcases hpm with rfl | rfl | rfl
    · exact pageWrite_disciplined hpf hf hd
    · exact poll_disciplined hpf hf hd
    · exact readSeq_disciplined hpf hf hd

/-- R108, R280: `BUSY = 0` only at `IDLE`. -/
def Closed (t : State) : Prop := t.flags.busy = false → t.seq.ph = .idle

theorem closed_wpCall {d : State → State} (hd : ∀ s, s.flags.busy = true → Closed (d s)) (s : State)
    (hb : s.flags.busy = true) : Closed (wpCall d s) := by
  unfold wpCall; split
  · intro h; exact absurd (hb.symm.trans h) (by simp)
  · exact hd _ hb

theorem closed_eraseBlock (s : State) (hb : s.flags.busy = true) : Closed (eraseBlock s) :=
  closed_wpCall (d := fun s => s.finish false) (fun _ _ _ => rfl) _ hb

theorem closed_eraseAfter (ok : Bool) (s : State) (hb : s.flags.busy = true) : Closed (eraseAfter ok s) := by
  unfold eraseAfter; dsimp only; split
  · exact closed_eraseBlock _ hb
  · exact fun _ => rfl

theorem closed_loadAfter (ok : Bool) (s : State) (hb : s.flags.busy = true) : Closed (loadAfter ok s) := by
  unfold loadAfter; dsimp only; split
  · exact fun _ => rfl
  · intro h; exact absurd (hb.symm.trans h) (by simp)

theorem closed_loadFlush (s : State) (hb : s.flags.busy = true) : Closed (loadFlush s) := closed_wpCall (closed_loadAfter _) _ hb

theorem closed_wpReturn (ok : Bool) (s : State) (hb : s.flags.busy = true) : Closed (wpReturn ok s) := by
  unfold wpReturn; split
  · exact fun _ => rfl
  · exact closed_eraseAfter _ _ hb
  · exact closed_loadAfter _ _ hb

theorem closed_busy {t : State} (hb : t.flags.busy = true) : Closed t := fun h => absurd (hb.symm.trans h) (by simp)

theorem closed_decideAttempt (s : State) (hb : s.flags.busy = true) : Closed (decideAttempt s) := by
  unfold decideAttempt
  repeat' split
  all_goals first | exact closed_wpReturn _ _ hb | exact closed_busy hb

theorem closed_checkByte (s : State) (hb : s.flags.busy = true) : Closed (checkByte s) := by
  unfold checkByte; split
  · exact closed_decideAttempt _ hb
  · dsimp only; split
    · exact closed_busy hb
    · exact closed_decideAttempt _ hb

/-- R280: a sequencer step that clears `BUSY` leaves `IDLE` in `PH`. -/
theorem exec_closed {i : Instr} {s t : State} (hb : s.flags.busy = true) (h : exec i s = .next t) : Closed t := by
  rw [exec_busy i hb] at h
  obtain ⟨p, hpm, f, hpf, hf⟩ := runProcs_next h
  have hr : ∀ {f}, readSeq s.seq.ph = some f → f s = .next t → Closed t := by
    intro f hpf hf
    cases hph : s.seq.ph <;> rw [hph] at hpf <;>
      simp only [readSeq, Option.some.injEq, reduceCtorEq] at hpf <;> subst hpf
    case rs6 =>
      unfold readReturn at hf; dsimp only at hf; split at hf <;> cases hf
      · exact fun _ => rfl
      · exact closed_checkByte _ hb
    all_goals cases hf; exact closed_busy hb
  have hp : ∀ {f}, poll s.seq.ph = some f → f s = .next t → Closed t := by
    intro f hpf hf
    cases hph : s.seq.ph <;> rw [hph] at hpf <;>
      simp only [poll, Option.some.injEq, reduceCtorEq] at hpf <;> subst hpf
    case pl5 =>
      unfold pollDecide pollReturn at hf
      dsimp only at hf
      repeat' split at hf
      all_goals cases hf <;> first | exact closed_busy hb | exact fun _ => rfl
    all_goals cases hf; exact closed_busy hb
  have hw : ∀ {f}, pageWrite s.seq.ph = some f → f s = .next t → Closed t := by
    intro f hpf hf
    cases hph : s.seq.ph <;> rw [hph] at hpf <;>
      simp only [pageWrite, Option.some.injEq, reduceCtorEq] at hpf <;> subst hpf
    case wp6 => cases hf; exact closed_busy (by unfold nextPulse; dsimp only; split <;> exact hb)
    case wp4 => cases hf; exact closed_busy (by simpa using hb)
    all_goals cases hf; exact closed_busy hb
  have hwb : ∀ {f}, writeSeq s.seq.ph = some f → f s = .next t → Closed t := by
    intro f hpf hf
    cases hph : s.seq.ph <;> rw [hph] at hpf <;>
      simp only [writeSeq, Option.some.injEq, reduceCtorEq] at hpf <;> subst hpf
    case wb2 => cases hf; exact closed_busy (by simpa using hb)
    all_goals cases hf; exact closed_busy hb
  have hps : ∀ {tb f}, protSeq tb s.seq.ph = some f → f s = .next t → Closed t := by
    intro tb f hpf hf
    cases hph : s.seq.ph <;> rw [hph] at hpf <;>
      simp only [protSeq, Option.some.injEq, reduceCtorEq] at hpf <;> subst hpf
    case ps3 => cases hf; exact closed_busy (by simpa using hb)
    case ps5 => cases hf; unfold nextEntry; dsimp only; split <;> exact closed_busy hb
    case ps6 => cases hf; unfold startSettle; dsimp only; split <;> first | exact closed_busy hb | exact fun _ => rfl
    case ps7 => cases hf; unfold settleTick; dsimp only; split <;> first | exact closed_busy hb | exact fun _ => rfl
    all_goals cases hf; exact closed_busy hb
  have hls : ∀ {f}, streamStep s.seq.ph = some f → f s = .next t → Closed t := by
    intro f hpf hf
    cases hph : s.seq.ph <;> rw [hph] at hpf <;>
      simp only [streamStep, Option.some.injEq, reduceCtorEq] at hpf
    subst hpf
    cases hf
    split
    · unfold takeByte; dsimp only; split
      · exact closed_loadFlush _ hb
      · exact closed_busy hb
    · split
      · unfold takeEnd; dsimp only; split
        · exact closed_loadFlush _ hb
        · exact fun _ => rfl
      · exact closed_busy hb
  have hprim : ∀ {q f}, primStep q s.seq.ph = some f → f s = .next t → Closed t := by
    intro q f hpf hf
    cases hph : s.seq.ph <;> rw [hph] at hpf <;>
      simp only [primStep, Option.some.injEq, reduceCtorEq] at hpf
    subst hpf
    cases hf; exact fun _ => rfl
  cases i <;> simp only [procsOf, List.mem_cons, List.not_mem_nil, or_false] at hpm
  case readbyte => subst hpm; exact hr hpf hf
  case writebyte => rcases hpm with rfl | rfl; exacts [hwb hpf hf, hp hpf hf]
  case unlock => subst hpm; exact hps hpf hf
  case lock => subst hpm; exact hps hpf hf
  case loadstream => rcases hpm with rfl | rfl | rfl | rfl; exacts [hls hpf hf, hw hpf hf, hp hpf hf, hr hpf hf]
  case writepage => rcases hpm with rfl | rfl | rfl; exacts [hw hpf hf, hp hpf hf, hr hpf hf]
  case eraseall => rcases hpm with rfl | rfl | rfl; exacts [hw hpf hf, hp hpf hf, hr hpf hf]
  all_goals subst hpm; exact hprim hpf hf


end Sys2Proof.Machine
end

