-- ==== Sys2Proof/Laws/Paging.lean ====
section
/-! SUPPORT. What one step of a command in the page writer can do, and that a capped call of it returns. -/

namespace Sys2Proof.Machine

/-- What a call of the page writer keeps of the state it was called in. -/
structure SameCall (s u : State) : Prop where
  cfg : u.cfg = s.cfg
  base : u.seq.pgBase = s.seq.pgBase
  len : u.seq.pgLen = s.seq.pgLen
  remain : u.seq.remain = s.seq.remain
  retP : u.seq.retP = s.seq.retP
  busy : u.flags.busy = s.flags.busy
  dropped : u.flags.dropped = s.flags.dropped
  op : u.seq.op = s.seq.op
  buf : u.regs.pageBuf = s.regs.pageBuf

theorem SameCall.trans {s t u : State} (h : SameCall s t) (g : SameCall t u) : SameCall s u :=
  ⟨g.cfg.trans h.cfg, g.base.trans h.base, g.len.trans h.len, g.remain.trans h.remain, g.retP.trans h.retP,
    g.busy.trans h.busy, g.dropped.trans h.dropped, g.op.trans h.op, g.buf.trans h.buf⟩

theorem SameCall.valid {s u : State} (h : SameCall s u) (hv : s.pageValid = true) : u.pageValid = true := by
  rw [pageValid_iff, h.cfg, h.base, h.len, ← pageValid_iff]; exact hv

/-- The most steps of an attempt after its write phase. -/
def tailSteps (c : Config) (n : Nat) : Nat := 1 + 5 * c.pollBudget + 7 * n

/-- The most steps of an attempt (R288). -/
def attemptSteps (c : Config) (n : Nat) : Nat := (3 + 4 * n) + tailSteps c n

/-- The most steps left of the attempt, at each label but `WP1`. -/
def State.attemptRest (s : State) : Nat :=
  let n := s.seq.pgLen
  let d := n - s.seq.idx
  let p := s.cfg.pollBudget - s.seq.pollCnt
  match s.seq.ph with
  | .wp2 => 2 + 4 * n + tailSteps s.cfg n
  | .wp3 => 1 + 4 * d + tailSteps s.cfg n
  | .wp4 => 4 * d + tailSteps s.cfg n
  | .wp5 => 4 * d - 1 + tailSteps s.cfg n
  | .wp6 => 4 * d - 2 + tailSteps s.cfg n
  | .wp7 => 1 + tailSteps s.cfg n
  | .pl0 => tailSteps s.cfg n
  | .pl1 => 5 * p + 7 * n
  | .pl2 => 5 * p - 1 + 7 * n
  | .pl3 => 5 * p - 2 + 7 * n
  | .pl4 => 5 * p - 3 + 7 * n
  | .pl5 => 5 * p - 4 + 7 * n
  | .rs0 => 7 * d
  | .rs1 => 7 * d - 1
  | .rs2 => 7 * d - 2
  | .rs3 => 7 * d - 3
  | .rs4 => 7 * d - 4
  | .rs5 => 7 * d - 5
  | .rs6 => 7 * d - 6
  | _ => 0

/-- Where a page writer's position goes on. -/
def State.goesOn (s : State) : Prop :=
  s.seq.ph = .wp2 ∨ s.seq.ph = .wp7 ∨
  ((s.seq.ph = .wp3 ∨ s.seq.ph = .wp4 ∨ s.seq.ph = .wp5 ∨ s.seq.ph = .wp6) ∧ s.seq.idx < s.seq.pgLen) ∨
  (s.polling ∧ s.seq.retT = .afterPoll) ∨
  (s.seq.ph.reading ∧ s.seq.retT = .check ∧ s.seq.idx < s.seq.pgLen)

theorem State.goesOn.paging {s : State} {r : RetP} (h : s.goesOn) (hr : s.seq.retP = r) (hv : s.pageValid = true) :
    s.paging r := by
  rcases h with h | h | h | h | h
  · exact ⟨hr, hv, .inr (.inl h)⟩
  · exact ⟨hr, hv, .inr (.inr (.inl h))⟩
  · exact ⟨hr, hv, .inr (.inr (.inr (.inl h)))⟩
  · exact ⟨hr, hv, .inr (.inr (.inr (.inr (.inl h))))⟩
  · exact ⟨hr, hv, .inr (.inr (.inr (.inr (.inr h))))⟩

theorem State.goesOn.not_wp1 {s : State} (h : s.goesOn) : s.seq.ph ≠ .wp1 := by
  intro hp
  rcases h with h | h | ⟨h, -⟩ | ⟨h, -⟩ | ⟨h, -⟩
  · rw [hp] at h; cases h
  · rw [hp] at h; cases h
  · rw [hp] at h; rcases h with h | h | h | h <;> cases h
  · rcases h with ⟨h, -⟩ | ⟨h, -⟩ <;> rw [hp] at h
    · cases h
    · rcases h with h | h | h | h | h <;> cases h
  · rw [hp] at h; rcases h with h | h | h | h | h | h | h <;> cases h

/-- A step in the page writer: the start of an attempt, a step nearer to its end, or its end. -/
def PagingStep (i : Instr) (s : State) : Prop :=
  ∃ u, SameCall s u ∧
    ((exec i s = .next u ∧ u.goesOn ∧ s.seq.ph = .wp1 ∧ u.regs.attempts = saturatingSucc s.regs.attempts ∧
        u.attemptRest + 1 = attemptSteps s.cfg s.seq.pgLen) ∨
     (exec i s = .next u ∧ u.goesOn ∧ u.regs.attempts = s.regs.attempts ∧ u.attemptRest < s.attemptRest) ∨
     (exec i s = .next (decideAttempt u) ∧ s.seq.ph = .rs6 ∧ u.regs.attempts = s.regs.attempts ∧ 1 ≤ s.attemptRest))

/-- R193 to R197: what one step of a command in the page writer can do. -/
theorem paging_step {i : Instr} {s : State} {r : RetP} (hi : i.pages) (hp : s.paging r) (hb : s.flags.busy = true)
    (hbud : 1 ≤ s.cfg.pollBudget) : PagingStep i s := by
  obtain ⟨hr, hv, hpos⟩ := hp
  have hlen : 1 ≤ s.seq.pgLen := ((pageValid_iff s).1 hv).1
  have W := pages_run_pageWrite hi
  have L := pages_run_poll hi
  have R := pages_run_readSeq hi
  have near : ∀ u, exec i s = .next u → SameCall s u → u.goesOn → u.regs.attempts = s.regs.attempts →
      u.attemptRest < s.attemptRest → PagingStep i s :=
    fun u hx hs hg ha hl => ⟨u, hs, .inr (.inl ⟨hx, hg, ha, hl⟩)⟩
  rcases hpos with hph | hph | hph | ⟨hph, hidx⟩ | ⟨hpol, hrt⟩ | ⟨hrd, hrt, hidx⟩
  · have hx := W.exec hb (s := s) (by rw [Proc.at, hph]; exact rfl)
    refine ⟨_, ?_, .inl ⟨hx, .inl rfl, hph, rfl, ?_⟩⟩
    · exact ⟨rfl, rfl, rfl, rfl, rfl, rfl, rfl, rfl, rfl⟩
    · simp [State.attemptRest, attemptSteps]; omega
  · have hx := W.exec (s := s) hb (by rw [Proc.at, hph]; exact rfl)
    refine near _ hx ⟨rfl, rfl, rfl, rfl, rfl, rfl, rfl, rfl, rfl⟩ (.inr (.inr (.inl ⟨.inl rfl, hlen⟩))) rfl ?_
    simp [State.attemptRest, hph]
  · have hx := W.exec (s := s) hb (by rw [Proc.at, hph]; exact rfl)
    refine near _ hx ⟨rfl, rfl, rfl, rfl, rfl, rfl, rfl, rfl, rfl⟩ (.inr (.inr (.inr (.inl ⟨.inl ⟨rfl, rfl⟩, rfl⟩)))) rfl ?_
    simp [State.attemptRest, hph]
  · rcases hph with hph | hph | hph | hph
    · have hx := W.exec (s := s) hb (by rw [Proc.at, hph]; exact rfl)
      refine near _ hx ⟨rfl, rfl, rfl, rfl, rfl, rfl, rfl, rfl, rfl⟩ (.inr (.inr (.inl ⟨.inr (.inl rfl), hidx⟩))) rfl ?_
      simp [State.attemptRest, hph]
    · have hx := W.exec (s := s) hb (by rw [Proc.at, hph]; exact rfl)
      refine near _ hx ⟨by simp, by simp, by simp, by simp, by simp, by simp, by simp, by simp, by simp⟩ (.inr (.inr (.inl ⟨.inr (.inr (.inl rfl)), by simpa using hidx⟩))) (by simp) ?_
      simp [State.attemptRest, hph]; omega
    · have hx := W.exec (s := s) hb (by rw [Proc.at, hph]; exact rfl)
      refine near _ hx ⟨rfl, rfl, rfl, rfl, rfl, rfl, rfl, rfl, rfl⟩ (.inr (.inr (.inl ⟨.inr (.inr (.inr rfl)), hidx⟩))) rfl ?_
      simp [State.attemptRest, hph]; omega
    · have hx := W.exec hb (s := s) (by rw [Proc.at, hph]; exact rfl)
      by_cases hl : s.seq.idx + 1 < s.seq.pgLen
      · unfold nextPulse at hx
        dsimp only at hx
        rw [if_pos (by exact hl)] at hx
        refine near _ hx ⟨rfl, rfl, rfl, rfl, rfl, rfl, rfl, rfl, rfl⟩ (.inr (.inr (.inl ⟨.inl rfl, hl⟩))) rfl ?_
        simp [State.attemptRest, hph]; omega
      · unfold nextPulse at hx
        dsimp only at hx
        rw [if_neg (by exact hl)] at hx
        refine near _ hx ⟨rfl, rfl, rfl, rfl, rfl, rfl, rfl, rfl, rfl⟩ (.inr (.inl rfl)) rfl ?_
        simp [State.attemptRest, hph]; omega
  · rcases hpol with ⟨hph, hcnt⟩ | ⟨hph | hph | hph | hph | hph, hcnt⟩
    · have hx := L.exec (s := s) hb (by rw [Proc.at, hph]; exact rfl)
      refine near _ hx ⟨rfl, rfl, rfl, rfl, rfl, rfl, rfl, rfl, rfl⟩ (.inr (.inr (.inr (.inl ⟨.inr ⟨.inl rfl, ?_⟩, hrt⟩)))) rfl ?_
      · show s.seq.pollCnt < s.cfg.pollBudget; omega
      · simp [State.attemptRest, hph, hcnt, tailSteps]
    · have hx := L.exec (s := s) hb (by rw [Proc.at, hph]; exact rfl)
      refine near _ hx ⟨rfl, rfl, rfl, rfl, rfl, rfl, rfl, rfl, rfl⟩ (.inr (.inr (.inr (.inl ⟨.inr ⟨.inr (.inl rfl), hcnt⟩, hrt⟩)))) rfl ?_
      simp [State.attemptRest, hph]; omega
    · have hx := L.exec (s := s) hb (by rw [Proc.at, hph]; exact rfl)
      refine near _ hx ⟨rfl, rfl, rfl, rfl, rfl, rfl, rfl, rfl, rfl⟩ (.inr (.inr (.inr (.inl ⟨.inr ⟨.inr (.inr (.inl rfl)), hcnt⟩, hrt⟩)))) rfl ?_
      simp [State.attemptRest, hph]; omega
    · have hx := L.exec (s := s) hb (by rw [Proc.at, hph]; exact rfl)
      refine near _ hx ⟨rfl, rfl, rfl, rfl, rfl, rfl, rfl, rfl, rfl⟩ (.inr (.inr (.inr (.inl ⟨.inr ⟨.inr (.inr (.inr (.inl rfl))), hcnt⟩, hrt⟩)))) rfl ?_
      simp [State.attemptRest, hph]; omega
    · have hx := L.exec (s := s) hb (by rw [Proc.at, hph]; exact rfl)
      refine near _ hx ⟨rfl, rfl, rfl, rfl, rfl, rfl, rfl, rfl, rfl⟩ (.inr (.inr (.inr (.inl ⟨.inr ⟨.inr (.inr (.inr (.inr rfl))), hcnt⟩, hrt⟩)))) rfl ?_
      simp [State.attemptRest, hph]; omega
    · have hx : exec i s = pollDecide (s.driveCE false) := L.exec hb (by rw [Proc.at, hph]; exact rfl)
      rw [pollDecide_eq] at hx
      have read : ∀ ok, exec i s = pollReturn ok { s.driveCE false with
          seq := { (s.driveCE false).seq with pollCnt := (s.driveCE false).seq.pollCnt + 1 } } → PagingStep i s := by
        intro ok hx
        rw [pollReturn_afterPoll _ (by exact hrt)] at hx
        refine near _ hx ⟨rfl, rfl, rfl, rfl, rfl, rfl, rfl, rfl, rfl⟩ (.inr (.inr (.inr (.inr ⟨.inl rfl, rfl, hlen⟩)))) rfl ?_
        simp [State.attemptRest, hph]; omega
      by_cases h1 : s.regs.rdata = s.seq.expect
      · rw [if_pos (by exact h1)] at hx; exact read _ hx
      · rw [if_neg (by exact h1)] at hx
        by_cases h2 : s.seq.pollCnt + 1 = s.cfg.pollBudget
        · rw [if_pos (by exact h2)] at hx; exact read _ hx
        · rw [if_neg (by exact h2)] at hx
          refine near _ hx ⟨rfl, rfl, rfl, rfl, rfl, rfl, rfl, rfl, rfl⟩ (.inr (.inr (.inr (.inl ⟨.inr ⟨.inl rfl, ?_⟩, hrt⟩)))) rfl ?_
          · show s.seq.pollCnt + 1 < s.cfg.pollBudget; omega
          · simp [State.attemptRest, hph]; omega
  · rcases hrd with hph | hph | hph | hph | hph | hph | hph
    · have hx := R.exec (s := s) hb (by rw [Proc.at, hph]; exact rfl)
      refine near _ hx ⟨rfl, rfl, rfl, rfl, rfl, rfl, rfl, rfl, rfl⟩ (.inr (.inr (.inr (.inr ⟨.inr (.inl rfl), hrt, hidx⟩)))) rfl ?_
      simp [State.attemptRest, hph]; omega
    · have hx := R.exec (s := s) hb (by rw [Proc.at, hph]; exact rfl)
      refine near _ hx ⟨rfl, rfl, rfl, rfl, rfl, rfl, rfl, rfl, rfl⟩ (.inr (.inr (.inr (.inr ⟨.inr (.inr (.inl rfl)), hrt, hidx⟩)))) rfl ?_
      simp [State.attemptRest, hph]; omega
    · have hx := R.exec (s := s) hb (by rw [Proc.at, hph]; exact rfl)
      refine near _ hx ⟨rfl, rfl, rfl, rfl, rfl, rfl, rfl, rfl, rfl⟩ (.inr (.inr (.inr (.inr ⟨.inr (.inr (.inr (.inl rfl))), hrt, hidx⟩)))) rfl ?_
      simp [State.attemptRest, hph]; omega
    · have hx := R.exec (s := s) hb (by rw [Proc.at, hph]; exact rfl)
      refine near _ hx ⟨rfl, rfl, rfl, rfl, rfl, rfl, rfl, rfl, rfl⟩ (.inr (.inr (.inr (.inr ⟨.inr (.inr (.inr (.inr (.inl rfl)))), hrt, hidx⟩)))) rfl ?_
      simp [State.attemptRest, hph]; omega
    · have hx := R.exec (s := s) hb (by rw [Proc.at, hph]; exact rfl)
      refine near _ hx ⟨rfl, rfl, rfl, rfl, rfl, rfl, rfl, rfl, rfl⟩ (.inr (.inr (.inr (.inr ⟨.inr (.inr (.inr (.inr (.inr (.inl rfl))))), hrt, hidx⟩)))) rfl ?_
      simp [State.attemptRest, hph]; omega
    · have hx := R.exec (s := s) hb (by rw [Proc.at, hph]; exact rfl)
      refine near _ hx ⟨rfl, rfl, rfl, rfl, rfl, rfl, rfl, rfl, rfl⟩ (.inr (.inr (.inr (.inr ⟨.inr (.inr (.inr (.inr (.inr (.inr rfl))))), hrt, hidx⟩)))) rfl ?_
      simp [State.attemptRest, hph]; omega
    · have hx : exec i s = readReturn (s.driveCE false) := R.exec hb (by rw [Proc.at, hph]; exact rfl)
      rw [readReturn_check (by exact hrt)] at hx
      have hrest : 1 ≤ s.attemptRest := by simp [State.attemptRest, hph]; omega
      by_cases he : s.regs.rdata = s.pageByte s.seq.idx
      · by_cases hl : s.seq.idx + 1 < s.seq.pgLen
        · rw [checkByte_goesOn (by exact he) (by exact hl)] at hx
          refine near _ hx ⟨rfl, rfl, rfl, rfl, rfl, rfl, rfl, rfl, rfl⟩ (.inr (.inr (.inr (.inr ⟨.inl rfl, hrt, hl⟩)))) rfl ?_
          simp [State.attemptRest, hph]; omega
        · rw [checkByte_last (by exact he) (by exact Nat.le_of_not_lt hl)] at hx
          refine ⟨_, ?_, .inr (.inr ⟨hx, hph, rfl, hrest⟩)⟩
          exact ⟨rfl, rfl, rfl, rfl, rfl, rfl, rfl, rfl, rfl⟩
      · rw [checkByte_differs (by exact he)] at hx
        refine ⟨_, ?_, .inr (.inr ⟨hx, hph, rfl, hrest⟩)⟩
        exact ⟨rfl, rfl, rfl, rfl, rfl, rfl, rfl, rfl, rfl⟩

/-! ### A capped call returns -/

/-- The most steps left of a call with the cap `k`: those of the attempt and of the attempts left. -/
def callRest (k : Nat) (s : State) : Nat :=
  s.attemptRest + attemptSteps s.cfg s.seq.pgLen * (k - s.regs.attempts.toNat)

/-- The attempts counted are within the cap; before an attempt is counted one is left, afterwards one is counted. -/
def WithinCap (k : Nat) (s : State) : Prop :=
  s.regs.attempts.toNat ≤ k ∧ (s.seq.ph = .wp1 → s.regs.attempts.toNat < k) ∧
  (s.seq.ph ≠ .wp1 → 1 ≤ s.regs.attempts.toNat)

/-- R190, R197: how a capped call of the page writer returns `ok`. -/
structure Returned (k : Nat) (ok : Bool) (s : State) : Prop where
  counted : 1 ≤ s.regs.attempts.toNat
  capped : s.regs.attempts.toNat ≤ k
  success : ok = true → s.flags.pollOk = true ∧ s.flags.verifyOk = true
  failure : ok = false → s.regs.attempts.toNat = k ∧ ¬ (s.flags.pollOk = true ∧ s.flags.verifyOk = true)

theorem saturatingSucc_toNat {w : Word} (h : w.toNat + 1 < 2 ^ 32) : (saturatingSucc w).toNat = w.toNat + 1 := by
  unfold saturatingSucc
  have hne : w ≠ BitVec.allOnes 32 := by
    rintro rfl
    simp at h
  rw [if_neg hne, BitVec.toNat_add]
  simpa using h

/-- R198: with a cap, a step of the page writer brings its return nearer, or returns. -/
theorem capped_step {i : Instr} {r : RetP} {k : Nat} {s : State} (hi : i.pages) (hk : k < 2 ^ 32) (hp : s.paging r)
    (hb : s.flags.busy = true) (hbud : 1 ≤ s.cfg.pollBudget) (hcap : s.cfg.retryCap = some k) (hw : WithinCap k s) :
    ∃ u, SameCall s u ∧
      ((exec i s = .next u ∧ u.paging r ∧ WithinCap k u ∧ callRest k u < callRest k s) ∨
       (1 ≤ callRest k s ∧ ∃ ok, exec i s = .next (wpReturn ok u) ∧ Returned k ok u)) := by
  have hr := hp.1
  have hv := hp.2.1
  obtain ⟨u, hs, ⟨hx, hg, hph, ha, hl⟩ | ⟨hx, hg, ha, hl⟩ | ⟨hx, hph, ha, hl⟩⟩ := paging_step hi hp hb hbud
  · have hlt := hw.2.1 hph
    rw [← hs.cfg, ← hs.len] at hl
    have hat : u.regs.attempts.toNat = s.regs.attempts.toNat + 1 := by rw [ha]; exact saturatingSucc_toNat (by omega)
    refine ⟨u, hs, .inl ⟨hx, hg.paging (hs.retP.trans hr) (hs.valid hv), ⟨by omega, fun h => absurd h hg.not_wp1, fun _ => by omega⟩, ?_⟩⟩
    unfold callRest
    rw [hat, show k - s.regs.attempts.toNat = (k - (s.regs.attempts.toNat + 1)) + 1 by omega, Nat.mul_add, ← hs.cfg,
      ← hs.len]
    omega
  · have hne : s.seq.ph ≠ .wp1 := by intro h; simp [State.attemptRest, h] at hl
    refine ⟨u, hs, .inl ⟨hx, hg.paging (hs.retP.trans hr) (hs.valid hv),
      ⟨by rw [ha]; exact hw.1, fun h => absurd h hg.not_wp1, fun _ => by rw [ha]; exact hw.2.2 hne⟩, ?_⟩⟩
    unfold callRest
    rw [hs.cfg, hs.len, ha]
    omega
  · have h1 : 1 ≤ callRest k s := by unfold callRest; omega
    have hone : 1 ≤ u.regs.attempts.toNat := by rw [ha]; exact hw.2.2 (by rw [hph]; simp)
    have hcapped : u.regs.attempts.toNat ≤ k := by rw [ha]; exact hw.1
    by_cases h : u.flags.pollOk = true ∧ u.flags.verifyOk = true
    · rw [decideAttempt_ok h.1 h.2] at hx
      exact ⟨u, hs, .inr ⟨h1, true, hx, hone, hcapped, fun _ => h, fun h => by cases h⟩⟩
    · have h' : (u.flags.pollOk && u.flags.verifyOk) = false := by
        rw [← Bool.not_eq_true, Bool.and_eq_true]; exact h
      by_cases hle : k ≤ u.regs.attempts.toNat
      · rw [decideAttempt_capped h' (hs.cfg ▸ hcap) hle] at hx
        exact ⟨u, hs, .inr ⟨h1, false, hx, hone, hcapped, fun h => (by cases h), fun _ => ⟨by omega, h⟩⟩⟩
      · rw [decideAttempt_retry h' (by intro j hj; rw [hs.cfg, hcap] at hj; cases hj; omega)] at hx
        refine ⟨u.goto .wp1, ⟨hs.cfg, hs.base, hs.len, hs.remain, hs.retP, hs.busy, hs.dropped, hs.op, hs.buf⟩,
          .inl ⟨hx, ⟨hs.retP.trans hr, hs.valid hv, .inl rfl⟩, ⟨?_, ?_, fun h => absurd rfl h⟩, ?_⟩⟩
        · show u.regs.attempts.toNat ≤ k; omega
        · intro _; show u.regs.attempts.toNat < k; omega
        · show 0 + attemptSteps u.cfg u.seq.pgLen * (k - u.regs.attempts.toNat) <
            s.attemptRest + attemptSteps s.cfg s.seq.pgLen * (k - s.regs.attempts.toNat)
          rw [hs.cfg, hs.len, ha]; omega

/-- R288: a capped call of the page writer returns, within the steps its attempts can take, and is busy until then. -/
theorem capped_call_returns {i : Instr} {r : RetP} {k : Nat} (hi : i.pages) (hk : k < 2 ^ 32) (n : Nat) {s : State}
    (hn : callRest k s ≤ n) (hp : s.paging r) (hb : s.flags.busy = true) (hbud : 1 ≤ s.cfg.pollBudget)
    (hcap : s.cfg.retryCap = some k) (hw : WithinCap k s) :
    ∃ m u ok, 1 ≤ m ∧ m ≤ n ∧ SameCall s u ∧ execTimes m i s = .next (wpReturn ok u) ∧ Returned k ok u ∧
      ∀ j v, j < m → execTimes j i s = .next v → v.flags.busy = true := by
  induction n generalizing s with
  | zero =>
    obtain ⟨u, hs, ⟨hx, hpu, hwu, hlt⟩ | ⟨h1, ok, hx⟩⟩ := capped_step hi hk hp hb hbud hcap hw <;> omega
  | succ n ih =>
    obtain ⟨u, hs, ⟨hx, hpu, hwu, hlt⟩ | ⟨h1, ok, hx, hret⟩⟩ := capped_step hi hk hp hb hbud hcap hw
    · obtain ⟨m, v, ok, h1, hm, hv, hr, hret, hbusy⟩ :=
        ih (s := u) (by omega) hpu (hs.busy.trans hb) (hs.cfg ▸ hbud) (hs.cfg ▸ hcap) hwu
      refine ⟨m + 1, v, ok, by omega, by omega, hs.trans hv, ?_, hret, fun j w hj hw => ?_⟩
      · rw [execTimes, hx]; exact hr
      · cases j with
        | zero => cases hw; exact hb
        | succ j => rw [execTimes, hx] at hw; exact hbusy j w (by omega) hw
    · refine ⟨1, u, ok, Nat.le_refl _, by omega, hs, (execTimes_one i s).trans hx, hret, fun j w hj hw => ?_⟩
      obtain rfl : j = 0 := by omega
      cases hw; exact hb

end Sys2Proof.Machine
end

