-- ==== Sys2Proof/Laws/PerInstr.lean ====
section
/-! SUPPORT. The statements made per instruction: its encoding. -/

namespace Sys2Proof.Laws

/-- R102, R112: a well-formed command's opcode is selected by one row of the opcode map only, and decodes to it. -/
def Encoding.Statement (i : Instr) : Prop :=
  i.wf = true → (opcodeTable.filter (·.selects (encode i))).length = 1 ∧ decode (encode i) = .ok i

theorem Encoding.setaddr : Encoding.Statement .setaddr := fun _ => ⟨rfl, rfl⟩

theorem Encoding.setdata : Encoding.Statement .setdata := fun _ => ⟨rfl, rfl⟩

theorem Encoding.readdata : Encoding.Statement .readdata := fun _ => ⟨rfl, rfl⟩

theorem Encoding.setdir (output : Bool) : Encoding.Statement (.setdir output) := by
  cases output <;> exact fun _ => ⟨rfl, rfl⟩

theorem Encoding.ceAssert : Encoding.Statement .ceAssert := fun _ => ⟨rfl, rfl⟩

theorem Encoding.ceDeassert : Encoding.Statement .ceDeassert := fun _ => ⟨rfl, rfl⟩

theorem Encoding.weAssert : Encoding.Statement .weAssert := fun _ => ⟨rfl, rfl⟩

theorem Encoding.weDeassert : Encoding.Statement .weDeassert := fun _ => ⟨rfl, rfl⟩

theorem Encoding.oeAssert : Encoding.Statement .oeAssert := fun _ => ⟨rfl, rfl⟩

theorem Encoding.oeDeassert : Encoding.Statement .oeDeassert := fun _ => ⟨rfl, rfl⟩

theorem Encoding.readbyte : Encoding.Statement .readbyte := fun _ => ⟨rfl, rfl⟩

theorem Encoding.writebyte : Encoding.Statement .writebyte := fun _ => ⟨rfl, rfl⟩

theorem Encoding.writepage : Encoding.Statement .writepage := fun _ => ⟨rfl, rfl⟩

theorem Encoding.unlock : Encoding.Statement .unlock := fun _ => ⟨rfl, rfl⟩

theorem Encoding.lock : Encoding.Statement .lock := fun _ => ⟨rfl, rfl⟩

theorem Encoding.eraseall : Encoding.Statement .eraseall := fun _ => ⟨rfl, rfl⟩

theorem Encoding.loadstream : Encoding.Statement .loadstream := fun _ => ⟨rfl, rfl⟩

end Sys2Proof.Laws
end

