-- ==== Sys2Proof/Laws/Step.lean ====
section
/-! SUPPORT. What a step of the machine can be, and its frame. -/

namespace Sys2Proof.Machine

/-- With an admissible configuration a step is its next move. -/
theorem step_eq {s : State} (hc : s.cfg.wf) :
    step s = match nextMove s with
      | .run i t => exec i t
      | .done t => .next t
      | .stray => .fault .strayPosition := by
  unfold step
  exact if_pos hc

/-- Outside R10 the machine refuses. -/
theorem step_badConfig {s : State} (hc : ¬ s.cfg.wf) : step s = .refused .badConfig := by
  simp only [step, if_neg hc]

/-- A step that answers a next state had an admissible configuration and a move that is not stray. -/
theorem step_next {s t : State} (h : step s = .next t) :
    s.cfg.wf ∧ ((∃ i u, nextMove s = .run i u ∧ exec i u = .next t) ∨ nextMove s = .done t) := by
  by_cases hc : s.cfg.wf
  · rw [step_eq hc] at h
    refine ⟨hc, ?_⟩
    split at h
    · exact .inl ⟨_, _, by assumption, h⟩
    · cases h; exact .inr (by assumption)
    · cases h
  · rw [step_badConfig hc] at h; cases h

/-! ### The move that is next -/

/-- A picked move is a pending one, not held back, between the moves kept before it and those after it. -/
theorem pick_some {s : State} {waiting : List Agent} {l kept rest : List Turn} {t : Turn}
    (h : s.pick waiting l = some (kept, t, rest)) : l = kept ++ t :: rest ∧ t.held s = false := by
  induction l generalizing waiting kept with
  | nil => cases h
  | cons m l ih =>
    unfold State.pick at h
    split at h
    · split at h <;> cases h
      rename_i hr
      obtain ⟨hl, hh⟩ := ih hr
      exact ⟨congrArg (m :: ·) hl, hh⟩
    · rename_i hn
      cases h
      exact ⟨rfl, by simpa using fun h => hn (.inr h)⟩

/-- A first pending move that is not held is the next one. -/
theorem nextTurn_first {s : State} {t : Turn} {rest : List Turn} (hi : s.inputs = t :: rest) (ht : t.held s = false) :
    s.nextTurn = some ([], t, rest) := by
  simp [State.nextTurn, hi, State.pick, ht]

/-- With no pending move there is none to pick. -/
theorem nextTurn_nil {s : State} (hi : s.inputs = []) : s.nextTurn = none := by
  simp [State.nextTurn, hi, State.pick]

/-- R110: the host's wait lets the other agents move, but for a later call's delivery; it stays pending. -/
theorem nextTurn_past_await {s : State} {t : Turn} {rest : List Turn} (hb : s.flags.busy = true)
    (hi : s.inputs = .hostAwait :: t :: rest) (ha : .host ∉ t.behind) (ht : t.held s = false) :
    s.nextTurn = some ([.hostAwait], t, rest) := by
  have h1 : Turn.hostAwait.held s = true := hb
  have h2 : Turn.hostAwait.agent = Agent.host := rfl
  simp [State.nextTurn, hi, State.pick, h1, h2, ha, ht]

/-- The move picked is the one made. -/
theorem nextMove_picked {s : State} {kept rest : List Turn} {t : Turn} (h : s.nextTurn = some (kept, t, rest)) :
    nextMove s = turnMove kept t rest s := by
  unfold nextMove; rw [h]

/-- With no move picked the sequencer moves. -/
theorem nextMove_unpicked {s : State} (h : s.nextTurn = none) : nextMove s = sequencerMove s := by
  unfold nextMove; rw [h]

/-- R110: the moves of a program: those of the host, and the deliveries of its calls' sources. -/
def OfProgram (t : Turn) : Prop := t.agent = .host ∨ ∃ source, t = .deliver source

theorem OfProgram.behind_host {t : Turn} (h : OfProgram t) : .host ∈ t.behind := by
  rcases h with h | ⟨_, rfl⟩
  · cases t <;> first | exact List.mem_cons_self | cases h
  · exact List.mem_cons_self

/-- Moves all held back leave none to pick: under the host's wait, the later moves of a program. -/
theorem pick_waiting {s : State} (l : List Turn) (waiting : List Agent) (hw : .host ∈ waiting)
    (h : ∀ t ∈ l, OfProgram t) : s.pick waiting l = none := by
  induction l generalizing waiting with
  | nil => rfl
  | cons t l ih =>
    unfold State.pick
    rw [if_pos (.inl ⟨.host, (h t (by simp)).behind_host, hw⟩),
      ih _ (List.mem_cons_of_mem _ hw) fun u hu => h u (List.mem_cons_of_mem _ hu)]

/-- R110: the later moves of a program wait with the host. -/
theorem nextTurn_await_program {s : State} {rest : List Turn} (hb : s.flags.busy = true) (hi : s.inputs = .hostAwait :: rest)
    (h : ∀ t ∈ rest, OfProgram t) : s.nextTurn = none := by
  have h1 : Turn.hostAwait.held s = true := hb
  have h2 : Turn.hostAwait.agent = Agent.host := rfl
  unfold State.nextTurn
  rw [hi]
  unfold State.pick
  rw [if_pos (.inr h1), pick_waiting rest _ (by simp [h2]) h]

/-- R13: which moves run a command: the host's write of a defined opcode to `CMD` while idle, and the sequencer's move
while busy, picked or for want of another. The state it runs on differs in the pending moves only. -/
theorem nextMove_run {s u : State} {i : Instr} (h : nextMove s = .run i u) :
    (∃ kept v rest, s.nextTurn = some (kept, .hostWrite 0 v, rest) ∧ s.flags.busy = false ∧
      decode (v.setWidth 8) = .ok i ∧ u = { s with inputs := kept ++ rest }) ∨
    (s.flags.busy = true ∧ decode s.seq.op = .ok i ∧
      ((s.nextTurn = none ∧ u = s) ∨
       (∃ kept rest, s.nextTurn = some (kept, .sequencer, rest) ∧ u = { s with inputs := kept ++ rest }))) := by
  unfold nextMove at h
  split at h
  · rename_i hn
    unfold sequencerMove at h
    split at h
    · split at h <;> cases h
      exact .inr ⟨by assumption, by assumption, .inl ⟨hn, rfl⟩⟩
    · cases h
  · rename_i kept m rest hn
    cases m <;> simp only [turnMove, hostReadMove, hostAwaitMove, producerMove, reduceCtorEq] at h
    case sequencer =>
      unfold sequencerMove at h
      split at h
      · split at h <;> cases h
        exact .inr ⟨by assumption, by assumption, .inr ⟨kept, rest, hn, rfl⟩⟩
      · cases h
    case hostWrite index v =>
      unfold hostWriteMove at h
      split at h
      · cases h
      · rename_i hb
        split at h
        · rename_i h0
          subst h0
          split at h <;> cases h
          exact .inl ⟨kept, v, rest, hn, by simpa using hb, by assumption, rfl⟩
        · cases h
    case deliver source =>
      unfold deliverMove at h
      repeat' split at h
      all_goals cases h

/-- A move that runs no command: what becomes of the parts of State that matter to a claim, by the move. -/
theorem nextMove_done {s t : State} (h : nextMove s = .done t) :
    (∃ kept rest, s.nextTurn = some (kept, .reset, rest) ∧ t = ({ s with inputs := kept ++ rest } : State).applyReset) ∨
    (∃ kept rest, s.nextTurn = some (kept, .commit, rest) ∧ t = { s with inputs := kept ++ rest, dev := s.dev.commit }) ∨
    (∃ kept keep rest, s.nextTurn = some (kept, .fail keep, rest) ∧
      t = { s with inputs := kept ++ rest, dev := s.dev.fail keep }) ∨
    (∃ kept rest, s.nextTurn = some (kept, .hang, rest) ∧ t = { s with inputs := kept ++ rest, dev := s.dev.hang }) ∨
    (∃ kept index v rest, s.nextTurn = some (kept, .hostWrite index v, rest) ∧ s.flags.busy = false ∧
      t = ({ s with inputs := kept ++ rest } : State).writeReg index v) ∨
    (t.cfg = s.cfg ∧ t.bus = s.bus ∧ t.regs = s.regs ∧ t.flags = s.flags ∧ t.seq = s.seq ∧ t.dev = s.dev ∧
      t.trace = s.trace ∧ t.draws = s.draws) := by
  unfold nextMove at h
  split at h
  · unfold sequencerMove at h
    split at h
    · split at h <;> cases h
    · cases h; simp
  · rename_i kept m rest hn
    cases m <;> simp only [turnMove, hostReadMove, hostAwaitMove, producerMove] at h
    case sequencer =>
      unfold sequencerMove at h
      split at h
      · split at h <;> cases h
      · cases h; simp
    case hostWrite index v =>
      unfold hostWriteMove at h
      split at h
      · cases h; simp
      · rename_i hb
        split at h
        · split at h <;> cases h
          simp
        · cases h
          exact .inr (.inr (.inr (.inr (.inl ⟨kept, index, v, rest, hn, by simpa using hb, rfl⟩))))
    case hostRead => cases h; simp
    case hostAwait => cases h; simp
    case producer => cases h; simp
    case deliver =>
      unfold deliverMove at h
      repeat' split at h
      all_goals cases h; simp
    case commit => cases h; exact .inr (.inl ⟨kept, rest, hn, rfl⟩)
    case fail keep => cases h; exact .inr (.inr (.inl ⟨kept, keep, rest, hn, rfl⟩))
    case hang => cases h; exact .inr (.inr (.inr (.inl ⟨kept, rest, hn, rfl⟩)))
    case reset => cases h; exact .inl ⟨kept, rest, hn, rfl⟩

/-- R28: a host write of a register changes the operand registers and `PAGE_BUF` only, and keeps the buffer's length. -/
theorem writeReg_keeps (s : State) (index : Nat) (v : Word) :
    (s.writeReg index v).cfg = s.cfg ∧ (s.writeReg index v).bus = s.bus ∧ (s.writeReg index v).flags = s.flags ∧
    (s.writeReg index v).seq = s.seq ∧ (s.writeReg index v).dev = s.dev ∧ (s.writeReg index v).trace = s.trace ∧
    (s.writeReg index v).regs.rdata = s.regs.rdata ∧ (s.writeReg index v).regs.attempts = s.regs.attempts ∧
    (s.writeReg index v).regs.pageBuf.length = s.regs.pageBuf.length := by
  unfold State.writeReg
  repeat' split
  all_goals simp

end Sys2Proof.Machine
end

