-- ==== Sys2Proof/Laws/Position.lean ====
section
/-! SUPPORT. The sequencer positions (R30): a step of a command leads to idle or to a position of the same command; with it, what keeps `State.Inv`. -/

namespace Sys2Proof.Machine

/-- The position after a step: idle, or one of the command. -/
def Pos (i : Instr) (s t : State) : Prop :=
  t.seq.op = s.seq.op ∧ ((t.flags.busy = false ∧ t.seq.ph = .idle) ∨ (t.flags.busy = true ∧ t.positionedAt i))

/-- R191: a page call that passed its check is in the page writer. -/
theorem wpCall_pos (r : RetP) (d : State → State) (s : State) (hv : s.pageValid = true) (hr : s.seq.retP = r) :
    (wpCall d s).paging r := by
  rw [wpCall, if_pos hv]; exact ⟨hr, hv, .inl rfl⟩

/-- R242: every block of `eraseAll` is a valid page. -/
theorem eraseBlock_pos (s : State) (hc : s.cfg.wf) (hb : s.flags.busy = true) (hd : s.flags.dropped = false)
    (h : s.seq.pgBase ≤ s.cfg.maxAddr) : Pos .eraseall s (eraseBlock s) := by
  have hv : ({ s with seq := { s.seq with
        pgLen := min s.cfg.pageSize (s.cfg.maxAddr + 1 - s.seq.pgBase), retP := .afterBlock } } : State).pageValid = true := by
    obtain ⟨h1, h2, ⟨h3, h4⟩, h5, h6⟩ := hc
    simp only [State.pageValid, Bool.and_eq_true, decide_eq_true_eq]
    omega
  have hp := wpCall_pos .afterBlock (fun s => s.finish false) _ hv rfl
  refine ⟨?_, .inr ⟨?_, hp, ?_⟩⟩ <;> (unfold eraseBlock wpCall; rw [if_pos hv]; first | rfl | exact hb | exact hd)

/-- R241: the walk's next position. -/
theorem eraseAfter_pos (ok : Bool) (s : State) (hc : s.cfg.wf) (hb : s.flags.busy = true) (hd : s.flags.dropped = false) :
    Pos .eraseall s (eraseAfter ok s) := by
  unfold eraseAfter
  dsimp only
  split
  · rename_i h
    exact eraseBlock_pos { s with seq := { s.seq with allOk := s.seq.allOk && ok, pgBase := s.seq.pgBase + s.cfg.pageSize } } hc hb hd h
  · exact ⟨rfl, .inl ⟨rfl, rfl⟩⟩

/-- R246: the stream's next position. -/
theorem loadAfter_pos (ok : Bool) (s : State) (hc : s.cfg.wf) (hb : s.flags.busy = true)
    (h : s.seq.pgBase + s.seq.pgLen + s.seq.remain ≤ 2 ^ 33 - 2) : Pos .loadstream s (loadAfter ok s) := by
  unfold loadAfter
  dsimp only
  split
  · exact ⟨rfl, .inl ⟨rfl, rfl⟩⟩
  · rename_i h'
    simp at h'
    refine ⟨rfl, .inr ⟨hb, .inl ⟨rfl, ?_, ?_, ?_⟩, ?_⟩⟩
    · have := hc.2.2.1.1; simp; omega
    · simp; omega
    · simp [h'.2]
    · simp; omega

/-- R246, R250: a flush goes to the page writer or is dropped. -/
theorem loadFlush_pos (s : State) (hc : s.cfg.wf) (hb : s.flags.busy = true)
    (h : s.seq.pgBase + s.seq.pgLen + s.seq.remain ≤ 2 ^ 33 - 2) : Pos .loadstream s (loadFlush s) := by
  unfold loadFlush wpCall
  split
  · rename_i hv
    exact ⟨rfl, .inr ⟨hb, .inr ⟨rfl, hv, .inl rfl⟩, h⟩⟩
  · exact loadAfter_pos _ _ hc hb h

/-- Where the page writer returns for a command. -/
def retOf (i : Instr) (r : RetP) (s : State) : Prop :=
  (i = .writepage ∧ r = .finish) ∨ (i = .eraseall ∧ r = .afterBlock ∧ s.flags.dropped = false) ∨
  (i = .loadstream ∧ r = .afterChunk ∧ s.seq.pgBase + s.seq.pgLen + s.seq.remain ≤ 2 ^ 33 - 2)

/-- A page writer's position is one of its command. -/
theorem retOf_pos {i : Instr} {r : RetP} {s : State} (h : retOf i r s) (hp : s.paging r) : s.positionedAt i := by
  rcases h with ⟨rfl, rfl⟩ | ⟨rfl, rfl, hd⟩ | ⟨rfl, rfl, hb⟩
  · exact hp
  · exact ⟨hp, hd⟩
  · exact ⟨.inr hp, hb⟩

/-- R197: the position after a return of the page writer. -/
theorem wpReturn_pos (ok : Bool) {i : Instr} {r : RetP} {s : State} (h : retOf i r s) (hr : s.seq.retP = r)
    (hc : s.cfg.wf) (hb : s.flags.busy = true) : Pos i s (wpReturn ok s) := by
  unfold wpReturn
  rw [hr]
  rcases h with ⟨rfl, rfl⟩ | ⟨rfl, rfl, hd⟩ | ⟨rfl, rfl, hb'⟩
  · exact ⟨rfl, .inl ⟨rfl, rfl⟩⟩
  · exact eraseAfter_pos ok s hc hb hd
  · exact loadAfter_pos ok s hc hb hb'

/-- R197: the position after the decision. -/
theorem decide_pos {i : Instr} {r : RetP} {s : State} (h : retOf i r s) (hr : s.seq.retP = r) (hv : s.pageValid = true)
    (hc : s.cfg.wf) (hb : s.flags.busy = true) : Pos i s (decideAttempt s) := by
  have hretry : Pos i s (enterRetry s) := ⟨rfl, .inr ⟨hb, retOf_pos (s := enterRetry s) h ⟨hr, hv, .inl rfl⟩⟩⟩
  unfold decideAttempt
  repeat' split
  all_goals first | exact hretry | exact wpReturn_pos _ h hr hc hb

/-- R196: the position after a byte compared. -/
theorem check_pos {i : Instr} {r : RetP} {s : State} (h : retOf i r s) (hr : s.seq.retP = r) (hv : s.pageValid = true)
    (hrt : s.seq.retT = .check) (hc : s.cfg.wf) (hb : s.flags.busy = true) : Pos i s (checkByte s) := by
  unfold checkByte
  split
  · exact decide_pos (s := s.setVerifyOk false) h hr hv hc hb
  · dsimp only
    split
    · rename_i hl
      refine ⟨rfl, .inr ⟨hb, retOf_pos (r := r) h ⟨hr, hv, ?_⟩⟩⟩
      refine .inr (.inr (.inr (.inr (.inr ⟨.inl rfl, hrt, hl⟩))))
    · exact decide_pos (s := State.setVerifyOk _ true) h hr hv hc hb

/-- A step of the page writer of a command. -/
theorem paging_pos {i : Instr} {r : RetP} {s : State} (h : retOf i r s) (hp : s.paging r) (hc : s.cfg.wf)
    (hb : s.flags.busy = true) : ∃ t, exec i s = .next t ∧ Pos i s t := by
  have hi : i.pages := by
    rcases h with ⟨rfl, -⟩ | ⟨rfl, -⟩ | ⟨rfl, -⟩
    · exact .inl rfl
    · exact .inr (.inl rfl)
    · exact .inr (.inr rfl)
  obtain ⟨u, hs, hcase⟩ := paging_step hi hp hb hc.2.2.2.1
  have hu : retOf i r u := by unfold retOf; rw [hs.dropped, hs.base, hs.len, hs.remain]; exact h
  have hru : u.seq.retP = r := hs.retP.trans hp.1
  have hvu := hs.valid hp.2.1
  have hbu : u.flags.busy = true := hs.busy.trans hb
  have on : exec i s = .next u → u.goesOn → ∃ t, exec i s = .next t ∧ Pos i s t := fun hx hg =>
    ⟨u, hx, exec_busy_op hb hx, .inr ⟨hbu, retOf_pos hu (hg.paging hru hvu)⟩⟩
  rcases hcase with ⟨hx, hg, -⟩ | ⟨hx, hg, -⟩ | ⟨hx, -⟩
  · exact on hx hg
  · exact on hx hg
  · exact ⟨_, hx, exec_busy_op hb hx, (decide_pos hu hru hvu (hs.cfg ▸ hc) hbu).2⟩

/-- R222: the positions of the protection sequencer. -/
theorem sending_pos (i : Instr) (table : List Host.Cell) {s : State} (h1 : 1 ≤ table.length) (hi : ∀ u : State, u.sending table.length → u.positionedAt i)
    (hx : exec i s = runProcs [protSeq table] s) (hp : s.sending table.length) (hb : s.flags.busy = true) :
    ∃ t, exec i s = .next t ∧ Pos i s t := by
  have go : ∀ t : State, t.flags.busy = true → t.seq.op = s.seq.op → t.sending table.length → Pos i s t :=
    fun t h2 h3 h4 => ⟨h3, .inr ⟨h2, hi t h4⟩⟩
  rcases hp with hph | hph | ⟨hph, hidx⟩ | hph | ⟨hph, h2, h3⟩
  · refine ⟨_, hx.trans (by unfold runProcs; rw [hph]; rfl), ?_⟩
    exact go _ hb rfl (.inr (.inl rfl))
  · refine ⟨_, hx.trans (by unfold runProcs; rw [hph]; rfl), ?_⟩
    exact go _ hb rfl (.inr (.inr (.inl ⟨.inl rfl, h1⟩)))
  · rcases hph with hph | hph | hph | hph
    · refine ⟨_, hx.trans (by unfold runProcs; rw [hph]; rfl), ?_⟩
      exact go _ hb rfl (.inr (.inr (.inl ⟨.inr (.inl rfl), hidx⟩)))
    · refine ⟨_, hx.trans (by unfold runProcs; rw [hph]; rfl), ?_⟩
      exact go _ (by simpa using hb) (by simp) (.inr (.inr (.inl ⟨.inr (.inr (.inl rfl)), by simpa using hidx⟩)))
    · refine ⟨_, hx.trans (by unfold runProcs; rw [hph]; rfl), ?_⟩
      exact go _ hb rfl (.inr (.inr (.inl ⟨.inr (.inr (.inr rfl)), hidx⟩)))
    · refine ⟨_, hx.trans (by unfold runProcs; rw [hph]; rfl), ?_⟩
      unfold nextEntry
      dsimp only
      split
      · rename_i hl; exact go _ hb rfl (.inr (.inr (.inl ⟨.inl rfl, hl⟩)))
      · exact go _ hb rfl (.inr (.inr (.inr (.inl rfl))))
  · refine ⟨_, hx.trans (by unfold runProcs; rw [hph]; rfl), ?_⟩
    unfold startSettle
    dsimp only
    split
    · exact ⟨rfl, .inl ⟨rfl, rfl⟩⟩
    · rename_i h; exact go _ hb rfl (.inr (.inr (.inr (.inr ⟨rfl, by simp at h ⊢; omega, by simp⟩))))
  · refine ⟨_, hx.trans (by unfold runProcs; rw [hph]; rfl), ?_⟩
    unfold settleTick
    dsimp only
    split
    · exact ⟨rfl, .inl ⟨rfl, rfl⟩⟩
    · rename_i h; exact go _ hb rfl (.inr (.inr (.inr (.inr ⟨rfl, by simp at h ⊢; omega, by simp; omega⟩))))

/-- A sequencer step of the command in a position it can hold. -/
theorem exec_pos {i : Instr} {s : State} (hp : s.positionedAt i) (hc : s.cfg.wf) (hb : s.flags.busy = true)
    (hlen : s.regs.pageBuf.length = s.cfg.pageSize) :
    ∃ t, exec i s = .next t ∧ Pos i s t := by
  cases i
  case readbyte =>
    obtain ⟨hrd, hrt⟩ := hp
    have go : ∀ t : State, t.seq.retT = s.seq.retT → t.flags.busy = true → t.seq.op = s.seq.op → t.seq.ph.reading → Pos .readbyte s t :=
      fun t h1 h2 h3 h4 => ⟨h3, .inr ⟨h2, h4, h1.trans hrt⟩⟩
    rcases hrd with hph | hph | hph | hph | hph | hph | hph
    · refine ⟨_, (exec_busy _ hb).trans (by unfold runProcs; rw [hph]; rfl), ?_⟩
      exact go _ rfl hb rfl (.inr (.inl rfl))
    · refine ⟨_, (exec_busy _ hb).trans (by unfold runProcs; rw [hph]; rfl), ?_⟩
      exact go _ rfl hb rfl (.inr (.inr (.inl rfl)))
    · refine ⟨_, (exec_busy _ hb).trans (by unfold runProcs; rw [hph]; rfl), ?_⟩
      exact go _ rfl hb rfl (.inr (.inr (.inr (.inl rfl))))
    · refine ⟨_, (exec_busy _ hb).trans (by unfold runProcs; rw [hph]; rfl), ?_⟩
      exact go _ rfl hb rfl (.inr (.inr (.inr (.inr (.inl rfl)))))
    · refine ⟨_, (exec_busy _ hb).trans (by unfold runProcs; rw [hph]; rfl), ?_⟩
      exact go _ rfl hb rfl (.inr (.inr (.inr (.inr (.inr (.inl rfl))))))
    · refine ⟨_, (exec_busy _ hb).trans (by unfold runProcs; rw [hph]; rfl), ?_⟩
      exact go _ rfl hb rfl (.inr (.inr (.inr (.inr (.inr (.inr rfl))))))
    · refine ⟨_, (exec_busy _ hb).trans (by unfold runProcs; rw [hph]; show readReturn _ = _; unfold readReturn; rw [show (s.driveCE false).seq.retT = .finish from hrt]), ?_⟩
      exact ⟨rfl, .inl ⟨rfl, rfl⟩⟩
  case writebyte =>
    rcases hp with hwr | ⟨hpol, hrt⟩
    · have go : ∀ t : State, t.flags.busy = true → t.seq.op = s.seq.op → t.seq.ph.writing → Pos .writebyte s t :=
        fun t h2 h3 h4 => ⟨h3, .inr ⟨h2, .inl h4⟩⟩
      rcases hwr with hph | hph | hph | hph | hph | hph | hph
      · refine ⟨_, (exec_busy _ hb).trans (by unfold runProcs; rw [hph]; rfl), ?_⟩
        exact go _ hb rfl (.inr (.inl rfl))
      · refine ⟨_, (exec_busy _ hb).trans (by unfold runProcs; rw [hph]; rfl), ?_⟩
        exact go _ hb rfl (.inr (.inr (.inl rfl)))
      · refine ⟨_, (exec_busy _ hb).trans (by unfold runProcs; rw [hph]; rfl), ?_⟩
        exact go _ (by simpa using hb) (by simp) (.inr (.inr (.inr (.inl rfl))))
      · refine ⟨_, (exec_busy _ hb).trans (by unfold runProcs; rw [hph]; rfl), ?_⟩
        exact go _ hb rfl (.inr (.inr (.inr (.inr (.inl rfl)))))
      · refine ⟨_, (exec_busy _ hb).trans (by unfold runProcs; rw [hph]; rfl), ?_⟩
        exact go _ hb rfl (.inr (.inr (.inr (.inr (.inr (.inl rfl))))))
      · refine ⟨_, (exec_busy _ hb).trans (by unfold runProcs; rw [hph]; rfl), ?_⟩
        exact go _ hb rfl (.inr (.inr (.inr (.inr (.inr (.inr rfl))))))
      · refine ⟨_, (exec_busy _ hb).trans (by unfold runProcs; rw [hph]; rfl), ?_⟩
        exact ⟨rfl, .inr ⟨hb, .inr ⟨.inl ⟨rfl, rfl⟩, rfl⟩⟩⟩
    · have hbud := hc.2.2.2.1
      have go : ∀ t : State, t.flags.busy = true → t.seq.op = s.seq.op → t.polling → t.seq.retT = s.seq.retT → Pos .writebyte s t :=
        fun t h2 h3 h4 h5 => ⟨h3, .inr ⟨h2, .inr ⟨h4, h5.trans hrt⟩⟩⟩
      rcases hpol with ⟨hph, hcnt⟩ | ⟨hph | hph | hph | hph | hph, hcnt⟩
      · refine ⟨_, (exec_busy _ hb).trans (by unfold runProcs; rw [hph]; rfl), ?_⟩
        refine go _ hb rfl (.inr ⟨.inl rfl, ?_⟩) rfl
        show s.seq.pollCnt < s.cfg.pollBudget; rw [hcnt]; exact hbud
      · refine ⟨_, (exec_busy _ hb).trans (by unfold runProcs; rw [hph]; rfl), ?_⟩
        exact go _ hb rfl (.inr ⟨.inr (.inl rfl), hcnt⟩) rfl
      · refine ⟨_, (exec_busy _ hb).trans (by unfold runProcs; rw [hph]; rfl), ?_⟩
        exact go _ hb rfl (.inr ⟨.inr (.inr (.inl rfl)), hcnt⟩) rfl
      · refine ⟨_, (exec_busy _ hb).trans (by unfold runProcs; rw [hph]; rfl), ?_⟩
        exact go _ hb rfl (.inr ⟨.inr (.inr (.inr (.inl rfl))), hcnt⟩) rfl
      · refine ⟨_, (exec_busy _ hb).trans (by unfold runProcs; rw [hph]; rfl), ?_⟩
        exact go _ hb rfl (.inr ⟨.inr (.inr (.inr (.inr rfl))), hcnt⟩) rfl
      · have hret : ∀ (ok : Bool) (u : State), u.seq.retT = .finish → u.seq.op = s.seq.op → ∃ t, pollReturn ok u = .next t ∧ Pos .writebyte s t := by
          intro ok u h1 h2
          unfold pollReturn
          dsimp only
          rw [show (u.setPollOk ok).seq.retT = .finish from h1]
          exact ⟨_, rfl, h2, .inl ⟨rfl, rfl⟩⟩
        have : ∃ t, pollDecide (s.driveCE false) = .next t ∧ Pos .writebyte s t := by
          unfold pollDecide
          dsimp only
          split
          · exact hret _ _ hrt rfl
          · split
            · exact hret _ _ hrt rfl
            · rename_i hne
              refine ⟨_, rfl, go _ hb rfl (.inr ⟨.inl rfl, ?_⟩) rfl⟩
              simp at hne ⊢; omega
        obtain ⟨t, ht, hpt⟩ := this
        exact ⟨t, (exec_busy _ hb).trans (by unfold runProcs; rw [hph]; exact ht), hpt⟩
  case writepage => exact paging_pos (.inl ⟨rfl, rfl⟩) hp hc hb
  case eraseall => exact paging_pos (.inr (.inl ⟨rfl, rfl, hp.2⟩)) hp.1 hc hb
  case loadstream =>
    obtain ⟨⟨hph, hpl, hrem, hend⟩ | hp, hbound⟩ := hp
    · refine ⟨_, (exec_busy _ hb).trans (by unfold runProcs; rw [hph]; rfl), ?_⟩
      split
      · unfold takeByte
        dsimp only
        split
        · refine loadFlush_pos { s with regs := { s.regs with pageBuf := s.regs.pageBuf.set s.seq.pgLen s.port.data }, seq := { s.seq with pgLen := s.seq.pgLen + 1, remain := s.seq.remain - 1 }, port := { s.port with valid := false } } hc hb ?_
          simp; omega
        · rename_i h
          simp at h
          refine ⟨rfl, .inr ⟨hb, .inl ⟨rfl, ?_, ?_, hend⟩, ?_⟩⟩ <;> simp <;> omega
      · split
        · unfold takeEnd
          dsimp only
          split
          · exact loadFlush_pos { s with seq := { s.seq with sEnded := true } } hc hb hbound
          · exact ⟨rfl, .inl ⟨rfl, rfl⟩⟩
        · exact ⟨rfl, .inr ⟨hb, .inl ⟨hph, hpl, hrem, hend⟩, hbound⟩⟩
    · exact paging_pos (.inr (.inr ⟨rfl, rfl, hbound⟩)) hp hc hb
  case unlock => exact sending_pos .unlock unlockSeq (by decide) (fun u h => h) (by rw [exec_busy _ hb]; rfl) hp hb
  case lock => exact sending_pos .lock lockSeq (by decide) (fun u h => h) (by rw [exec_busy _ hb]; rfl) hp hb
  all_goals
    refine ⟨_, (exec_busy _ hb).trans (by unfold runProcs; rw [show s.seq.ph = .prim from hp]; rfl), ?_⟩
    first
    | exact ⟨rfl, .inl ⟨rfl, rfl⟩⟩
    | exact ⟨by simp, .inl ⟨rfl, rfl⟩⟩

/-- R101: the position after acceptance. -/
theorem startOf_pos (i : Instr) (s : State) (hc : s.cfg.wf) : Pos i (s.accept i) (startOf i (s.accept i)) := by
  have hbud := hc.2.2.2.1
  cases i
  case readbyte => exact ⟨rfl, .inr ⟨rfl, .inl rfl, rfl⟩⟩
  case writebyte => exact ⟨rfl, .inr ⟨rfl, .inl (.inl rfl)⟩⟩
  case unlock => exact ⟨rfl, .inr ⟨rfl, .inl rfl⟩⟩
  case lock => exact ⟨rfl, .inr ⟨rfl, .inl rfl⟩⟩
  case writepage =>
    show Pos _ _ (wpCall _ _)
    unfold wpCall
    split
    · rename_i hv; exact ⟨rfl, .inr ⟨rfl, rfl, hv, .inl rfl⟩⟩
    · exact ⟨rfl, .inl ⟨rfl, rfl⟩⟩
  case eraseall =>
    exact eraseBlock_pos { s.accept .eraseall with
      regs := { s.regs with pageBuf := List.replicate s.cfg.pageSize 0 }
      seq := { (s.accept .eraseall).seq with pgBase := 0, allOk := true } } hc rfl rfl (Nat.zero_le _)
  case loadstream =>
    show Pos _ _ (startLoadstream _)
    unfold startLoadstream
    dsimp only
    split
    · exact ⟨rfl, .inl ⟨rfl, rfl⟩⟩
    · rename_i h
      have h1 := s.regs.addrOp.isLt
      have h2 := s.regs.lenOp.isLt
      refine ⟨rfl, .inr ⟨rfl, .inl ⟨rfl, hc.2.2.1.1, ?_, rfl⟩, ?_⟩⟩
      · exact Nat.pos_of_ne_zero h
      · simp [State.addrOperand, State.lenOperand]; omega
  all_goals exact ⟨rfl, .inr ⟨rfl, rfl⟩⟩

/-- R21, R61: a primitive keeps every address in the array. -/
theorem Prim.apply_inArray (a : Prim) {s : State} (h1 : s.bus.aLatch ≤ s.cfg.maxAddr) (h2 : s.dev.inArray s.cfg.maxAddr) :
    (a.apply s).bus.aLatch ≤ s.cfg.maxAddr ∧ (a.apply s).dev.inArray s.cfg.maxAddr := by
  cases a <;> simp [Prim.apply, h1, h2, clamp] <;> exact Device.react_inArray h2 _ _ _ _ h1

/-- R102: the decoder reads an opcode as its command. -/
theorem decode_encode (i : Instr) : decode (encode i) = .ok i := by
  cases i <;> first | rfl | (rename_i o; cases o <;> rfl)

/-- R61, R191: the byte read back is one of the page, so its address is in the array. -/
theorem positionedAt_inPage {i : Instr} {s : State} (h : s.positionedAt i) (hr : s.seq.ph.reading)
    (hc : s.seq.retT = .check) : s.seq.pgBase + s.seq.idx ≤ s.cfg.maxAddr := by
  have key : ∀ r, s.paging r → s.seq.pgBase + s.seq.idx ≤ s.cfg.maxAddr := by
    rintro r ⟨-, hv, hp⟩
    have hv := (pageValid_iff s).1 hv
    have hi : s.seq.idx < s.seq.pgLen := by
      rcases hp with h | h | h | ⟨h, -⟩ | ⟨-, h⟩ | ⟨-, -, h⟩
      · rw [h] at hr; simp [Label.reading] at hr
      · rw [h] at hr; simp [Label.reading] at hr
      · rw [h] at hr; simp [Label.reading] at hr
      · rcases h with h | h | h | h <;> (rw [h] at hr; simp [Label.reading] at hr)
      · rw [h] at hc; cases hc
      · exact h
    omega
  cases i
  case readbyte => rw [h.2] at hc; cases hc
  case writebyte =>
    rcases h with h | ⟨-, h⟩
    · rcases h with h | h | h | h | h | h | h <;> (rw [h] at hr; simp [Label.reading] at hr)
    · rw [h] at hc; cases hc
  case writepage => exact key _ h
  case eraseall => exact key _ h.1
  case loadstream =>
    rcases h.1 with h | h
    · rw [h.1] at hr; simp [Label.reading] at hr
    · exact key _ h
  case unlock =>
    rcases h with h | h | ⟨h | h | h | h, -⟩ | h | ⟨h, -⟩ <;> (rw [h] at hr; simp [Label.reading] at hr)
  case lock =>
    rcases h with h | h | ⟨h | h | h | h, -⟩ | h | ⟨h, -⟩ <;> (rw [h] at hr; simp [Label.reading] at hr)
  all_goals
    rw [show s.seq.ph = .prim from h] at hr; simp [Label.reading] at hr

/-- The parts of the invariant but for the position. -/
theorem exec_inv {i : Instr} {s t : State} (hI : s.Inv) (h : exec i s = .next t) (hp : t.positioned)
    (hrb : t.readBack) : t.Inv := by
  have f := exec_framed h
  obtain ⟨hc, ha, har, hca, hbuf, -, -⟩ := hI
  have hcfg := f.cfg
  cases hb : s.flags.busy with
  | false =>
    have a := exec_idle_accepted hb h
    obtain ⟨buf, hr, hbuf'⟩ := a.regs
    refine ⟨hcfg ▸ hc, by rw [a.bus, hcfg]; exact ha, by rw [a.dev, hcfg]; exact har, by rw [a.dev]; exact hca, ?_, hp, hrb⟩
    rw [hr, hcfg]; rcases hbuf' with rfl | rfl
    · exact hbuf
    · simp
  | true =>
    rcases exec_busy_cases hb h with ⟨a, ka⟩ | ⟨-, -, a⟩
    · have hi := Prim.apply_inArray a ha har
      refine ⟨hcfg ▸ hc, by rw [ka.bus, hcfg]; exact hi.1, by rw [ka.dev, hcfg]; exact hi.2, by rw [f.dev.mem]; exact hca, ?_, hp, hrb⟩
      rw [ka.regs, hcfg]
      have : (a.apply s).regs.pageBuf = s.regs.pageBuf := by cases a <;> simp [Prim.apply]
      rw [this]; exact hbuf
    · obtain ⟨buf, hl, hr⟩ := a.regs
      refine ⟨hcfg ▸ hc, by rw [a.bus, hcfg]; exact ha, by rw [a.dev, hcfg]; exact har, by rw [a.dev]; exact hca, ?_, hp, hrb⟩
      rw [hr, hcfg]; exact hl.trans hbuf

/-- From a state with the invariant the command in `OP`, or any accepted one, goes on and keeps it. -/
theorem exec_goes_on {i : Instr} {s : State} (hI : s.Inv) (hd : s.flags.busy = true → decode s.seq.op = .ok i) :
    ∃ t, exec i s = .next t ∧ t.Inv := by
  cases hb : s.flags.busy with
  | false =>
    have hp := startOf_pos i s hI.config
    refine ⟨_, exec_idle i hb, exec_inv hI (exec_idle i hb) ?_ (startOf_readBack i _)⟩
    rcases hp.2 with h | ⟨h1, h2⟩
    · exact .inl h
    · exact .inr ⟨h1, i, by rw [hp.1]; exact decode_encode i, h2⟩
  | true =>
    rcases hI.position with ⟨h, -⟩ | ⟨-, j, hj, hpos⟩
    · rw [h] at hb; cases hb
    · have hij : j = i := by have := (hd hb).symm.trans hj; cases this; rfl
      subst hij
      obtain ⟨t, ht, hp⟩ := exec_pos hpos hI.config hb hI.buffer
      refine ⟨t, ht, exec_inv hI ht ?_ (exec_busy_readBack hb ht hI.readBack (positionedAt_inPage hpos))⟩
      rcases hp.2 with h | ⟨h1, h2⟩
      · exact .inl h
      · exact .inr ⟨h1, j, by rw [hp.1]; exact hj, h2⟩

theorem State.Inv.withInputs {s : State} (h : s.Inv) (r : List Turn) : ({ s with inputs := r } : State).Inv :=
  ⟨h.config, h.address, h.array, h.canonical, h.buffer, h.position, h.readBack⟩

theorem State.Inv.not_stray {s : State} (h : s.Inv) : nextMove s ≠ .stray := by
  have key : ∀ s : State, s.Inv → sequencerMove s ≠ .stray := by
    intro s h
    unfold sequencerMove
    split
    · rename_i hb
      rcases h.position with ⟨h, -⟩ | ⟨-, j, hj, hpos⟩
      · rw [h] at hb; cases hb
      · rw [hj]; simp
    · simp
  unfold nextMove
  split
  · exact key s h
  · rename_i kept m r hi
    cases m <;> simp only [turnMove, hostReadMove, hostAwaitMove, producerMove, ne_eq, reduceCtorEq, not_false_eq_true]
    · exact key _ (Inv.withInputs h _)
    · unfold hostWriteMove
      repeat' split
      all_goals simp
    · unfold deliverMove
      repeat' split
      all_goals simp

end Sys2Proof.Machine
end

