-- ==== Sys2Proof/Laws/Schedule.lean ====
section
/-! SUPPORT. No meaning looks at the pending moves; runs of the machine under a schedule of sequencer moves. -/

namespace Sys2Proof.Machine

/-- The state with other pending moves. -/
def State.withInputs (s : State) (r : List Turn) : State := { s with inputs := r }

/-- A result with other pending moves. -/
def nextWithInputs (r : List Turn) (x : Result) : Result :=
  match x with
  | .next s => .next (s.withInputs r)
  | .fault e => .fault e
  | .refused e => .refused e

variable (s : State) (r : List Turn)

theorem wpCall_withInputs {d : State → State} (hd : ∀ s : State, d (s.withInputs r) = (d s).withInputs r) :
    wpCall d (s.withInputs r) = (wpCall d s).withInputs r := by
  unfold wpCall
  by_cases h : s.pageValid = true
  · rw [if_pos (by exact h), if_pos h]; rfl
  · rw [if_neg (by exact h), if_neg h]; exact hd s.setDropped

theorem eraseBlock_withInputs : eraseBlock (s.withInputs r) = (eraseBlock s).withInputs r := by
  symm; exact (wpCall_withInputs _ r (d := fun s => s.finish false) fun _ => rfl).symm

theorem eraseAfter_withInputs (ok : Bool) : eraseAfter ok (s.withInputs r) = (eraseAfter ok s).withInputs r := by
  unfold eraseAfter
  dsimp only
  by_cases h : s.seq.pgBase + s.cfg.pageSize ≤ s.cfg.maxAddr
  · rw [if_pos (by exact h), if_pos (by exact h)]; symm; exact (eraseBlock_withInputs _ r).symm
  · rw [if_neg (by exact h), if_neg (by exact h)]; rfl

theorem loadAfter_withInputs (ok : Bool) : loadAfter ok (s.withInputs r) = (loadAfter ok s).withInputs r := by
  unfold loadAfter
  dsimp only
  by_cases h : (decide (s.seq.remain = 0) || s.seq.sEnded) = true
  · rw [if_pos (by exact h), if_pos (by exact h)]; rfl
  · rw [if_neg (by exact h), if_neg (by exact h)]; rfl

theorem loadFlush_withInputs : loadFlush (s.withInputs r) = (loadFlush s).withInputs r := by
  symm; exact (wpCall_withInputs _ r fun s => loadAfter_withInputs s r false).symm

theorem wpReturn_withInputs (ok : Bool) : wpReturn ok (s.withInputs r) = (wpReturn ok s).withInputs r := by
  cases h : s.seq.retP with
  | finish => rw [wpReturn_finish ok h, wpReturn_finish ok (by exact h)]; rfl
  | afterBlock => rw [wpReturn_afterBlock ok h, wpReturn_afterBlock ok (by exact h)]; exact eraseAfter_withInputs s r ok
  | afterChunk => rw [wpReturn_afterChunk ok h, wpReturn_afterChunk ok (by exact h)]; exact loadAfter_withInputs s r ok

theorem decideAttempt_withInputs : decideAttempt (s.withInputs r) = (decideAttempt s).withInputs r := by
  unfold decideAttempt
  by_cases h : (s.flags.pollOk && s.flags.verifyOk) = true
  · rw [if_pos (by exact h), if_pos h]; exact wpReturn_withInputs s r true
  · rw [if_neg (by exact h), if_neg h]
    rw [show (s.withInputs r).cfg.retryCap = s.cfg.retryCap from rfl]
    cases s.cfg.retryCap with
    | none => rfl
    | some k =>
      by_cases hk : k ≤ s.regs.attempts.toNat
      · dsimp only; rw [if_pos (by exact hk), if_pos hk]; exact wpReturn_withInputs s r false
      · dsimp only; rw [if_neg (by exact hk), if_neg hk]; rfl

theorem checkByte_withInputs : checkByte (s.withInputs r) = (checkByte s).withInputs r := by
  by_cases he : s.regs.rdata = s.pageByte s.seq.idx
  · by_cases hl : s.seq.idx + 1 < s.seq.pgLen
    · rw [checkByte_goesOn he hl, checkByte_goesOn (by exact he) (by exact hl)]; rfl
    · rw [checkByte_last he (Nat.le_of_not_lt hl), checkByte_last (by exact he) (by exact Nat.le_of_not_lt hl)]
      symm; exact (decideAttempt_withInputs _ r).symm
  · rw [checkByte_differs he, checkByte_differs (by exact he)]
    symm; exact (decideAttempt_withInputs _ r).symm

theorem readReturn_withInputs : readReturn (s.withInputs r) = nextWithInputs r (readReturn s) := by
  unfold readReturn
  rw [show (s.withInputs r).seq.retT = s.seq.retT from rfl]
  cases s.seq.retT with
  | finish => rfl
  | check => exact congrArg Host.Outcome.next (checkByte_withInputs s r)
  | afterPoll => rfl

theorem pollReturn_withInputs (ok : Bool) : pollReturn ok (s.withInputs r) = nextWithInputs r (pollReturn ok s) := by
  cases h : s.seq.retT with
  | finish => rw [pollReturn_finish ok h, pollReturn_finish ok (by exact h)]; rfl
  | afterPoll => rw [pollReturn_afterPoll ok h, pollReturn_afterPoll ok (by exact h)]; rfl
  | check =>
    unfold pollReturn
    dsimp only
    rw [show ((s.withInputs r).setPollOk ok).seq.retT = .check from h, show (s.setPollOk ok).seq.retT = .check from h]
    rfl

theorem pollDecide_withInputs : pollDecide (s.withInputs r) = nextWithInputs r (pollDecide s) := by
  rw [pollDecide_eq, pollDecide_eq]
  by_cases h1 : s.regs.rdata = s.seq.expect
  · rw [if_pos (by exact h1), if_pos h1]; symm; exact (pollReturn_withInputs _ r true).symm
  · rw [if_neg (by exact h1), if_neg h1]
    by_cases h2 : s.seq.pollCnt + 1 = s.cfg.pollBudget
    · rw [if_pos (by exact h2), if_pos h2]; symm; exact (pollReturn_withInputs _ r false).symm
    · rw [if_neg (by exact h2), if_neg h2]; rfl

theorem setData_withInputs (b : Byte) : (s.withInputs r).setData b = (s.setData b).withInputs r := by
  unfold State.setData
  by_cases h : s.bus.dir = true
  · rw [if_pos (by exact h), if_pos h]; rfl
  · rw [if_neg (by exact h), if_neg h]; rfl

theorem nextPulse_withInputs : nextPulse (s.withInputs r) = (nextPulse s).withInputs r := by
  unfold nextPulse
  dsimp only
  by_cases h : s.seq.idx + 1 < s.seq.pgLen
  · rw [if_pos (by exact h), if_pos (by exact h)]; rfl
  · rw [if_neg (by exact h), if_neg (by exact h)]; rfl

theorem nextEntry_withInputs (t : List Host.Cell) : nextEntry t (s.withInputs r) = (nextEntry t s).withInputs r := by
  unfold nextEntry
  dsimp only
  by_cases h : s.seq.idx + 1 < t.length
  · rw [if_pos (by exact h), if_pos (by exact h)]; rfl
  · rw [if_neg (by exact h), if_neg (by exact h)]; rfl

theorem startSettle_withInputs : startSettle (s.withInputs r) = (startSettle s).withInputs r := by
  unfold startSettle
  dsimp only
  by_cases h : s.cfg.settleTicks = 0
  · rw [if_pos (by exact h), if_pos (by exact h)]; rfl
  · rw [if_neg (by exact h), if_neg (by exact h)]; rfl

theorem settleTick_withInputs : settleTick (s.withInputs r) = (settleTick s).withInputs r := by
  unfold settleTick
  dsimp only
  by_cases h : s.seq.settleCnt - 1 = 0
  · rw [if_pos (by exact h), if_pos (by exact h)]; rfl
  · rw [if_neg (by exact h), if_neg (by exact h)]; rfl

theorem takeByte_withInputs : takeByte (s.withInputs r) = (takeByte s).withInputs r := by
  unfold takeByte
  dsimp only
  by_cases h : (decide (s.seq.pgLen + 1 = s.cfg.pageSize) || decide (s.seq.remain - 1 = 0)) = true
  · rw [if_pos (by exact h), if_pos (by exact h)]; symm; exact (loadFlush_withInputs _ r).symm
  · rw [if_neg (by exact h), if_neg (by exact h)]; rfl

theorem takeEnd_withInputs : takeEnd (s.withInputs r) = (takeEnd s).withInputs r := by
  unfold takeEnd
  dsimp only
  by_cases h : 0 < s.seq.pgLen
  · rw [if_pos (by exact h), if_pos (by exact h)]; symm; exact (loadFlush_withInputs _ r).symm
  · rw [if_neg (by exact h), if_neg (by exact h)]; rfl

/-- The steps of a procedure do not look at the pending moves. -/
def InputFree (p : Proc) : Prop :=
  ∀ l f (s : State) (r : List Turn), p l = some f → f (s.withInputs r) = nextWithInputs r (f s)

theorem readSeq_inputFree : InputFree readSeq := by
  intro l f s r hp
  cases l <;> simp only [readSeq, Option.some.injEq, reduceCtorEq] at hp <;> subst hp
  case rs6 =>
    show readReturn ((s.driveCE false).withInputs r) = _
    exact readReturn_withInputs _ r
  all_goals rfl

theorem poll_inputFree : InputFree poll := by
  intro l f s r hp
  cases l <;> simp only [poll, Option.some.injEq, reduceCtorEq] at hp <;> subst hp
  case pl5 =>
    show pollDecide ((s.driveCE false).withInputs r) = _
    exact pollDecide_withInputs _ r
  all_goals rfl

theorem writeSeq_inputFree : InputFree writeSeq := by
  intro l f s r hp
  cases l <;> simp only [writeSeq, Option.some.injEq, reduceCtorEq] at hp <;> subst hp
  case wb2 => exact congrArg (fun t : State => Host.Outcome.next (t.goto .wb3)) (setData_withInputs s r _)
  all_goals rfl

theorem pageWrite_inputFree : InputFree pageWrite := by
  intro l f s r hp
  cases l <;> simp only [pageWrite, Option.some.injEq, reduceCtorEq] at hp <;> subst hp
  case wp4 => exact congrArg (fun t : State => Host.Outcome.next (t.goto .wp5)) (setData_withInputs s r _)
  case wp6 => symm; exact congrArg Host.Outcome.next (nextPulse_withInputs _ r).symm
  all_goals rfl

theorem protSeq_inputFree (t : List Host.Cell) : InputFree (protSeq t) := by
  intro l f s r hp
  cases l <;> simp only [protSeq, Option.some.injEq, reduceCtorEq] at hp <;> subst hp
  case ps3 => exact congrArg (fun t : State => Host.Outcome.next (t.goto .ps4)) (setData_withInputs s r _)
  case ps5 => symm; exact congrArg Host.Outcome.next (nextEntry_withInputs _ r t).symm
  case ps6 => symm; exact congrArg Host.Outcome.next (startSettle_withInputs _ r).symm
  case ps7 => symm; exact congrArg Host.Outcome.next (settleTick_withInputs _ r).symm
  all_goals rfl

theorem streamStep_inputFree : InputFree streamStep := by
  intro l f s r hp
  cases l <;> simp only [streamStep, Option.some.injEq, reduceCtorEq] at hp
  subst hp
  refine congrArg Host.Outcome.next ?_
  by_cases h : s.port.valid = true
  · rw [if_pos (by exact h), if_pos h]; exact takeByte_withInputs s r
  · rw [if_neg (by exact h), if_neg h]
    by_cases h' : s.port.ended = true
    · rw [if_pos (by exact h'), if_pos h']; exact takeEnd_withInputs s r
    · rw [if_neg (by exact h'), if_neg h']

theorem primStep_inputFree {f : State → State} (h : ∀ (s : State) (r : List Turn), f (s.withInputs r) = (f s).withInputs r) :
    InputFree (primStep f) := by
  intro l g s r hp
  cases l <;> simp only [primStep, Option.some.injEq, reduceCtorEq] at hp
  subst hp
  exact congrArg (fun t : State => Host.Outcome.next (t.finish true)) (h s r)

theorem runProcs_withInputs {procs : List Proc} (h : ∀ p ∈ procs, InputFree p) :
    runProcs procs (s.withInputs r) = nextWithInputs r (runProcs procs s) := by
  unfold runProcs
  rw [show (s.withInputs r).seq.ph = s.seq.ph from rfl]
  split
  · rename_i f hf
    obtain ⟨p, hp, hpf⟩ := List.exists_of_findSome?_eq_some hf
    exact h p hp _ f s r hpf
  · rfl

theorem procsOf_inputFree (i : Instr) : ∀ p ∈ procsOf i, InputFree p := by
  intro p hp
  cases i <;> simp only [procsOf, List.mem_cons, List.not_mem_nil, or_false] at hp
  case readbyte => subst hp; exact readSeq_inputFree
  case writebyte => rcases hp with rfl | rfl; exacts [writeSeq_inputFree, poll_inputFree]
  case writepage => rcases hp with rfl | rfl | rfl; exacts [pageWrite_inputFree, poll_inputFree, readSeq_inputFree]
  case eraseall => rcases hp with rfl | rfl | rfl; exacts [pageWrite_inputFree, poll_inputFree, readSeq_inputFree]
  case loadstream =>
    rcases hp with rfl | rfl | rfl | rfl
    exacts [streamStep_inputFree, pageWrite_inputFree, poll_inputFree, readSeq_inputFree]
  case unlock => subst hp; exact protSeq_inputFree _
  case lock => subst hp; exact protSeq_inputFree _
  case setdata => subst hp; exact primStep_inputFree fun s r => setData_withInputs s r _
  all_goals subst hp; exact primStep_inputFree fun _ _ => rfl

theorem startOf_withInputs (i : Instr) : startOf i (s.withInputs r) = (startOf i s).withInputs r := by
  cases i
  case writepage => symm; exact (wpCall_withInputs _ r (d := fun s => s.finish false) fun _ => rfl).symm
  case eraseall => symm; exact (eraseBlock_withInputs _ r).symm
  case loadstream =>
    show startLoadstream _ = (startLoadstream _).withInputs r
    unfold startLoadstream
    dsimp only
    by_cases h : s.lenOperand = 0
    · rw [if_pos (by exact h), if_pos (by exact h)]; rfl
    · rw [if_neg (by exact h), if_neg (by exact h)]; rfl
  all_goals rfl

/-- No meaning looks at the pending moves or changes them. -/
theorem exec_withInputs (i : Instr) : exec i (s.withInputs r) = nextWithInputs r (exec i s) := by
  cases hb : s.flags.busy with
  | false =>
    rw [exec_idle i hb, exec_idle i (by exact hb)]
    exact congrArg Host.Outcome.next (startOf_withInputs (s.accept i) r i)
  | true =>
    rw [exec_busy i hb, exec_busy i (by exact hb)]
    exact runProcs_withInputs s r (procsOf_inputFree i)

theorem exec_inputs_next {i : Instr} {s t : State} (h : exec i s = .next t) (r : List Turn) :
    exec i (s.withInputs r) = .next (t.withInputs r) := by
  rw [exec_withInputs, h]; rfl

/-! ### Runs of the machine -/

/-- The run of the host's interface, step by step. -/
theorem run_eq (k : Nat) (s : State) :
    core.run (k + 1) s = match step s with
      | .next t => core.run k t
      | .fault e => .fault e
      | .refused e => .refused e := by
  refine (Host.Core.run.eq_2 core s k).trans ?_
  cases h : step s <;> rw [show core.step s = _ from h]

theorem run_succ {s t : State} (k : Nat) (h : step s = .next t) : core.run (k + 1) s = core.run k t := by
  rw [run_eq, h]

theorem run_add {s t : State} {j : Nat} (k : Nat) (h : core.run j s = .next t) : core.run (j + k) s = core.run k t := by
  induction j generalizing s with
  | zero => cases h; rw [Nat.zero_add]
  | succ j ih =>
    rw [show j + 1 + k = (j + k) + 1 by omega]
    cases hs : step s with
    | next u => rw [run_succ _ hs] at h ⊢; exact ih h
    | fault e => rw [run_eq, hs] at h; cases h
    | refused e => rw [run_eq, hs] at h; cases h

theorem execTimes_trace_length {k : Nat} {i : Instr} {s t : State} (h : execTimes k i s = .next t) :
    t.trace.length ≤ s.trace.length + k := by
  induction k generalizing s with
  | zero => cases h; exact Nat.le_refl _
  | succ k ih =>
    simp only [execTimes] at h
    cases hx : exec i s with
    | next u =>
      rw [hx] at h
      have h1 := ih h
      have h2 := exec_trace_length hx
      split at h2 <;> omega
    | fault e => rw [hx] at h; cases h
    | refused e => rw [hx] at h; cases h

/-- A run of a command each of whose steps made an event is the run of the machine under as many sequencer moves. -/
theorem run_sequencer {k : Nat} {i : Instr} {s t : State} (rest : List Turn) (hc : s.cfg.wf)
    (hop : decode s.seq.op = .ok i) (h : execTimes k i s = .next t) (htr : t.trace.length = s.trace.length + k) :
    core.run k (s.withInputs (List.replicate k .sequencer ++ rest)) = .next (t.withInputs rest) := by
  induction k generalizing s with
  | zero => cases h; rfl
  | succ k ih =>
    simp only [execTimes] at h
    cases hx : exec i s with
    | fault e => rw [hx] at h; cases h
    | refused e => rw [hx] at h; cases h
    | next u =>
      rw [hx] at h
      have h1 := execTimes_trace_length h
      have h2 := exec_trace_length hx
      have hb : s.flags.busy = true := by
        cases hb : s.flags.busy with
        | true => rfl
        | false => rw [hb] at h2; simp at h2; omega
      rw [hb] at h2
      have hs : step (s.withInputs (List.replicate (k + 1) .sequencer ++ rest)) =
          .next (u.withInputs (List.replicate k .sequencer ++ rest)) := by
        rw [step_eq (by exact hc)]
        have : nextMove (s.withInputs (List.replicate (k + 1) .sequencer ++ rest)) =
            .run i (s.withInputs (List.replicate k .sequencer ++ rest)) := by
          unfold nextMove
          rw [nextTurn_first (t := .sequencer) (rest := List.replicate k .sequencer ++ rest) (by simp [State.withInputs, List.replicate_succ]) rfl]
          simp [State.withInputs, turnMove, sequencerMove, hb, hop]
        rw [this]
        exact exec_inputs_next hx _
      rw [run_succ k hs]
      refine ih (by rw [(exec_framed hx).cfg]; exact hc) (by rw [exec_busy_op hb hx]; exact hop) h ?_
      simp at h2; omega

end Sys2Proof.Machine
end

