-- ==== Sys2Proof/Tests/Slice0.lean ====
section
/-! SUPPORT. Tests: well-formedness, decoding, one step of each command against the vectors of `95_test_vectors.md`, and a witness for the hypotheses of each statement. -/

namespace Sys2Proof.Tests
open Sys2Proof Sys2Proof.Machine

/-! ### Helpers -/

/-- CFG-A of `95_test_vectors.md`. -/
def cfgA : Config := { maxAddr := 0x7FFF, pageSize := 64, pollBudget := 4, settleTicks := 2, retryCap := none }

/-- S0 of `95_test_vectors.md`. -/
def s0 : State := State.resetWith cfgA

/-- A state in which the command `i` runs, at the label `l`. -/
def State.running (s : State) (i : Instr) (l : Label) : State :=
  { s with flags := { s.flags with busy := true }, seq := { s.seq with op := encode i, ph := l } }

/-- A state with given operand registers. -/
def State.operands (s : State) (a : Word) (b : Byte) (n : Word) : State :=
  { s with regs := { s.regs with addrOp := a, dataOp := b, lenOp := n } }

/-- A state with given pending moves. -/
def State.pending (s : State) (ts : List Turn) : State := { s with inputs := ts }

/-- A state with given lines. -/
def State.lined (s : State) (dir ce we oe : Bool) : State := { s with bus := { s.bus with dir := dir, ce := ce, we := we, oe := oe } }

/-- A state whose device holds given cells. -/
def State.holding (s : State) (m : Memory) : State := { s with dev := { s.dev with mem := m } }

/-- What a test looks at in the next state. -/
def seen {α : Type} (f : State → α) : Result → Option α
  | .next t => some (f t)
  | _ => none

/-! ### Well-formedness (R9, R10) -/

theorem test_cfgA_wf : cfgA.wf := by decide

theorem test_wf_refuses_small_maxAddr : ¬ ({ cfgA with maxAddr := 0x5554 } : Config).coversMagic ∧
    ¬ ({ cfgA with maxAddr := 0x5554 } : Config).wf ∧ ({ cfgA with maxAddr := 0x5555 } : Config).wf := by decide

theorem test_wf_refuses_large_maxAddr : ¬ ({ cfgA with maxAddr := 2 ^ 32 } : Config).fitsOperand ∧
    ¬ ({ cfgA with maxAddr := 2 ^ 32 } : Config).wf ∧ ({ cfgA with maxAddr := 2 ^ 32 - 1 } : Config).wf := by decide

theorem test_wf_refuses_page_sizes : ¬ ({ cfgA with pageSize := 0 } : Config).pageFits ∧
    ¬ ({ cfgA with pageSize := 0x8001 } : Config).pageFits ∧ ({ cfgA with pageSize := 0x8000 } : Config).wf := by decide

theorem test_wf_refuses_no_polls : ¬ ({ cfgA with pollBudget := 0 } : Config).polls ∧
    ¬ ({ cfgA with pollBudget := 0 } : Config).wf := by decide

theorem test_wf_refuses_cap_zero : ¬ ({ cfgA with retryCap := some 0 } : Config).capPositive ∧
    ¬ ({ cfgA with retryCap := some 0 } : Config).wf ∧ ({ cfgA with retryCap := some 1 } : Config).wf := by decide

theorem test_step_refuses_bad_config : step (State.resetWith { cfgA with maxAddr := 0x5554 }) = .refused .badConfig := rfl

/-- R105: codes beside the defined ones, which no instruction is. -/
theorem test_reserved_codes_refused : [0x00, 0x06, 0x0F, 0x16, 0x1F, 0x22, 0x2F, 0x31, 0x3F, 0x42, 0x4F, 0x52, 0xFF].all
    (fun v => decide (decode v = .error (.reserved v))) = true := by decide

/-! ### Decoding: the pattern column of R102 -/

theorem test_decode_setaddr : decodeTableWord 8 0b00000001 = some .setaddr := by decide
theorem test_decode_setdata : decodeTableWord 8 0b00000010 = some .setdata := by decide
theorem test_decode_readdata : decodeTableWord 8 0b00000011 = some .readdata := by decide
theorem test_decode_setdir_input : decodeTableWord 8 0b00000100 = some (.setdir false) := by decide
theorem test_decode_setdir_output : decodeTableWord 8 0b00000101 = some (.setdir true) := by decide
theorem test_decode_ceAssert : decodeTableWord 8 0b00010000 = some .ceAssert := by decide
theorem test_decode_ceDeassert : decodeTableWord 8 0b00010001 = some .ceDeassert := by decide
theorem test_decode_weAssert : decodeTableWord 8 0b00010010 = some .weAssert := by decide
theorem test_decode_weDeassert : decodeTableWord 8 0b00010011 = some .weDeassert := by decide
theorem test_decode_oeAssert : decodeTableWord 8 0b00010100 = some .oeAssert := by decide
theorem test_decode_oeDeassert : decodeTableWord 8 0b00010101 = some .oeDeassert := by decide
theorem test_decode_readbyte : decodeTableWord 8 0b00100000 = some .readbyte := by decide
theorem test_decode_writebyte : decodeTableWord 8 0b00100001 = some .writebyte := by decide
theorem test_decode_writepage : decodeTableWord 8 0b00110000 = some .writepage := by decide
theorem test_decode_unlock : decodeTableWord 8 0b01000000 = some .unlock := by decide
theorem test_decode_lock : decodeTableWord 8 0b01000001 = some .lock := by decide
theorem test_decode_eraseall : decodeTableWord 8 0b01010000 = some .eraseall := by decide
theorem test_decode_loadstream : decodeTableWord 8 0b01010001 = some .loadstream := by decide

/-- The step after `withFetchWord` runs the command placed: acceptance puts its opcode in `OP` and its first label in `PH`. -/
theorem test_fetch_runs_command :
    seen (fun t => (t.seq.op, t.seq.ph, t.inputs)) (step (State.reset.withFetchWord 8 0x20)) = some (0x20, .rs0, []) ∧
    seen (fun t => (t.seq.op, t.seq.ph, t.inputs)) (step (State.reset.withFetchWord 8 0x05)) = some (0x05, .prim, []) := by
  decide

/-- P6 (R107): while a command runs a placed host write is ignored. -/
theorem test_write_while_busy_ignored :
    seen (fun t => (t.seq.op, t.regs.addrOp)) (step (State.pending (State.running s0 .eraseall .wp1) [.hostWrite 2 5])) =
      some (0x50, 0) := by decide

/-! ### The primitives: vectors V40 -/

/-- V40-5, V40-6. -/
theorem test_setaddr_clamps :
    seen (fun t => (t.bus.aLatch, t.trace, t.status)) (exec .setaddr (State.running (State.operands s0 0x8063 0 0) .setaddr .prim)) =
      some (0x7FFF, [.addr 0x7FFF], 0x022) ∧
    seen (fun t => (t.bus.aLatch, t.regs.addrOp)) (exec .setaddr (State.running (State.operands s0 0xFFFFFFFF 0 0) .setaddr .prim)) =
      some (0x7FFF, 0xFFFFFFFF) := by decide

/-- V40-1, V40-3. -/
theorem test_setaddr_keeps_bounds :
    seen (fun t => t.bus.aLatch) (exec .setaddr (State.running (State.operands s0 0 0 0) .setaddr .prim)) = some 0 ∧
    seen (fun t => t.bus.aLatch) (exec .setaddr (State.running (State.operands s0 0x7FFF 0 0) .setaddr .prim)) = some 0x7FFF := by
  decide

/-- V40-7. -/
theorem test_setdata_output :
    seen (fun t => (t.pins.dqOut, t.pins.dqOe, t.trace, t.status)) (exec .setdata (State.running (State.operands s0 0 0xA5 0) .setdata .prim)) =
      some (0xA5, true, [.data 0xA5], 0x022) := by decide

/-- V40-8: the value is free (U1), the rest is not. -/
theorem test_setdata_input :
    seen (fun t => (t.pins.dqOe, t.trace, t.status))
      (exec .setdata (State.running (State.operands (State.lined s0 false false false false) 0 0xA5 0) .setdata .prim)) =
      some (false, [.data 0xA5], 0x002) := by decide

/-- V40-13. -/
theorem test_readdata_samples_array :
    seen (fun t => (t.regs.rdata, t.trace, t.status))
      (exec .readdata (State.running { State.holding s0 [(0x1234, 0x5A)] with
        bus := { aLatch := 0x1234, dLatch := 0, dir := false, ce := true, we := false, oe := true } } .readdata .prim)) =
      some (0x5A, [.sample 0x5A], 0x142) := by decide

/-- V40-12: the value is free (U2), the rest is not. -/
theorem test_readdata_floating :
    seen (fun t => (t.status, t.trace.length)) (exec .readdata (State.running (State.lined s0 false false false false) .readdata .prim)) =
      some (0x002, 1) := by decide

/-- V40-9. -/
theorem test_setdir_input :
    seen (fun t => (t.bus.dir, t.bus.dLatch, t.trace, t.status)) (exec (.setdir false) (State.running s0 (.setdir false) .prim)) =
      some (false, 0, [.dir false], 0x002) := by decide

/-- V40-10. -/
theorem test_setdir_output :
    seen (fun t => (t.bus, t.status)) (exec (.setdir true) (State.running s0 (.setdir true) .prim)) = some (s0.bus, 0x022) := by
  decide

/-- V40-14. -/
theorem test_ceAssert :
    seen (fun t => (t.pins.ceN, t.trace, t.status)) (exec .ceAssert (State.running s0 .ceAssert .prim)) =
      some (false, [.ce true], 0x062) := by decide

/-- V40-15. -/
theorem test_ceDeassert :
    seen (fun t => (t.pins.ceN, t.trace, t.status)) (exec .ceDeassert (State.running (State.lined s0 true true false false) .ceDeassert .prim)) =
      some (true, [.ce false], 0x022) := by decide

/-- Section 2.1, the hand-made write pulse: "at `CE-` it becomes busy". -/
theorem test_ceDeassert_starts_cycle :
    seen (fun t => (t.dev.busy, t.dev.cycle))
      (exec .ceDeassert (State.running { State.lined s0 true true false false with
        dev := { s0.dev with pend := [(0x0123, 0x77)], last := some (0x0123, 0x77) } } .ceDeassert .prim)) =
      some (true, [(0x0123, 0x77)]) := by decide

/-- V40-16. -/
theorem test_weAssert :
    seen (fun t => (t.pins.weN, t.trace, t.status, t.dev.undef)) (exec .weAssert (State.running s0 .weAssert .prim)) =
      some (false, [.we true], 0x0A2, false) := by decide

/-- V40-20. -/
theorem test_weAssert_with_output :
    seen (fun t => (t.bus.we, t.dev.undef)) (exec .weAssert (State.running (State.lined s0 false true false true) .weAssert .prim)) =
      some (true, true) := by decide

/-- V40-17. -/
theorem test_weDeassert_outside_window :
    seen (fun t => (t.bus.we, t.dev.pend, t.status)) (exec .weDeassert (State.running (State.lined s0 true false true false) .weDeassert .prim)) =
      some (false, [], 0x022) := by decide

/-- Section 2.1, the hand-made write pulse: "at `WE-` the device latches `(0x0123, 0x77)`". -/
theorem test_weDeassert_latches :
    seen (fun t => (t.dev.pend, t.dev.last))
      (exec .weDeassert (State.running { s0 with
        bus := { aLatch := 0x0123, dLatch := 0x77, dir := true, ce := true, we := true, oe := false } } .weDeassert .prim)) =
      some ([(0x0123, 0x77)], some (0x0123, 0x77)) := by decide

/-- V40-18. -/
theorem test_oeAssert :
    seen (fun t => (t.pins.oeN, t.trace, t.status)) (exec .oeAssert (State.running s0 .oeAssert .prim)) =
      some (false, [.oe true], 0x122) := by decide

/-- V40-19. -/
theorem test_oeDeassert :
    seen (fun t => (t.pins.oeN, t.trace, t.status)) (exec .oeDeassert (State.running (State.lined s0 true false false true) .oeDeassert .prim)) =
      some (true, [.oe false], 0x022) := by decide

/-! ### Byte transactions: vectors V41 -/

/-- V41-2: `RS0` clamps. -/
theorem test_readbyte_clamps :
    seen (fun t => (t.bus.aLatch, t.seq.ph))
      (exec .readbyte (State.running { s0 with seq := { s0.seq with tAddr := 0x9000 } } .readbyte .rs0)) =
      some (0x7FFF, .rs1) := by decide

/-- V41-1: the end state of the last step. -/
theorem test_readbyte_finishes :
    seen (fun t => (t.status, t.trace, t.seq.ph)) (exec .readbyte (State.running (State.lined s0 false true false false) .readbyte .rs6)) =
      some (0x002, [.ce false], .idle) := by decide

/-- V41-6: the last sample of the budget, without a match. -/
theorem test_writebyte_times_out :
    seen (fun t => (t.status, t.seq.ph))
      (exec .writebyte (State.running { State.lined s0 false true false false with
        regs := { s0.regs with rdata := 0x80 }, seq := { s0.seq with expect := 0x42, pollCnt := 3 } } .writebyte .pl5)) =
      some (0x000, .idle) := by decide

/-- V41-4: the first sample matches. -/
theorem test_writebyte_matches :
    seen (fun t => (t.status, t.seq.ph))
      (exec .writebyte (State.running { State.lined s0 false true false false with
        regs := { s0.regs with rdata := 0x42 }, seq := { s0.seq with expect := 0x42, pollCnt := 0 } } .writebyte .pl5)) =
      some (0x006, .idle) := by decide

/-! ### The page writer: vectors V42 -/

/-- V42-2, V42-3, V42-5, V42-6, V42-7. -/
theorem test_writepage_drops :
    [(0x0040, 0), (0x0000, 65), (0x7FC1, 64), (0x8000, 1), (0xFFFFFFFF, 2)].all (fun (c : Word × Word) =>
      seen (fun t => (t.status, t.trace, t.bus)) (exec .writepage (State.operands s0 c.1 0 c.2)) == some (0x030, [], s0.bus)) = true := by
  decide

/-- V42-4, V42-8: valid at the top of the array. -/
theorem test_writepage_starts :
    [(0x7FC0, 64), (0x7FFF, 1)].all (fun (c : Word × Word) =>
      seen (fun t => (t.seq.ph, t.flags.busy, t.flags.dropped)) (exec .writepage (State.operands s0 c.1 0 c.2)) ==
        some (.wp1, true, false)) = true := by decide

/-! ### The protection sequencer: vectors V43 -/

/-- V43-1: the address and the byte of the last of the six pulses. -/
theorem test_unlock_last_entry :
    seen (fun t => t.bus.aLatch) (exec .unlock (State.running { s0 with seq := { s0.seq with idx := 5 } } .unlock .ps2)) = some 0x5555 ∧
    seen (fun t => t.bus.dLatch) (exec .unlock (State.running { s0 with seq := { s0.seq with idx := 5 } } .unlock .ps3)) = some 0x20 := by
  decide

/-- V43-4: with `SETTLE_TICKS = 0` the command finishes with `CE-`. -/
theorem test_unlock_without_settle :
    seen (fun t => (t.status, t.trace, t.seq.ph))
      (exec .unlock (State.running { State.lined s0 true true false false with cfg := { cfgA with settleTicks := 0 } } .unlock .ps6)) =
      some (0x022, [.ce false], .idle) := by decide

/-- V43-2: the last of the three pulses ends the table. -/
theorem test_lock_last_entry :
    seen (fun t => t.bus.dLatch) (exec .lock (State.running { s0 with seq := { s0.seq with idx := 2 } } .lock .ps3)) = some 0xA0 ∧
    seen (fun t => t.seq.ph)
      (exec .lock (State.running { State.lined s0 true true true false with seq := { s0.seq with idx := 2 } } .lock .ps5)) = some .ps6 := by
  decide

/-- V43-2: the device is protected at `CE-`. -/
theorem test_lock_protects :
    seen (fun t => (t.dev.prot, t.seq.ph, t.seq.settleCnt))
      (exec .lock (State.running { State.lined s0 true true false false with dev := { s0.dev with pend := lockSeq } } .lock .ps6)) =
      some (true, .ps7, 2) := by decide

/-! ### The bulk operations: vectors V44 -/

/-- V44-1: the first block. -/
theorem test_eraseall_starts :
    seen (fun t => (t.seq.pgBase, t.seq.pgLen, t.seq.ph, t.regs.attempts))
      (exec .eraseall { s0 with regs := { s0.regs with attempts := 7 } }) = some (0, 64, .wp1, 0) := by decide

/-- V44-2: the last block is short. -/
theorem test_eraseall_last_block :
    seen (fun t => (t.seq.pgBase, t.seq.pgLen, t.seq.ph, t.flags.verifyOk))
      (exec .eraseall (State.running { State.lined s0 false true false false with
        cfg := { cfgA with maxAddr := 0x5565 }
        flags := { s0.flags with pollOk := true }
        seq := { s0.seq with retT := .check, retP := .afterBlock, idx := 63, pgBase := 0x5500, pgLen := 64, allOk := true } }
        .eraseall .rs6)) = some (0x5540, 38, .wp1, true) := by decide

/-- V44-6. -/
theorem test_loadstream_empty :
    seen (fun t => (t.status, t.seq.ph, t.trace)) (exec .loadstream (State.operands s0 0x0100 0 0)) = some (0x022, .idle, []) := by
  decide

/-- V44-9: the second chunk is dropped. -/
theorem test_loadstream_drops :
    seen (fun t => (t.flags.ok, t.flags.dropped, t.seq.ph, t.trace))
      (exec .loadstream (State.running { s0 with
        port := { valid := true, ended := false, data := 9 }
        seq := { s0.seq with pgBase := 0x8000, pgLen := 35, remain := 1, allOk := true } } .loadstream .ls0)) =
      some (false, true, .idle, []) := by decide

/-! ### The device's own steps -/

/-- Section 2.1: "after `Commit`, `mem[0x0123] = 0x77`". -/
theorem test_commit :
    seen (fun t => (t.dev.busy, t.dev.mem))
      (step (State.pending { s0 with dev := { s0.dev with busy := true, cycle := [(0x0123, 0x77)] } } [.commit])) =
      some (false, [(0x0123, 0x77)]) := by decide

/-- V42-10: `Fail` "storing only `(0x0041, 0x22)`". -/
theorem test_fail :
    seen (fun t => (t.dev.busy, t.dev.mem))
      (step (State.pending { s0 with dev := { s0.dev with busy := true, cycle := [(0x0040, 0x11), (0x0041, 0x22)] } }
        [.fail [false, true]])) = some (false, [(0x0041, 0x22)]) := by decide

/-! ### Witnesses: for each statement with hypotheses a state and operands that meet them together -/

/-- S0 with the cap of V42-12. -/
def s0Capped : State := State.resetWith { cfgA with retryCap := some 3 }

theorem test_capped_wf : s0Capped.cfg.wf := by decide

/-- `writePage` at the end of an attempt, with `n` bytes read back and equal, the last byte of `PAGE_BUF` sampled. -/
def readBack (s : State) (i : Instr) (r : RetP) (n : Nat) : State :=
  State.running { State.lined s false true false false with
    flags := { s.flags with pollOk := true }
    seq := { s.seq with retT := .check, retP := r, idx := n - 1, pgBase := 0x0040, pgLen := n } } i .rs6

/-- A page call about to start its first attempt. -/
def attempting (s : State) (i : Instr) (base n : Nat) : State :=
  State.running { s with seq := { s.seq with pgBase := base, pgLen := n } } i .wp1

/-- An 8-bit value, and a wider one (log 16). -/
theorem witness_StepRunsAcceptedCommand : ∀ v ∈ [(0x20 : Word), 0x120], ∃ s : State, s.cfg.wf ∧
    s.flags.busy = false ∧ s.inputs = [.hostWrite 0 v] ∧ decode (v.setWidth 8) = .ok .readbyte := by
  intro v hv
  refine ⟨State.pending s0 [.hostWrite 0 v], test_cfgA_wf, rfl, rfl, ?_⟩
  simp only [List.mem_cons, List.not_mem_nil, or_false] at hv
  rcases hv with rfl | rfl <;> rfl

/-- Nothing pending, the sequencer's move, alone and under the host's wait, and the host's wait with its own moves and a later
call behind it. -/
theorem witness_StepRunsSequencerMove :
    ∀ ts ∈ [[], [Turn.sequencer], [Turn.hostAwait, Turn.sequencer], [Turn.hostAwait], [Turn.hostAwait, Turn.hostRead 5],
      [Turn.hostAwait, Turn.hostWrite 0 0x51, Turn.deliver [7], Turn.hostAwait]],
    (State.pending (State.running s0 .readbyte .rs0) ts).cfg.wf ∧
    (State.pending (State.running s0 .readbyte .rs0) ts).flags.busy = true ∧
    (State.pending (State.running s0 .readbyte .rs0) ts).inputs = ts ∧
    decode (State.pending (State.running s0 .readbyte .rs0) ts).seq.op = .ok .readbyte ∧
    (Turn.sequencer ∈ ts ∨ (State.pending (State.running s0 .readbyte .rs0) ts).nextTurn = none) := by
  intro ts h
  refine ⟨test_cfgA_wf, rfl, rfl, (by decide : decode (encode .readbyte) = .ok .readbyte), ?_⟩
  revert ts
  decide

theorem witness_HostWritesIgnored :
    ((State.running s0 .readbyte .rs0).cfg.wf ∧ (State.running s0 .readbyte .rs0).flags.busy = true) ∧
    (s0.cfg.wf ∧ decode ((0x16 : Word).setWidth 8) = .error (.reserved ((0x16 : Word).setWidth 8))) :=
  ⟨⟨by decide, rfl⟩, by decide, rfl⟩

/-- Each clause at the bounds of its range. -/
theorem witness_HostWritesLoadRegisters : ∀ index ∈ [2, 3, 4, 0x100, 0x13F, 1, 5, 6, 7, 8, 0xFF, 0x140],
    s0.cfg.wf ∧ s0.flags.busy = false ∧ (State.pending s0 [.hostWrite index 1]).inputs = [.hostWrite index 1] ∧
    (index = 2 ∨ index = 3 ∨ index = 4 ∨ (0x100 ≤ index ∧ index < 0x100 + s0.cfg.pageSize) ∨ index = 1 ∨ index = 5 ∨
      index = 6 ∨ index = 7 ∨ (7 < index ∧ index < 0x100) ∨ 0x100 + s0.cfg.pageSize ≤ index) := by
  intro index h
  refine ⟨by decide, rfl, rfl, ?_⟩
  revert index
  decide

theorem witness_HostReadsAnswered : s0.cfg.wf ∧ (State.pending s0 [.hostRead 0x13F]).inputs = [.hostRead 0x13F] ∧
    0x3F < s0.cfg.pageSize ∧ (State.pending s0 [.hostAwait]).inputs = [.hostAwait] ∧
    (State.pending s0 [.hostAwait]).flags.busy = false := by decide

/-- The longest page of which `LEN_OP` can hold the length, and the shortest of which it cannot. -/
theorem witness_CallsExpandToAccesses : (∃ bytes : List Byte, bytes.length < 2 ^ 32 ∧ bytes.length = 2 ^ 32 - 1) ∧
    ∃ bytes : List Byte, 2 ^ 32 ≤ bytes.length :=
  ⟨⟨List.replicate (2 ^ 32 - 1) 0, by rw [List.length_replicate]; decide, List.length_replicate⟩,
    List.replicate (2 ^ 32) 0, Nat.le_of_eq List.length_replicate.symm⟩

theorem witness_AcceptanceTouchesNoPin : s0.flags.busy = false ∧ ¬ Instr.readbyte.pages := by decide

theorem witness_ResetAbandonsCommand :
    (State.pending (State.running (State.lined s0 true true false false) .writepage .wp3) [.reset]).cfg.wf ∧
    (State.pending (State.running (State.lined s0 true true false false) .writepage .wp3) [.reset]).inputs = [.reset] := by
  decide

/-- With a write cycle that runs, outside a window. -/
theorem witness_ResetLeavesDevice : ∃ s : State, s.cfg.wf ∧ s.inputs = [.reset] ∧ s.dev.busy = true ∧ s.bus.ce = false :=
  ⟨State.pending { s0 with dev := { s0.dev with busy := true } } [.reset], by decide, rfl, rfl, rfl⟩

theorem witness_SetAddrClampsAddress : (State.operands s0 0x8000 0 0).flags.busy = false := by decide

theorem witness_SetDataWritesLatch : (s0.flags.busy = false ∧ s0.bus.dir = true) ∧
    ((State.lined s0 false false false false).flags.busy = false ∧ (State.lined s0 false false false false).bus.dir = false) := by
  decide

theorem witness_SetDirSetsDirection : s0.flags.busy = false := by decide

theorem witness_ReadDataSamplesBus : ∃ s : State, s.flags.busy = false ∧ s.bus.dir = false ∧ s.bus.ce = true ∧
    s.bus.oe = true ∧ s.bus.we = false ∧ s.dev.undef = false ∧ s.dev.busy = false :=
  ⟨State.lined s0 false true false true, by decide⟩

theorem witness_ControlLineCommandsSetOneLine : ∃ (s : State) (i : Instr) (b : Bus) (e : Event), s.flags.busy = false ∧
    (i = .ceAssert ∧ b = { s.bus with ce := true } ∧ e = .ce true) :=
  ⟨s0, .ceAssert, _, _, by decide, rfl, rfl, rfl⟩

theorem witness_TrailingEdgeLatches :
    (∃ s : State, s.flags.busy = false ∧ s.bus.ce = true ∧ s.bus.we = true ∧ s.bus.oe = false ∧ s.bus.dir = true ∧
      s.dev.busy = false) ∧
    (∃ s : State, s.flags.busy = false ∧ s.bus.ce = false ∧ s.bus.we = true) ∧
    (∃ s : State, s.flags.busy = false ∧ s.bus.ce = true ∧ s.bus.we = false) :=
  ⟨⟨State.lined s0 true true true false, by decide⟩, ⟨State.lined s0 true false true false, by decide⟩,
    ⟨State.lined s0 true true false false, by decide⟩⟩

/-- A window about to close, with latched bytes, in front of a device that is protected or not. -/
def closing (pend : List Host.Cell) (prot : Bool) : State :=
  { State.lined s0 true true false false with dev := { s0.dev with pend := pend, prot := prot } }

/-- The clauses exclude each other: nothing latched, each sequence, a protected device, one page, two pages, and more pulses
than `PAGE_SIZE` inside one page (log 14). -/
theorem witness_WindowCloseStartsCycle :
    (∀ s ∈ [closing [] false, closing unlockSeq true, closing lockSeq false, closing [(0x0010, 0x42)] true,
        closing [(0x007F, 1)] false, closing [(0x007F, 1), (0x0080, 2)] false,
        { closing [(0x0010, 1), (0x0010, 2)] false with cfg := { cfgA with pageSize := 1 } }],
      s.flags.busy = false ∧ s.bus.ce = true ∧ s.bus.we = false ∧ s.dev.contended = false) ∧
    ([(0x0010, 0x42)] : List Host.Cell) ≠ unlockSeq ∧ ([(0x0010, 0x42)] : List Host.Cell) ≠ lockSeq ∧
    onePage 64 [(0x007F, 1)] = true ∧ onePage 64 [(0x007F, 1), (0x0080, 2)] = false ∧
    onePage 1 [(0x0010, 1), (0x0010, 2)] = false := by decide

theorem witness_WriteWithOutputUndefinesDevice :
    ((State.lined s0 false true false true).flags.busy = false ∧ (State.lined s0 false true false true).bus.ce = true ∧
      (State.lined s0 false true false true).bus.oe = true) ∧
    ((State.lined s0 true true true false).flags.busy = false ∧ (State.lined s0 true true true false).bus.ce = true ∧
      (State.lined s0 true true true false).bus.we = true) := by decide

theorem witness_StatusNeverEqualsByteWritten : ∃ s : State, s.flags.busy = false ∧ s.bus.dir = false ∧ s.bus.ce = true ∧
    s.bus.oe = true ∧ s.bus.we = false ∧ s.dev.undef = false ∧ s.dev.busy = true ∧
    s.dev.last = some (s.bus.aLatch, 0x42) :=
  ⟨{ State.lined s0 false true false true with dev := { s0.dev with busy := true, last := some (0, 0x42) } }, by decide⟩

/-- A device whose write cycle runs, with the step of its own that ends it pending, also under the host's wait. -/
def cycling (ts : List Turn) : State :=
  State.pending { State.running s0 .writebyte .pl3 with
    dev := { s0.dev with busy := true, cycle := [(0x0040, 0x11), (0x0041, 0x22)] } } ts

theorem witness_CommitStoresCycle : ∀ ts ∈ [[Turn.commit], [Turn.hostAwait, Turn.commit]],
    (cycling ts).cfg.wf ∧ (cycling ts).flags.busy = true ∧
    ((cycling ts).inputs = [.commit] ∨ (cycling ts).inputs = [.hostAwait, .commit]) ∧
    (cycling ts).dev.busy = true ∧ (cycling ts).dev.hung = false ∧ (cycling ts).dev.undef = false ∧
    (cycling ts).dev.cycle = [] ++ (0x0040, 0x11) :: [(0x0041, 0x22)] ∧
    (∀ c ∈ [((0x0041, 0x22) : Host.Cell)], c.1 ≠ 0x0040) ∧ (∀ c ∈ (cycling ts).dev.cycle, c.1 ≠ 0x0042) := by decide

/-- A pair kept, a pair lost, and one without a flag. -/
theorem witness_FailStoresSubset : ∀ keep ∈ [[false, true], [true]],
    ∀ ts ∈ [[Turn.fail keep], [Turn.hostAwait, Turn.fail keep]],
    (cycling ts).cfg.wf ∧ (cycling ts).flags.busy = true ∧
    ((cycling ts).inputs = [.fail keep] ∨ (cycling ts).inputs = [.hostAwait, .fail keep]) ∧
    (cycling ts).dev.busy = true ∧ (cycling ts).dev.hung = false ∧ (cycling ts).dev.undef = false ∧
    (keep = [false, true] →
      (cycling ts).dev.cycle.zip keep = [((0x0040, 0x11), false)] ++ ((0x0041, 0x22), true) :: [] ∧
      ∀ c ∈ (cycling ts).dev.cycle.zip keep, c.2 = true → c.1.1 ≠ 0x0040) := by decide

/-- The host's read of `STATUS` in mid-command. -/
theorem witness_ArrayChangesOnlyByDeviceSteps : ∃ s t : State, step s = .next t ∧ s.flags.busy = true ∧
    s.dev.undef = false ∧ t.dev.undef = false ∧ (∀ kept rest, s.nextTurn ≠ some (kept, .commit, rest)) ∧
    ∀ kept keep rest, s.nextTurn ≠ some (kept, .fail keep, rest) :=
  ⟨State.pending (State.running s0 .readbyte .rs0) [.hostRead 1], _, rfl, rfl, rfl, rfl,
    fun _ _ h => (by cases h),
    fun _ _ _ h => (by cases h)⟩

theorem witness_BusWrittenOnlyByPrimitives : ∃ s t : State, step s = .next t ∧ t.bus ≠ s.bus :=
  ⟨State.running { s0 with seq := { s0.seq with tAddr := 5 } } .readbyte .rs0, _, rfl, by decide⟩

theorem witness_OneBusChangePerStep : (∃ s t : State, s.flags.busy = true ∧ exec .readbyte s = .next t ∧ s.seq.ph ≠ .ls0) ∧
    ∃ s t : State, s.flags.busy = true ∧ exec .loadstream s = .next t ∧ s.seq.ph = .ls0 :=
  ⟨⟨State.running s0 .readbyte .rs0, _, rfl, rfl, by decide⟩, State.running s0 .loadstream .ls0, _, rfl, rfl, rfl⟩

/-- A step in mid-command, and the acceptance of `loadStream`. -/
theorem witness_CommandsKeepOperands :
    (∃ s t : State, exec .readbyte s = .next t ∧ s.flags.busy = true ∧ s.seq.ph ≠ .ls0) ∧
    ∃ t : State, exec .loadstream s0 = .next t ∧ s0.flags.busy = false :=
  ⟨⟨State.running s0 .readbyte .rs0, _, rfl, rfl, by decide⟩, _, rfl, rfl⟩

theorem witness_RdataWrittenOnlyBySample : ∃ s t : State, exec .readbyte s = .next t ∧ s.seq.ph = .rs4 :=
  ⟨State.running s0 .readbyte .rs4, _, rfl, rfl⟩

theorem witness_ReadByteReadsClampedAddress : (State.operands s0 0x8000 0 0).flags.busy = false ∧
    (State.operands s0 0x8000 0 0).linesIdle ∧ (State.operands s0 0x8000 0 0).dev.undef = false ∧
    (State.operands s0 0x8000 0 0).dev.busy = false := by decide

/-- `unlock` at the last of its ticks, and at one before. -/
def settling (n : Nat) : State := State.running { s0 with seq := { s0.seq with settleCnt := n } } .unlock .ps7

theorem witness_FixedCommandsFinishWithLastStep :
    ((State.running s0 .readbyte .rs6).flags.busy = true ∧ (State.running s0 .readbyte .rs6).seq.retT = .finish) ∧
    ((State.running s0 .unlock .ps6).flags.busy = true ∧ (State.running s0 .unlock .ps6).cfg.settleTicks ≠ 0) ∧
    (State.running { s0 with cfg := { cfgA with settleTicks := 0 } } .lock .ps6).cfg.settleTicks = 0 ∧
    ((settling 1).flags.busy = true ∧ (settling 1).seq.settleCnt ≤ 1) ∧
    ((settling 2).flags.busy = true ∧ 2 ≤ (settling 2).seq.settleCnt) := by decide

theorem witness_WriteByteSendsOnePulse : ∀ p ∈ [true, false],
    ({ s0 with dev := { s0.dev with prot := p } } : State).cfg.wf ∧
    ({ s0 with dev := { s0.dev with prot := p } } : State).flags.busy = false ∧
    ({ s0 with dev := { s0.dev with prot := p } } : State).linesIdle ∧
    ({ s0 with dev := { s0.dev with prot := p } } : State).dev.busy = false := by decide

/-- A polling sample of `writeByte` taken, `n` samples before it. -/
def polled (v : Byte) (n : Nat) : State :=
  State.running { State.lined s0 false true false false with
    regs := { s0.regs with rdata := v }, seq := { s0.seq with expect := 0x42, pollCnt := n } } .writebyte .pl5

theorem witness_PollStepDecides : ∀ c ∈ [(0x42, 3), (0xFF, 3), (0xFF, 2)],
    (polled c.1 c.2).flags.busy = true ∧ (polled c.1 c.2).seq.retT = .finish ∧
    ((polled c.1 c.2).regs.rdata = (polled c.1 c.2).seq.expect ∨
      (polled c.1 c.2).seq.pollCnt + 1 = (polled c.1 c.2).cfg.pollBudget ∨
      (polled c.1 c.2).seq.pollCnt + 1 < (polled c.1 c.2).cfg.pollBudget) := by decide

theorem witness_WriteByteFinishes : s0.cfg.wf ∧ s0.flags.busy = false ∧ s0.linesIdle := by decide

/-- The moves of a write, `k` polling samples, `Commit`, the last sample, and a read, at the top of the array. -/
def writeThenRead (k : Nat) : List Turn :=
  ([.hostWrite 3 ((0x42 : Byte).setWidth 32), .hostWrite 2 0x7FFF, .hostWrite 0 0x21] : List Turn) ++
    List.replicate (8 + 5 * k) Turn.sequencer ++ [Turn.commit] ++ List.replicate 5 Turn.sequencer ++
    [Turn.hostRead 1, Turn.hostWrite 2 0x7FFF, Turn.hostWrite 0 0x20] ++ List.replicate 7 Turn.sequencer ++ [Turn.hostRead 5]

/-- With the least and the greatest number of samples before `Commit`. -/
theorem witness_WriteThenReadReturnsByte : ∀ k ∈ [0, 3], ∃ s : State, s.cfg.wf ∧ s.flags.busy = false ∧ s.linesIdle ∧
    s.dev.ready ∧ s.dev.prot = false ∧ (0x7FFF : Word).toNat ≤ s.cfg.maxAddr ∧ k < s.cfg.pollBudget ∧
    s.inputs = writeThenRead k := by
  have top : (0x7FFF : Word).toNat ≤ cfgA.maxAddr := by simp [cfgA]
  intro k hk
  have hk : k < cfgA.pollBudget := by revert k; decide
  have hc : (State.pending s0 (writeThenRead k)).cfg = cfgA := rfl
  refine ⟨State.pending s0 (writeThenRead k), ?_, rfl, ⟨rfl, rfl, rfl⟩, ⟨rfl, rfl, rfl⟩, rfl, ?_, ?_, rfl⟩ <;> rw [hc]
  exacts [test_cfgA_wf, top, hk]

/-- No byte, one byte too many, one address too far. -/
theorem witness_InvalidPageDropped : ∀ c ∈ [((0x0040 : Word), (0 : Word)), (0, 65), (0x7FC1, 64), (0xFFFFFFFF, 2)],
    (State.operands s0 c.1 0 c.2).flags.busy = false ∧
    ¬ (1 ≤ (State.operands s0 c.1 0 c.2).regs.lenOp.toNat ∧
      (State.operands s0 c.1 0 c.2).regs.lenOp.toNat ≤ (State.operands s0 c.1 0 c.2).cfg.pageSize ∧
      (State.operands s0 c.1 0 c.2).regs.addrOp.toNat + (State.operands s0 c.1 0 c.2).regs.lenOp.toNat - 1 ≤
        (State.operands s0 c.1 0 c.2).cfg.maxAddr) := by
  simp [State.operands, s0, State.resetWith, cfgA, Flags.reset]

theorem witness_ValidPageStarts : ∀ c ∈ [((0x7FC0 : Word), (64 : Word)), (0x7FFF, 1)],
    (State.operands s0 c.1 0 c.2).flags.busy = false ∧ 1 ≤ (State.operands s0 c.1 0 c.2).regs.lenOp.toNat ∧
    (State.operands s0 c.1 0 c.2).regs.lenOp.toNat ≤ (State.operands s0 c.1 0 c.2).cfg.pageSize ∧
    (State.operands s0 c.1 0 c.2).regs.addrOp.toNat + (State.operands s0 c.1 0 c.2).regs.lenOp.toNat - 1 ≤
      (State.operands s0 c.1 0 c.2).cfg.maxAddr := by
  simp [State.operands, s0, State.resetWith, cfgA, Flags.reset]

/-- The last page of the array, and the last byte alone. -/
theorem witness_PageSentInOneWindow : ∀ c ∈ [(0x7FC0, 64), (0x7FFF, 1)],
    Instr.writepage.pages ∧ (attempting s0 .writepage c.1 c.2).flags.busy = true ∧
    (attempting s0 .writepage c.1 c.2).seq.ph = .wp1 ∧ (attempting s0 .writepage c.1 c.2).linesIdle ∧
    (attempting s0 .writepage c.1 c.2).pageValid = true ∧ (attempting s0 .writepage c.1 c.2).seq.pgLen = c.2 ∧
    (attempting s0 .writepage c.1 c.2).dev.busy = false ∧ (attempting s0 .writepage c.1 c.2).dev.prot = false ∧
    (attempting s0 .writepage c.1 c.2).pageCells c.1 c.2 ≠ unlockSeq ∧
    (attempting s0 .writepage c.1 c.2).pageCells c.1 c.2 ≠ lockSeq ∧
    onePage 64 ((attempting s0 .writepage c.1 c.2).pageCells c.1 c.2) = true := by
  decide +kernel

theorem witness_ReadBackFollowsEveryPoll : ∀ c ∈ [((0x42 : Byte), 0), (0xFF, 3)], ∃ s : State, Instr.writepage.pages ∧
    s.flags.busy = true ∧ s.seq.ph = .pl5 ∧ s.seq.retT = .afterPoll ∧
    (s.regs.rdata = s.seq.expect ∨ s.seq.pollCnt + 1 = s.cfg.pollBudget) := by
  intro c hc
  refine ⟨State.running { State.lined s0 false true false false with
    regs := { s0.regs with rdata := c.1 }
    seq := { s0.seq with expect := 0x42, pollCnt := c.2, retT := .afterPoll } } .writepage .pl5, .inl rfl, rfl, rfl, rfl, ?_⟩
  revert c
  decide

theorem witness_ReadBackGoesOn : ∃ s : State, Instr.writepage.pages ∧ s.flags.busy = true ∧ s.seq.ph = .rs6 ∧
    s.seq.retT = .check ∧ s.regs.rdata = s.pageByte s.seq.idx ∧ s.seq.idx + 1 < s.seq.pgLen :=
  ⟨{ readBack s0 .writepage .finish 2 with seq := { (readBack s0 .writepage .finish 2).seq with idx := 0 } }, by decide⟩

/-- Without a cap; below the cap; a byte that differs, and a poll that timed out. -/
theorem witness_FailedAttemptRetries :
    (∃ s : State, s.flags.busy = true ∧ s.seq.ph = .rs6 ∧ s.seq.retT = .check ∧
      (∀ k, s.cfg.retryCap = some k → s.regs.attempts.toNat < k) ∧ s.regs.rdata ≠ s.pageByte s.seq.idx) ∧
    ∃ s : State, s.flags.busy = true ∧ s.seq.ph = .rs6 ∧ s.seq.retT = .check ∧
      (∀ k, s.cfg.retryCap = some k → s.regs.attempts.toNat < k) ∧ s.regs.rdata = s.pageByte s.seq.idx ∧
      s.seq.pgLen ≤ s.seq.idx + 1 ∧ s.flags.pollOk = false :=
  ⟨⟨{ readBack s0 .writepage .finish 2 with regs := { s0.regs with rdata := 0xFF } }, rfl, rfl, rfl,
      fun _ h => (by cases h), by decide⟩,
    { readBack s0Capped .eraseall .afterBlock 2 with
        flags := { s0Capped.flags with busy := true }, regs := { s0Capped.regs with attempts := 2 } }, rfl, rfl, rfl,
      fun _ h => (by cases h; decide), by decide⟩

theorem witness_CapEndsWritePage : ∀ v ∈ [(0xFF : Byte), 0x00], ∃ s : State, s.flags.busy = true ∧ s.seq.ph = .rs6 ∧
    s.seq.retT = .check ∧ s.seq.retP = .finish ∧ s.cfg.retryCap = some 3 ∧ 3 ≤ s.regs.attempts.toNat ∧
    (s.regs.rdata ≠ s.pageByte s.seq.idx ∨ (s.seq.pgLen ≤ s.seq.idx + 1 ∧ s.flags.pollOk = false)) := by
  intro v hv
  refine ⟨{ readBack s0Capped .writepage .finish 2 with
    flags := { s0Capped.flags with busy := true }, regs := { s0Capped.regs with attempts := 3, rdata := v } },
    rfl, rfl, rfl, rfl, rfl, (by decide : 3 ≤ (3 : Word).toNat), ?_⟩
  revert v
  decide

/-- The read-back of the last byte of a page of two, both read equal. -/
def verified : State :=
  { readBack s0 .writepage .finish 2 with
    seq := { (readBack s0 .writepage .finish 2).seq with tAddr := 0x0041 }
    trace := readEvents 0x0040 0 ++ (readEvents 0x0041 0).take 6 }

theorem verified_paging : verified.paging .finish :=
  ⟨rfl, rfl, .inr (.inr (.inr (.inr (.inr ⟨.inr (.inr (.inr (.inr (.inr (.inr rfl))))), rfl, by decide⟩))))⟩

theorem witness_SuccessNeedsPollAndReadBack : ∃ s t : State, s.Inv ∧ s.flags.busy = true ∧ exec .writepage s = .next t ∧
    s.paging .finish ∧ t.flags.busy = false ∧ t.flags.ok = true := by
  refine ⟨verified, _, ⟨by decide, by decide, ⟨?_, ?_, ?_, ?_⟩, by decide, by decide,
    .inr ⟨rfl, .writepage, rfl, verified_paging⟩, fun _ _ => ⟨rfl, [], by decide⟩⟩, rfl, rfl, verified_paging, rfl, rfl⟩ <;>
  intro c h <;> cases h

theorem witness_UncappedWritePageEndsOnlyInSuccess : ∃ s t : State, s.flags.busy = true ∧ exec .writepage s = .next t ∧
    s.paging .finish ∧ s.cfg.retryCap = none :=
  ⟨readBack s0 .writepage .finish 2, _, rfl, rfl,
    ⟨rfl, rfl, .inr (.inr (.inr (.inr (.inr ⟨.inr (.inr (.inr (.inr (.inr (.inr rfl))))), rfl, by decide⟩))))⟩, rfl⟩

/-- A valid page, and one that is dropped. -/
theorem witness_CappedWritePageFinishes : ∀ n ∈ [(1 : Word), 0],
    (State.operands s0Capped 0x0040 0x42 n).cfg.wf ∧ (State.operands s0Capped 0x0040 0x42 n).flags.busy = false ∧
    (State.operands s0Capped 0x0040 0x42 n).cfg.retryCap = some 3 ∧ 3 < 2 ^ 32 :=
  fun _ _ => ⟨test_capped_wf, rfl, rfl, by decide⟩

/-- V42-14: the byte is stored already. -/
theorem witness_ProtectedMatchingPageSucceeds : ∃ s : State, s.cfg.wf ∧ s.flags.busy = false ∧ s.linesIdle ∧ s.dev.ready ∧
    s.dev.prot = true ∧ s.regs.lenOp.toNat = 1 ∧ 1 ≤ s.cfg.pageSize ∧
    s.regs.addrOp.toNat + 1 - 1 ≤ s.cfg.maxAddr ∧
    ∀ j, j < 1 → s.dev.stored (s.regs.addrOp.toNat + j) = s.pageByte j :=
  ⟨{ State.operands s0 0x0010 0 1 with
      regs := { (State.operands s0 0x0010 0 1).regs with pageBuf := s0.regs.pageBuf.set 0 0xFF }
      dev := { s0.dev with prot := true, mem := [(0x0010, 0xFF)] } }, by decide⟩

theorem witness_UnlockSendsSixPulses : s0.cfg.wf ∧ s0.flags.busy = false ∧ s0.linesIdle ∧ s0.dev.busy = false := by decide

theorem witness_LockSendsThreePulses : s0.cfg.wf ∧ s0.flags.busy = false ∧ s0.linesIdle ∧ s0.dev.busy = false := by decide

theorem witness_EraseAllStarts : s0.cfg.wf ∧ s0.flags.busy = false := by decide

/-- At the end of the last attempt under the cap: verified, a byte that differs, a poll that timed out. -/
def ending (i : Instr) (r : RetP) (base : Nat) (rdata : Byte) (pollOk : Bool) : State :=
  { readBack s0Capped i r 64 with
    flags := { s0Capped.flags with busy := true, pollOk := pollOk }
    regs := { s0Capped.regs with attempts := 3, rdata := rdata }
    seq := { (readBack s0Capped i r 64).seq with pgBase := base } }

theorem ending_returns (i : Instr) (r : RetP) (base : Nat) :
    ∀ c ∈ [((0x00 : Byte), true), (0xFF, true), (0x00, false)], ∃ ok : Bool,
    (ok = true → (ending i r base c.1 c.2).regs.rdata = (ending i r base c.1 c.2).pageByte 63 ∧ c.2 = true) ∧
    (ok = false → 3 ≤ (ending i r base c.1 c.2).regs.attempts.toNat ∧
      ((ending i r base c.1 c.2).regs.rdata ≠ (ending i r base c.1 c.2).pageByte 63 ∨ c.2 = false)) := by
  intro c hc
  have h3 : 3 ≤ (3 : Word).toNat := by decide
  have hne : (0xFF : Byte) ≠ 0 := by decide
  simp only [List.mem_cons, List.not_mem_nil, or_false] at hc
  rcases hc with rfl | rfl | rfl
  · exact ⟨true, fun _ => ⟨rfl, rfl⟩, fun h => by cases h⟩
  · exact ⟨false, fun h => (by cases h), fun _ => ⟨h3, .inl hne⟩⟩
  · exact ⟨false, fun h => (by cases h), fun _ => ⟨h3, .inr rfl⟩⟩

/-- The block before the last, and the last. -/
theorem witness_EraseAllWalks : ∀ base ∈ [0x7F80, 0x7FC0], ∀ c ∈ [((0x00 : Byte), true), (0xFF, true), (0x00, false)],
    ∃ (s : State) (ok : Bool), s.cfg.wf ∧ s.flags.busy = true ∧ s.seq.ph = .rs6 ∧
    s.seq.retT = .check ∧ s.seq.retP = .afterBlock ∧ s.seq.pgBase = base ∧
    (ok = true → s.regs.rdata = s.pageByte s.seq.idx ∧ s.seq.idx + 1 = s.seq.pgLen ∧ s.flags.pollOk = true) ∧
    (ok = false → (∃ k, s.cfg.retryCap = some k ∧ k ≤ s.regs.attempts.toNat) ∧
      (s.regs.rdata ≠ s.pageByte s.seq.idx ∨ (s.seq.idx + 1 = s.seq.pgLen ∧ s.flags.pollOk = false))) := by
  intro base _ c hc
  obtain ⟨ok, h1, h2⟩ := ending_returns .eraseall .afterBlock base c hc
  exact ⟨ending .eraseall .afterBlock base c.1 c.2, ok, test_capped_wf, rfl, rfl, rfl, rfl, rfl,
    fun h => ⟨(h1 h).1, rfl, (h1 h).2⟩, fun h => ⟨⟨3, rfl, (h2 h).1⟩, (h2 h).2.imp id fun h => ⟨rfl, h⟩⟩⟩

theorem witness_CappedEraseAllFinishes : s0Capped.cfg.wf ∧ s0Capped.flags.busy = false ∧
    s0Capped.cfg.retryCap = some 3 ∧ 3 < 2 ^ 32 := by decide

theorem witness_LoadStreamStarts : (s0.flags.busy = false ∧ s0.regs.lenOp = 0) ∧
    ((State.operands s0 0 0 1).flags.busy = false ∧ (State.operands s0 0 0 1).regs.lenOp ≠ 0) := by decide

/-- `loadStream` at `LS0`, with bytes gathered and bytes left, and with the producer's pins. -/
def streamed (valid ended : Bool) (base n remain : Nat) : State :=
  State.running { s0 with
    port := { valid := valid, ended := ended, data := 9 }
    seq := { s0.seq with pgBase := base, pgLen := n, remain := remain, allOk := true } } .loadstream .ls0

/-- A chunk that is not full; one that is, at the top of the array; one that the last byte ends. -/
theorem witness_LoadStreamTakesByte : ∀ c ∈ [(0x0100, 62, 2), (0x7FC0, 63, 2), (0x0100, 0, 1)],
    (streamed true false c.1 c.2.1 c.2.2).flags.busy = true ∧ (streamed true false c.1 c.2.1 c.2.2).seq.ph = .ls0 ∧
    (streamed true false c.1 c.2.1 c.2.2).port.valid = true ∧ 0 < (streamed true false c.1 c.2.1 c.2.2).seq.remain ∧
    c.2.1 + 1 ≤ (streamed true false c.1 c.2.1 c.2.2).cfg.pageSize ∧
    c.1 + c.2.1 ≤ (streamed true false c.1 c.2.1 c.2.2).cfg.maxAddr := by decide

/-- No byte and no end mark; the end mark with nothing gathered; with a chunk at the top of the array. The producer's moves
alone and under the host's wait; a delivery with bytes left, with none, taken back, held, and under another command. -/
theorem witness_LoadStreamEndsOrWaits :
    ((streamed false false 0x0100 6 60).flags.busy = true ∧ (streamed false false 0x0100 6 60).port.ended = false) ∧
    ((streamed false true 0x0140 0 66).port.ended = true ∧ (streamed false true 0x0140 0 66).seq.pgLen = 0) ∧
    ((streamed false true 0x7FC0 63 60).port.ended = true ∧ 1 ≤ (streamed false true 0x7FC0 63 60).seq.pgLen ∧
      (streamed false true 0x7FC0 63 60).seq.pgLen ≤ (streamed false true 0x7FC0 63 60).cfg.pageSize ∧
      0x7FC0 + 63 - 1 ≤ (streamed false true 0x7FC0 63 60).cfg.maxAddr) ∧
    (∀ ts ∈ [[Turn.producer true false 9], [Turn.hostAwait, Turn.producer true false 9], [Turn.deliver [9]],
        [Turn.deliver []]],
      (State.pending (streamed false false 0x0100 6 60) ts).cfg.wf ∧
      (State.pending (streamed false false 0x0100 6 60) ts).inputs = ts ∧
      (State.pending (streamed false false 0x0100 6 60) ts).flags.busy = true ∧
      (State.pending (streamed false false 0x0100 6 60) ts).port.valid = false ∧
      (State.pending (streamed false false 0x0100 6 60) ts).port.ended = false) ∧
    ((streamed true false 0x0100 6 60).port.valid = true ∧ (streamed false true 0x0100 6 60).port.ended = true ∧
      (decode (streamed true false 0x0100 6 60).seq.op).toOption = some .loadstream) ∧
    ((State.running s0 .readbyte .rs0).flags.busy = true ∧
      (decode (State.running s0 .readbyte .rs0).seq.op).toOption = some .readbyte) ∧
    (State.pending s0 [.deliver [9]]).flags.busy = false := by decide

/-- R110: a byte offered under the host's wait, and not over an offer that still stands. -/
theorem test_deliver :
    seen (fun t => (t.inputs, t.port)) (step (State.pending (streamed false false 0x0100 6 60) [.deliver [7, 8], .hostAwait])) =
      some ([.deliver [8], .hostAwait], ⟨true, false, 7⟩) ∧
    seen (fun t => (t.inputs, t.port.valid, t.seq.pgLen))
      (step (State.pending (streamed true false 0x0100 6 60) [.deliver [8], .hostAwait])) =
      some ([.deliver [8], .hostAwait], false, 7) := by decide

/-- R110: in a program, under the wait of the call before and at the first writes of its own, a `loadStream` call offers
nothing; a delivery whose command is not `loadStream` offers nothing either. -/
theorem test_deliver_after_its_call :
    (match Program.accesses 64 [.readByte 5, .loadStream [7] 1 0] with
      | some ts => seen (fun t => (t.port, t.seq.ph, t.inputs.length))
          (step (State.pending (State.running s0 .readbyte .rs0) (ts.drop 2)))
      | none => none) = some (⟨false, false, 0⟩, .rs1, 7) ∧
    seen (fun t => (t.port, t.seq.ph)) (step (State.pending (State.running s0 .readbyte .rs0) [.deliver [7], .hostAwait])) =
      some (⟨false, false, 0⟩, .rs1) := by decide

/-- The first chunk past the array, with bytes left and with none, and one that the end mark sends. -/
theorem witness_LoadStreamDropsCrossingChunk : (∀ c ∈ [(0x7FC1, 63, 2), (0x8000, 35, 1)],
    (streamed true false c.1 c.2.1 c.2.2).flags.busy = true ∧ (streamed true false c.1 c.2.1 c.2.2).port.valid = true ∧
    0 < (streamed true false c.1 c.2.1 c.2.2).seq.remain ∧
    (c.2.1 + 1 = (streamed true false c.1 c.2.1 c.2.2).cfg.pageSize ∨ c.2.2 = 1) ∧
    (streamed true false c.1 c.2.1 c.2.2).cfg.maxAddr < c.1 + c.2.1) ∧
    ∀ c ∈ [(0x7FC1, 64), (0x8000, 1)],
    (streamed false true c.1 c.2 5).flags.busy = true ∧ (streamed false true c.1 c.2 5).port.valid = false ∧
    (streamed false true c.1 c.2 5).port.ended = true ∧ 1 ≤ (streamed false true c.1 c.2 5).seq.pgLen ∧
    (streamed false true c.1 c.2 5).cfg.maxAddr < c.1 + c.2 - 1 := by decide

/-- With the stream taken, ended, and neither; verified, a byte that differs, a poll that timed out. -/
theorem witness_LoadStreamChunkDone : ∀ d ∈ [(0, false), (60, true), (60, false)],
    ∀ c ∈ [((0x00 : Byte), true), (0xFF, true), (0x00, false)], ∃ (s : State) (ok : Bool), s.flags.busy = true ∧
    s.seq.ph = .rs6 ∧ s.seq.retT = .check ∧ s.seq.retP = .afterChunk ∧ s.seq.remain = d.1 ∧ s.seq.sEnded = d.2 ∧
    (ok = true → s.regs.rdata = s.pageByte s.seq.idx ∧ s.seq.idx + 1 = s.seq.pgLen ∧ s.flags.pollOk = true) ∧
    (ok = false → (∃ k, s.cfg.retryCap = some k ∧ k ≤ s.regs.attempts.toNat) ∧
      (s.regs.rdata ≠ s.pageByte s.seq.idx ∨ (s.seq.idx + 1 = s.seq.pgLen ∧ s.flags.pollOk = false))) := by
  intro d _ c hc
  obtain ⟨ok, h1, h2⟩ := ending_returns .loadstream .afterChunk 0x0040 c hc
  exact ⟨{ ending .loadstream .afterChunk 0x0040 c.1 c.2 with
    seq := { (ending .loadstream .afterChunk 0x0040 c.1 c.2).seq with remain := d.1, sEnded := d.2 } }, ok,
    rfl, rfl, rfl, rfl, rfl, rfl,
    fun h => ⟨(h1 h).1, rfl, (h1 h).2⟩, fun h => ⟨⟨3, rfl, (h2 h).1⟩, (h2 h).2.imp id fun h => ⟨rfl, h⟩⟩⟩

/-- R67: a write window of a page attempt, open. -/
theorem witness_StepGoesOnAndKeepsInv :
    (State.running { State.lined s0 true true true false with
      seq := { s0.seq with pgBase := 0x0040, pgLen := 2, idx := 1 } } .writepage .wp6).Inv := by
  refine ⟨by decide, by decide, ⟨?_, ?_, ?_, ?_⟩, by decide, by decide, .inr ⟨rfl, .writepage, rfl, rfl, by decide,
    .inr (.inr (.inr (.inl ⟨.inr (.inr (.inr rfl)), by decide⟩)))⟩,
    fun h => by rcases h with h | h | h | h | h | h | h <;> cases h⟩ <;> intro c h <;> cases h

theorem witness_CompositeKeepsDiscipline :
    (∃ s t : State, s.flags.busy = false ∧ s.linesIdle ∧ exec .readbyte s = .next t) ∧
    ∃ s t : State, s.flags.busy = true ∧ s.disciplined ∧ exec .writepage s = .next t ∧ s.bus.we = true :=
  ⟨⟨s0, _, rfl, by decide, rfl⟩,
    State.running (State.lined s0 true true true false) .writepage .wp6, _, rfl,
    ⟨fun _ h => (by cases h; rfl), rfl, rfl, rfl⟩, rfl, rfl⟩

end Sys2Proof.Tests
end

section
/-! SUPPORT. The sequencer's move as a step of the machine (O5). -/

namespace Sys2Proof.Machine

/-- R13, R30: while busy the sequencer's move is a step of the command in `OP`. -/
theorem sequencerMove_busy {s : State} {i : Instr} (hb : s.flags.busy = true) (hd : decode s.seq.op = .ok i) :
    sequencerMove s = .run i s := by
  simp only [sequencerMove, if_pos hb, hd]

/-- With an admissible configuration, a next move that runs a command is that step of it. -/
theorem step_of_run {s u : State} {i : Instr} (hc : s.cfg.wf) (h : nextMove s = .run i u) : step s = exec i u := by
  rw [step_eq hc, h]

/-- The sequencer's move, picked among the pending ones, runs the command in `OP`; the moves around it stay pending. -/
theorem step_sequencer_picked {s : State} {i : Instr} {kept rest : List Turn} (hc : s.cfg.wf)
    (hb : s.flags.busy = true) (hd : decode s.seq.op = .ok i) (hn : s.nextTurn = some (kept, .sequencer, rest)) :
    step s = exec i { s with inputs := kept ++ rest } :=
  step_of_run hc ((nextMove_picked hn).trans (sequencerMove_busy (s := { s with inputs := kept ++ rest }) hb hd))

/-- With no pending move free, the step is the sequencer's and runs the command in `OP` (log 3). -/
theorem step_sequencer_unpicked {s : State} {i : Instr} (hc : s.cfg.wf) (hb : s.flags.busy = true)
    (hd : decode s.seq.op = .ok i) (hn : s.nextTurn = none) : step s = exec i s :=
  step_of_run hc ((nextMove_unpicked hn).trans (sequencerMove_busy hb hd))

/-- Settles O5: the first two clauses pick the sequencer's move, past the host's wait in the second; in the other three no
pending move is free. -/
theorem stepRunsSequencerMove : Obligations.StepRunsSequencerMove := by
  intro s i hc hb hd
  have unpicked : s.nextTurn = none → step s = exec i s := step_sequencer_unpicked hc hb hd
  refine ⟨fun rest hi => ?_, fun rest hi => ?_, fun hi => ?_, fun rest hi hrest => ?_, unpicked⟩
  · exact step_sequencer_picked hc hb hd (nextTurn_first hi rfl)
  · exact step_sequencer_picked hc hb hd (nextTurn_past_await hb hi (by decide) rfl)
  · exact unpicked (nextTurn_nil hi)
  · exact unpicked (nextTurn_await_program hb hi hrest)

end Sys2Proof.Machine
end

section
/-! SUPPORT. The bus discipline of composite commands, from acceptance to the end (O60). -/

namespace Sys2Proof.Machine

/-- R25, R101: accepted with idle lines, a command finds idle lines and the lines of its first label. -/
theorem exec_idle_disciplined {i : Instr} {s t : State} (hb : s.flags.busy = false) (hl : s.linesIdle)
    (h : exec i s = .next t) : t.linesIdle ∧ t.disciplined := by
  rw [exec_idle i hb] at h
  cases h
  have hidle : (startOf i (s.accept i)).linesIdle := by
    unfold State.linesIdle; rw [(startOf_accepted i s).bus]; exact hl
  exact ⟨hidle, resting_disciplined hidle (resting_startOf i _)⟩

/-- R280: at `IDLE` the discipline asks for idle lines. -/
theorem disciplined_linesIdle {t : State} (hd : t.disciplined) (hph : t.seq.ph = .idle) : t.linesIdle := by
  obtain ⟨-, hce, hwe, hoe⟩ := hd
  rw [hph] at hce hwe hoe
  exact ⟨hce, hwe, hoe⟩

/-- Settles O60: acceptance leaves a resting label, and every sequencer step keeps the lines of its label. -/
theorem compositeKeepsDiscipline : Obligations.CompositeKeepsDiscipline := by
  refine ⟨fun i s t _ hb hl h => exec_idle_disciplined hb hl h, fun i s t hi hb hd h => ?_⟩
  have hdt : t.disciplined := exec_disciplined hi hb hd h
  exact ⟨hdt, fun hbt => disciplined_linesIdle hdt (exec_closed hb h hbt), disciplined_safe hdt⟩

end Sys2Proof.Machine
end

section
/-! SUPPORT. The invariant at reset and along the moves that run no command (O14, O58, O59). -/

namespace Sys2Proof.Machine

/-! ### What the parts of the invariant depend on -/

/-- R30: a position is one of the configuration, the flags and the sequencer only. -/
theorem positioned_congr {s t : State} (h : s.positioned) (hc : t.cfg = s.cfg) (hf : t.flags = s.flags)
    (hq : t.seq = s.seq) : t.positioned := by
  cases s; cases t
  cases hc; cases hf; cases hq
  exact h

/-- The invariant speaks of the configuration, the bus, the registers, the flags, the sequencer, the device and the trace only. -/
theorem State.Inv.congr {s t : State} (h : s.Inv) (hc : t.cfg = s.cfg) (hb : t.bus = s.bus) (hr : t.regs = s.regs)
    (hf : t.flags = s.flags) (hq : t.seq = s.seq) (hd : t.dev = s.dev) (ht : t.trace = s.trace) : t.Inv where
  config := hc ▸ h.config
  address := by rw [hb, hc]; exact h.address
  array := by rw [hd, hc]; exact h.array
  canonical := hd ▸ h.canonical
  buffer := by rw [hr, hc]; exact h.buffer
  position := positioned_congr h.position hc hf hq
  readBack := readBack_congr h.readBack hq ht (by rw [hr]) fun _ => by rw [hr]

/-- A device whose addresses lie in the array and whose array is canonical may take the place of the one before. -/
theorem State.Inv.withDevice {s : State} (h : s.Inv) {d : Device} (ha : d.inArray s.cfg.maxAddr) (hm : Memory.wf d.mem) :
    ({ s with dev := d } : State).Inv :=
  ⟨h.config, h.address, ha, hm, h.buffer, h.position, h.readBack⟩

/-- R30: with `BUSY = 0` the position is `IDLE`. -/
theorem State.Inv.ph_of_idle {s : State} (h : s.Inv) (hb : s.flags.busy = false) : s.seq.ph = .idle := by
  rcases h.position with ⟨-, hph⟩ | ⟨hb', -⟩
  · exact hph
  · rw [hb] at hb'; cases hb'

/-- R28: a host write of a register while idle keeps the invariant. -/
theorem State.Inv.writeReg {s : State} (h : s.Inv) (hb : s.flags.busy = false) (index : Nat) (v : Word) :
    (s.writeReg index v).Inv := by
  obtain ⟨hc, hbus, hf, hq, hd, -, -, -, hlen⟩ := writeReg_keeps s index v
  have hph : (s.writeReg index v).seq.ph = .idle := by rw [hq]; exact h.ph_of_idle hb
  exact {
    config := hc ▸ h.config
    address := by rw [hbus, hc]; exact h.address
    array := by rw [hd, hc]; exact h.array
    canonical := hd ▸ h.canonical
    buffer := by rw [hlen, hc]; exact h.buffer
    position := positioned_congr h.position hc hf hq
    readBack := readBack_of_not_reading (by rw [hph]; simp [Label.reading]) }

/-! ### Reset -/

/-- R38: the registers, the flags and the position of reset have the invariant behind any device that has its part of it. -/
theorem inv_of_reset {s : State} (hc : s.cfg.wf) (hb : s.bus = .reset) (hr : s.regs = .reset s.cfg)
    (hf : s.flags = .reset) (hq : s.seq = .reset) (ha : s.dev.inArray s.cfg.maxAddr) (hm : Memory.wf s.dev.mem) : s.Inv where
  config := hc
  address := by rw [hb]; exact Nat.zero_le _
  array := ha
  canonical := hm
  buffer := by rw [hr]; exact List.length_replicate
  position := .inl ⟨by rw [hf]; rfl, by rw [hq]; rfl⟩
  readBack := readBack_of_not_reading (by rw [hq]; simp [Sequencer.reset, Label.reading])

/-- R300: `RST` at any moment restores the registers and keeps the invariant. -/
theorem State.Inv.applyReset {s : State} (h : s.Inv) : s.applyReset.Inv := by
  refine inv_of_reset h.config rfl rfl rfl rfl (Device.onReset_inArray h.array _ _ _ h.address) ?_
  rw [applyReset_dev, (Device.onReset_kept s.dev _ _ _).mem]
  exact h.canonical

/-- R38: the machine after reset has the invariant, with any admissible configuration. -/
theorem resetWith_inv {c : Config} (hc : c.wf) : (State.resetWith c).Inv := by
  refine inv_of_reset hc rfl rfl rfl rfl ⟨?_, ?_, ?_, ?_⟩ List.Pairwise.nil
  all_goals intro cell hcell; cases hcell

/-- Settles O58: the configuration of reset is admissible. -/
theorem invHoldsAtReset : Obligations.InvHoldsAtReset := by
  have hc : Config.launch.wf := by decide
  exact resetWith_inv hc

/-- Settles O14: each value is the one `State.reset` names, and `STATUS` and the pins are computed from them. -/
theorem resetIsIdle : Obligations.ResetIsIdle :=
  ⟨rfl, rfl, by decide, rfl, rfl, rfl⟩

/-! ### Every move -/

/-- R13: a move that runs no command keeps the invariant. -/
theorem State.Inv.done {s t : State} (h : s.Inv) (hn : nextMove s = .done t) : t.Inv := by
  rcases nextMove_done hn with ⟨kept, rest, -, rfl⟩ | ⟨kept, rest, -, rfl⟩ | ⟨kept, keep, rest, -, rfl⟩ |
    ⟨kept, rest, -, rfl⟩ | ⟨kept, index, v, rest, -, hb, rfl⟩ | ⟨hc, hb, hr, hf, hq, hd, ht, -⟩
  · exact (h.withInputs _).applyReset
  · exact (h.withInputs (kept ++ rest)).withDevice (Device.commit_inArray h.array) (Device.commit_wf h.canonical)
  · exact (h.withInputs (kept ++ rest)).withDevice (Device.fail_inArray h.array keep) (Device.fail_wf h.canonical keep)
  · exact (h.withInputs (kept ++ rest)).withDevice (Device.hang_inArray h.array) (Device.hang_wf h.canonical)
  · exact (h.withInputs (kept ++ rest)).writeReg hb index v
  · exact h.congr hc hb hr hf hq hd ht

/-- R13, R30: a command runs on the state with its move taken off the pending ones; while busy it is the one in `OP`. -/
theorem nextMove_run_inputs {s u : State} {i : Instr} (h : nextMove s = .run i u) :
    (∃ pending, u = { s with inputs := pending }) ∧ (s.flags.busy = true → decode s.seq.op = .ok i) := by
  rcases nextMove_run h with ⟨kept, v, rest, -, hb, -, rfl⟩ | ⟨-, hd, ⟨-, rfl⟩ | ⟨kept, rest, -, rfl⟩⟩
  · exact ⟨⟨_, rfl⟩, fun hb' => by rw [hb] at hb'; cases hb'⟩
  · exact ⟨⟨u.inputs, rfl⟩, fun _ => hd⟩
  · exact ⟨⟨_, rfl⟩, fun _ => hd⟩

/-- Settles O59, by the kind of the next move: a command goes on from a position it can hold, the other moves keep the
invariant, and no move is stray. -/
theorem stepGoesOnAndKeepsInv : Obligations.StepGoesOnAndKeepsInv := by
  intro s h
  rw [step_eq h.config]
  cases hn : nextMove s with
  | run i u =>
    obtain ⟨⟨pending, rfl⟩, hd⟩ := nextMove_run_inputs hn
    exact exec_goes_on (h.withInputs pending) hd
  | done t => exact ⟨t, rfl, h.done hn⟩
  | stray => exact absurd hn h.not_stray

end Sys2Proof.Machine
end

section
/-! SUPPORT. Who writes the Bus State, `PAGE_BUF` and `RDATA` (O27, O29, O30). -/

namespace Sys2Proof.Machine

/-! ### The Bus State -/

/-- R20, R300: a move that runs no command writes the Bus State by reset only. -/
theorem nextMove_done_bus {s t : State} (h : nextMove s = .done t) :
    (∃ kept rest, s.nextTurn = some (kept, .reset, rest)) ∨ t.bus = s.bus := by
  rcases nextMove_done h with ⟨kept, rest, hn, -⟩ | ⟨_, _, -, rfl⟩ | ⟨_, _, _, -, rfl⟩ | ⟨_, _, -, rfl⟩ |
    ⟨kept, index, v, rest, -, -, rfl⟩ | ⟨-, hb, -⟩
  · exact .inl ⟨kept, rest, hn⟩
  · exact .inr rfl
  · exact .inr rfl
  · exact .inr rfl
  · exact .inr (writeReg_keeps _ index v).2.1
  · exact .inr hb

/-- Settles O27: the moves that run a command are acceptance, which touches no pin, and the sequencer's; of the others
only reset writes the Bus State. -/
theorem busWrittenOnlyByPrimitives : Obligations.BusWrittenOnlyByPrimitives := by
  intro s t h
  obtain ⟨-, ⟨i, u, hn, hx⟩ | hn⟩ := step_next h
  · rcases nextMove_run hn with ⟨kept, v, rest, -, hb, -, rfl⟩ | ⟨hb, hd, hpick⟩
    · exact .inr (.inr (exec_idle_accepted (s := { s with inputs := kept ++ rest }) hb hx).bus)
    · exact .inl ⟨i, hb, hd, hpick.imp And.left fun ⟨kept, rest, hp, _⟩ => ⟨kept, rest, hp⟩⟩
  · exact .inr (nextMove_done_bus hn)

/-! ### `PAGE_BUF` -/

theorem Bookkept.pageBuf {s t : State} (h : Bookkept s t) : t.regs.pageBuf = s.regs.pageBuf := by rw [h.regs]

@[simp] theorem Prim.apply_pageBuf (a : Prim) (s : State) : (a.apply s).regs.pageBuf = s.regs.pageBuf := by
  cases a <;> simp [Prim.apply]

/-- R101: acceptance of any command but `eraseAll` is bookkeeping. -/
theorem startOf_kept {i : Instr} (hi : i ≠ .eraseall) (s : State) : Bookkept s (startOf i s) := by
  cases i
  case eraseall => exact absurd rfl hi
  case writepage =>
    exact (seq_kept s { s.seq with pgBase := s.addrOperand, pgLen := s.lenOperand, retP := .finish } rfl).trans
      (wpCall_kept (fun s => finish_kept s false) _)
  case loadstream => exact startLoadstream_kept s
  all_goals exact .of_eq _ _ rfl

/-- R32, R241: acceptance of any command but `eraseAll` leaves `PAGE_BUF`. -/
theorem exec_idle_pageBuf {i : Instr} {s t : State} (hb : s.flags.busy = false) (hi : i ≠ .eraseall)
    (h : exec i s = .next t) : t.regs.pageBuf = s.regs.pageBuf := by
  rw [exec_idle i hb] at h
  cases h
  exact (startOf_kept hi _).pageBuf

/-- R32, R246: a sequencer step leaves `PAGE_BUF` but at `LS0` of `loadStream`. -/
theorem exec_busy_pageBuf {i : Instr} {s t : State} (hb : s.flags.busy = true)
    (hls : ¬ (i = .loadstream ∧ s.seq.ph = .ls0)) (h : exec i s = .next t) : t.regs.pageBuf = s.regs.pageBuf := by
  rcases exec_busy_cases hb h with ⟨a, ha⟩ | ⟨hi, hph, -⟩
  · rw [ha.pageBuf, a.apply_pageBuf]
  · exact absurd ⟨hi, hph⟩ hls

/-- Settles O29: the frame of every meaning, and the two writers of `PAGE_BUF` named. -/
theorem commandsKeepOperands : Obligations.CommandsKeepOperands := by
  intro i s t h
  have f := exec_framed h
  refine ⟨f.addrOp, f.dataOp, f.lenOp, f.cfg, f.dev.mem, fun he hl => ?_, fun hb hph => ?_, fun hb he => ?_⟩
  · cases hb : s.flags.busy with
    | false => exact exec_idle_pageBuf hb he h
    | true => exact exec_busy_pageBuf hb (fun hls => hl hls.1) h
  · exact exec_busy_pageBuf hb (fun hls => hph hls.2) h
  · exact exec_idle_pageBuf hb he h

/-! ### `RDATA` -/

theorem Bookkept.rdata {s t : State} (h : Bookkept s t) : t.regs.rdata = s.regs.rdata := by rw [h.regs]

/-- R31: of the actions on the pins only the sample writes `RDATA`, with the byte of its event. -/
theorem Prim.apply_rdata (a : Prim) (s : State) :
    (a.apply s).regs.rdata = s.regs.rdata ∨ (a.apply s).trace = s.trace ++ [.sample (a.apply s).regs.rdata] := by
  cases a
  case sample => exact .inr rfl
  all_goals exact .inl (by simp [Prim.apply])

/-- Settles O30: acceptance and the stream step leave `RDATA`, and a sequencer step is one action and bookkeeping. -/
theorem rdataWrittenOnlyBySample : Obligations.RdataWrittenOnlyBySample := by
  intro i s t h
  cases hb : s.flags.busy with
  | false =>
    obtain ⟨buf, hr, -⟩ := (exec_idle_accepted hb h).regs
    exact .inl (by rw [hr])
  | true =>
    rcases exec_busy_cases hb h with ⟨a, ha⟩ | ⟨-, -, ha⟩
    · rw [ha.rdata, ha.trace]
      exact a.apply_rdata s
    · obtain ⟨buf, -, hr⟩ := ha.regs
      exact .inl (by rw [hr])

end Sys2Proof.Machine
end

section
/-! SUPPORT. The register file as the host sees it, `STATUS` and the pins (O7, O8, O9). -/

namespace Sys2Proof.Machine

/-- With an admissible configuration, a first pending move that is not held back and runs no command is the step. -/
theorem step_first_done {s t : State} {m : Turn} {rest : List Turn} (hc : s.cfg.wf) (hi : s.inputs = m :: rest)
    (hm : m.held s = false) (h : turnMove [] m rest s = .done t) : step s = .next t := by
  rw [step_eq hc, nextMove_picked (nextTurn_first hi hm), h]

/-! ### Host writes -/

/-- R28: while idle a host write of an index other than that of `CMD` writes the register file. -/
theorem step_hostWrite {s : State} {index : Nat} {v : Word} {rest : List Turn} (hc : s.cfg.wf)
    (hb : s.flags.busy = false) (hi : s.inputs = .hostWrite index v :: rest) (h0 : index ≠ 0) :
    step s = .next (({ s with inputs := rest } : State).writeReg index v) :=
  step_first_done hc hi rfl (by simp [turnMove, hostWriteMove, hb, h0])

theorem writeReg_addrOp (s : State) (v : Word) : s.writeReg 2 v = { s with regs := { s.regs with addrOp := v } } := rfl

theorem writeReg_dataOp (s : State) (v : Word) :
    s.writeReg 3 v = { s with regs := { s.regs with dataOp := v.setWidth 8 } } := rfl

theorem writeReg_lenOp (s : State) (v : Word) : s.writeReg 4 v = { s with regs := { s.regs with lenOp := v } } := rfl

theorem writeReg_pageBuf {s : State} {i : Nat} (hi : i < s.cfg.pageSize) (v : Word) :
    s.writeReg (0x100 + i) v = { s with regs := { s.regs with pageBuf := s.regs.pageBuf.set i (v.setWidth 8) } } := by
  have h2 : 0x100 + i ≠ 2 := by omega
  have h3 : 0x100 + i ≠ 3 := by omega
  have h4 : 0x100 + i ≠ 4 := by omega
  simp [State.writeReg, pageBufIndex, h2, h3, h4, hi]

/-- R28: an index of no operand register and of no byte of the buffer ignores a host write. -/
theorem writeReg_ignored {s : State} {index : Nat} (h : index < 2 ∨ 4 < index)
    (hp : index < 0x100 ∨ 0x100 + s.cfg.pageSize ≤ index) (v : Word) : s.writeReg index v = s := by
  have h2 : index ≠ 2 := by omega
  have h3 : index ≠ 3 := by omega
  have h4 : index ≠ 4 := by omega
  have hpage : ¬ (pageBufIndex ≤ index ∧ index < pageBufIndex + s.cfg.pageSize) := by
    simp only [pageBufIndex]; omega
  simp only [State.writeReg, if_neg h2, if_neg h3, if_neg h4, if_neg hpage]

/-- Settles O7: the step is the write of the register file, whose equation each index has. -/
theorem hostWritesLoadRegisters : Obligations.HostWritesLoadRegisters := by
  intro s index v rest hc hb hi
  have hw : index ≠ 0 → step s = .next (({ s with inputs := rest } : State).writeReg index v) :=
    step_hostWrite hc hb hi
  refine ⟨?_, ?_, ?_, ?_, fun hx => ?_⟩
  · rintro rfl; rw [hw (by decide), writeReg_addrOp]
  · rintro rfl; rw [hw (by decide), writeReg_dataOp]
  · rintro rfl; rw [hw (by decide), writeReg_lenOp]
  · rintro i rfl hl; rw [hw (by omega), writeReg_pageBuf (by exact hl)]
  · rw [hw (by omega), writeReg_ignored (by omega) (by show index < _ ∨ _ + s.cfg.pageSize ≤ index; omega)]

/-! ### Host reads -/

/-- R28: a host read is answered with the register of its index, busy or idle. -/
theorem step_hostRead {s : State} {index : Nat} {rest : List Turn} (hc : s.cfg.wf)
    (hi : s.inputs = .hostRead index :: rest) :
    step s = .next { s with inputs := rest, answers := s.answers ++ [s.readReg index] } :=
  step_first_done hc hi rfl rfl

/-- R110: with `BUSY = 0` the host's wait ends with its read of `STATUS`. -/
theorem step_hostAwait {s : State} {rest : List Turn} (hc : s.cfg.wf) (hb : s.flags.busy = false)
    (hi : s.inputs = .hostAwait :: rest) :
    step s = .next { s with inputs := rest, answers := s.answers ++ [s.status] } :=
  step_first_done hc hi hb rfl

theorem readReg_pageBuf {s : State} {i : Nat} (hi : i < s.cfg.pageSize) :
    s.readReg (0x100 + i) = (s.pageByte i).setWidth 32 := by
  have hlow : ∀ k, k < 0x100 → 0x100 + i ≠ k := by omega
  simp [State.readReg, pageBufIndex, hlow, hi]

/-- R28: `CMD` and every index from 7 on outside the buffer read as 0. -/
theorem readReg_zero {s : State} {index : Nat} (h : index < 1 ∨ 6 < index)
    (hp : index < 0x100 ∨ 0x100 + s.cfg.pageSize ≤ index) : s.readReg index = 0 := by
  have hne : ∀ k, 1 ≤ k → k ≤ 6 → index ≠ k := by omega
  have hpage : ¬ (pageBufIndex ≤ index ∧ index < pageBufIndex + s.cfg.pageSize) := by
    simp only [pageBufIndex]; omega
  simp [State.readReg, hne, hpage]

/-- Settles O8: a read is answered with `readReg`, whose value each index has; the wait ends with `STATUS`. -/
theorem hostReadsAnswered : Obligations.HostReadsAnswered := by
  intro s rest hc
  refine ⟨fun index hi => ⟨s.readReg index, step_hostRead hc hi, ?_, ?_, ?_, ?_, ?_, ?_, ?_, ?_, fun hx => ?_⟩,
    fun hi hb => step_hostAwait hc hb hi⟩
  · rintro rfl; exact readReg_zero (by omega) (by omega)
  · rintro rfl; rfl
  · rintro rfl; rfl
  · rintro rfl; exact BitVec.toNat_setWidth_of_le (show 8 ≤ 32 by decide)
  · rintro rfl; rfl
  · rintro rfl; exact BitVec.toNat_setWidth_of_le (show 8 ≤ 32 by decide)
  · rintro rfl; rfl
  · rintro i rfl hl; rw [readReg_pageBuf hl]; exact BitVec.toNat_setWidth_of_le (show 8 ≤ 32 by decide)
  · exact readReg_zero (by omega) (by omega)

/-! ### `STATUS` and the pins -/

/-- R33: a bit of `STATUS` is the flag or the line of its place. -/
theorem status_getLsbD (s : State) (k : Nat) : s.status.getLsbD k =
    (s.flags.busy && decide (k = 0) || s.flags.ok && decide (k = 1) || s.flags.pollOk && decide (k = 2) ||
      s.flags.verifyOk && decide (k = 3) || s.flags.dropped && decide (k = 4) || s.bus.dir && decide (k = 5) ||
      s.bus.ce && decide (k = 6) || s.bus.we && decide (k = 7) || s.bus.oe && decide (k = 8)) := by
  simp [State.status, bitAt_getLsbD]

/-- R33: the bits of `STATUS` above those in use are 0. -/
theorem status_high (s : State) {k : Nat} (hk : 9 ≤ k) : s.status.getLsbD k = false := by
  have hne : ∀ j, j < 9 → k ≠ j := by omega
  simp [status_getLsbD, hne]

/-- R248: `S_READY = 1` exactly at `LS0`. -/
theorem pins_sReady_iff (s : State) : s.pins.sReady = true ↔ s.seq.ph = .ls0 := beq_iff_eq

/-- Settles O9: each bit from the bits of the view; the pins but `S_READY` are the latches and the lines by definition. -/
theorem statusBits : Obligations.StatusBits := by
  intro s
  refine ⟨?_, ?_, ?_, ?_, ?_, ?_, ?_, ?_, ?_, fun k hk => status_high s hk, rfl, rfl, rfl, rfl, rfl, rfl,
    pins_sReady_iff s⟩
  all_goals
    rw [status_getLsbD]
    simp

end Sys2Proof.Machine
end

section
/-! SUPPORT. The device at a trailing edge, at the close of a window and at a sample, by the passthrough commands (O20, O21, O23). -/

namespace Sys2Proof.Machine

/-- R141: a passthrough command is its acceptance and one step, its primitive, which finishes it with `OK = 1`. -/
theorem exec_primitive {i : Instr} {primitive : State → State} (hstart : startOf i = startPrim)
    (hprocs : procsOf i = [primStep primitive]) {s : State} (hb : s.flags.busy = false) :
    exec i s = .next (startPrim (s.accept i)) ∧
      exec i (startPrim (s.accept i)) = .next ((primitive (startPrim (s.accept i))).finish true) := by
  refine ⟨by rw [exec_idle i hb, hstart], ?_⟩
  rw [exec_busy i rfl, hprocs]
  rfl

/-! ### The trailing edge of write-enable -/

/-- R67: outside a window, or with write-enable not asserted before, its deassertion latches nothing. -/
theorem Device.react_weOff_unlatched (d : Device) (p n : Nat) {b : Bus} (h : b.ce = false ∨ b.we = false) :
    (d.react p b { b with we := false } n).1.pend = d.pend ∧ (d.react p b { b with we := false } n).1.last = d.last := by
  have hedge : (b.ce && b.we) = false := by rcases h with h | h <;> simp [h]
  have hopen : (!b.ce && b.ce) = false := by cases b.ce <;> rfl
  have hclose : (b.ce && !b.ce) = false := by cases b.ce <;> rfl
  simp [Device.react, Device.watch, hedge, hopen, hclose]

/-- R77: a pulse that ends while no write cycle runs, with the bus driven by the controller, latches address and data. -/
theorem Device.latch_driven {d : Device} {b : Bus} (n : Nat) (hoe : b.oe = false) (hdir : b.dir = true)
    (hbusy : d.busy = false) :
    d.latch b n = ({ d with pend := d.pend ++ [(b.aLatch, b.dLatch)], last := some (b.aLatch, b.dLatch) }, n) := by
  simp [Device.latch, latchedByte, hoe, hdir, hbusy]

/-- Settles O20: the device reacts to the one line that changes, with a latch at a trailing edge inside a window only. -/
theorem trailingEdgeLatches : Obligations.TrailingEdgeLatches := by
  intro s hb
  obtain ⟨hstart, hstep⟩ := exec_primitive (i := .weDeassert) rfl rfl hb
  refine ⟨_, _, hstart, hstep, rfl, fun hce hwe hoe hdir hbusy => ?_, fun h => ?_⟩
  · have hreact : (s.dev.react s.cfg.pageSize s.bus { s.bus with we := false } s.draws).1 =
        (s.dev.latch s.bus s.draws).1 := by
      simp [Device.react, Device.watch, hce, hwe, hoe]
    exact hreact.trans (congrArg Prod.fst (Device.latch_driven s.draws hoe hdir hbusy))
  · exact s.dev.react_weOff_unlatched s.cfg.pageSize s.draws h

/-! ### The close of a window -/

/-- R77: a protection sequence switches the Protection State where the window saw no contention. -/
theorem Device.recognise_uncontended {d : Device} (on : Bool) (n : Nat) (h : d.contended = false) :
    d.recognise on n = ({ d with prot := on }, n) := by
  simp [Device.recognise, h]

theorem Device.closeWindow_unlock {d : Device} (p n : Nat) (hc : d.contended = false) (h : d.pend = unlockSeq) :
    (d.closeWindow p n).1 = { d with prot := false, pend := [] } := by
  have hne : unlockSeq ≠ [] := by decide
  simp [Device.closeWindow, h, hne, Device.recognise_uncontended false n hc]

theorem Device.closeWindow_lock {d : Device} (p n : Nat) (hc : d.contended = false) (h : d.pend = lockSeq) :
    (d.closeWindow p n).1 = { d with prot := true, pend := [] } := by
  have hne : lockSeq ≠ [] := by decide
  have hnu : lockSeq ≠ unlockSeq := by decide
  simp [Device.closeWindow, h, hne, hnu, Device.recognise_uncontended true n hc]

/-- R71, R77: a protected device ignores bytes that are no protection sequence. -/
theorem Device.closeWindow_protected {d : Device} (p n : Nat) (hu : d.pend ≠ unlockSeq) (hl : d.pend ≠ lockSeq)
    (hprot : d.prot = true) : (d.closeWindow p n).1 = { d with pend := [] } := by
  simp [Device.closeWindow, hu, hl, hprot]

/-- R68, R77, U7: an unprotected device takes bytes of one page into a write cycle, and is undefined by any others. -/
theorem Device.closeWindow_unprotected {d : Device} (p n : Nat) (hne : d.pend ≠ []) (hu : d.pend ≠ unlockSeq)
    (hl : d.pend ≠ lockSeq) (hprot : d.prot = false) :
    (d.closeWindow p n).1 = if onePage p d.pend then { d with pend := [], busy := true, cycle := d.pend }
      else { d with pend := [], undef := true } := by
  cases hpage : onePage p d.pend <;> simp [Device.closeWindow, hne, hu, hl, hprot, hpage]

/-- R136: chip-enable deasserted with write-enable idle closes the window. -/
theorem driveCE_close_dev {s : State} (hce : s.bus.ce = true) (hwe : s.bus.we = false) :
    (s.driveCE false).dev = (s.dev.closeWindow s.cfg.pageSize s.draws).1 := by
  obtain ⟨cfg, ⟨al, dl, dr, ce, we, oe⟩, regs, flags, seq, dev, port, inputs, answers, trace, draws⟩ := s
  obtain rfl : ce = true := hce
  obtain rfl : we = false := hwe
  simp

/-- Settles O21: the device closes the window, by the branches of R77 in order. -/
theorem windowCloseStartsCycle : Obligations.WindowCloseStartsCycle := by
  intro s hb hce hwe hcont
  obtain ⟨hstart, hstep⟩ := exec_primitive (i := .ceDeassert) rfl rfl hb
  have hdev : (((startPrim (s.accept .ceDeassert)).driveCE false).finish true).dev =
      (s.dev.closeWindow s.cfg.pageSize s.draws).1 :=
    driveCE_close_dev (s := startPrim (s.accept .ceDeassert)) hce hwe
  refine ⟨_, _, hstart, hstep, rfl, ?_⟩
  rw [hdev]
  refine ⟨fun h => by rw [Device.closeWindow_empty _ _ _ h], Device.closeWindow_unlock _ _ hcont,
    Device.closeWindow_lock _ _ hcont, Device.closeWindow_protected _ _, fun hne hu hl hprot hpage => ?_,
    fun hne hu hl hprot hpage => ?_⟩
  · rw [Device.closeWindow_unprotected _ _ hne hu hl hprot, if_pos hpage]
  · rw [Device.closeWindow_unprotected _ _ hne hu hl hprot, if_neg (by simp [hpage])]

/-! ### The sample during the write cycle -/

/-- R70: bit 7 of the status byte is the complement of that of the last byte latched. -/
theorem statusByte_getLsbD_seven (last free : Byte) : (statusByte last free).getLsbD 7 = !last.getLsbD 7 := by
  simp [statusByte]

/-- R70, R73, R77: a sample at the last-written address while the write cycle runs is the status byte. -/
theorem Device.sample_status {d : Device} {b : Bus} {v : Byte} (n : Nat) (hdir : b.dir = false) (hce : b.ce = true)
    (hoe : b.oe = true) (hwe : b.we = false) (hundef : d.undef = false) (hbusy : d.busy = true)
    (hlast : d.last = some (b.aLatch, v)) : d.sample b n = (statusByte v (Config.freeByte n), n + 1) := by
  simp [Device.sample, Device.drive, hdir, hce, hoe, hwe, hundef, hbusy, hlast]

/-- Settles O23: the byte left in `RDATA` is the status byte of the byte written. -/
theorem statusNeverEqualsByteWritten : Obligations.StatusNeverEqualsByteWritten := by
  intro s b hb hdir hce hoe hwe hundef hbusy hlast
  obtain ⟨hstart, hstep⟩ := exec_primitive (i := .readdata) rfl rfl hb
  have hrdata : ((startPrim (s.accept .readdata)).readData.finish true).regs.rdata =
      statusByte b (Config.freeByte s.draws) :=
    congrArg Prod.fst (Device.sample_status s.draws hdir hce hoe hwe hundef hbusy hlast)
  refine ⟨_, _, hstart, hstep, ?_, ?_⟩
  · rw [hrdata]; exact statusByte_getLsbD_seven _ _
  · rw [hrdata]; exact statusByte_ne _ _

end Sys2Proof.Machine
end

section
/-! SUPPORT. The array: what the device's own steps store, and that nothing else changes it (O24, O25, O26). -/

namespace Sys2Proof.Machine

/-! ### Pairs stored in order -/

/-- R77: an address reads as the last of the stored pairs that is for it. -/
theorem Memory.read?_writeAll_last (m : Memory) (before after : List Host.Cell) {a : Nat} (v : Byte)
    (h : ∀ c ∈ after, c.1 ≠ a) : Memory.read? (Memory.writeAll m (before ++ (a, v) :: after)) a = some v := by
  have hafter : after.reverse.find? (fun c => c.1 == a) = none := by simpa using fun x y hxy => h (x, y) hxy
  simp [Memory.read?_writeAll, hafter]

/-- R77: an address that none of the stored pairs is for reads as before. -/
theorem Memory.read?_writeAll_other (m : Memory) {cells : List Host.Cell} {a : Nat} (h : ∀ c ∈ cells, c.1 ≠ a) :
    Memory.read? (Memory.writeAll m cells) a = Memory.read? m a := by
  have hcells : cells.reverse.find? (fun c => c.1 == a) = none := by simpa using fun x y hxy => h (x, y) hxy
  rw [Memory.read?_writeAll, hcells]

/-- The cycle of a device is over, with these pairs stored. -/
def Device.store (d : Device) (cells : List Host.Cell) : Device :=
  { d with mem := Memory.writeAll d.mem cells, busy := false, cycle := [] }

theorem Device.store_stored_last {d : Device} {cells before after : List Host.Cell} {a : Nat} {v : Byte}
    (hcells : cells = before ++ (a, v) :: after) (h : ∀ c ∈ after, c.1 ≠ a) : (d.store cells).stored a = v := by
  rw [hcells, Device.stored, Device.store, Memory.read?_writeAll_last d.mem before after v h]
  rfl

theorem Device.store_stored_other {d : Device} {cells : List Host.Cell} {a : Nat} (h : ∀ c ∈ cells, c.1 ≠ a) :
    (d.store cells).stored a = d.stored a := by
  rw [Device.stored, Device.store, Memory.read?_writeAll_other d.mem h, Device.stored]

/-! ### `Commit` and `Fail` -/

/-- R78: of pairs with their flags, those that `Fail` keeps. -/
def keptCells (flagged : List (Host.Cell × Bool)) : List Host.Cell :=
  flagged.filterMap fun c => if c.2 then some c.1 else none

theorem mem_keptCells {flagged : List (Host.Cell × Bool)} {c : Host.Cell} :
    c ∈ keptCells flagged ↔ (c, true) ∈ flagged := by
  simp [keptCells]

/-- A pair kept stands between the pairs kept before it and those kept after it. -/
theorem keptCells_split (before after : List (Host.Cell × Bool)) (c : Host.Cell) :
    keptCells (before ++ (c, true) :: after) = keptCells before ++ c :: keptCells after := by
  simp [keptCells]

/-- No pair kept is for an address that no pair with a true flag is for. -/
theorem keptCells_address_ne {flagged : List (Host.Cell × Bool)} {a : Nat}
    (h : ∀ c ∈ flagged, c.2 = true → c.1.1 ≠ a) : ∀ c ∈ keptCells flagged, c.1 ≠ a :=
  fun c hc => h (c, true) (mem_keptCells.1 hc) rfl

theorem Device.commit_eq_store {d : Device} (hbusy : d.busy = true) (hhung : d.hung = false) :
    d.commit = d.store d.cycle := by
  simp [Device.commit, Device.store, hbusy, hhung]

theorem Device.fail_eq_store {d : Device} (keep : List Bool) (hbusy : d.busy = true) (hhung : d.hung = false) :
    d.fail keep = d.store (keptCells (d.cycle.zip keep)) := by
  simp [Device.fail, Device.store, keptCells, hbusy, hhung]

/-- R13, R110: a step of the device that comes first is the next one, also under the host's wait. -/
theorem nextTurn_device {s : State} {m : Turn} {rest : List Turn} (hm : m.agent = .device)
    (hi : s.inputs = m :: rest ∨ (s.flags.busy = true ∧ s.inputs = .hostAwait :: m :: rest)) :
    ∃ kept, s.nextTurn = some (kept, m, rest) := by
  have hfree : .host ∉ m.behind ∧ m.held s = false := by
    cases m <;> cases hm
    all_goals exact ⟨by simp [Turn.behind], rfl⟩
  obtain ⟨hbehind, hheld⟩ := hfree
  rcases hi with hi | ⟨hb, hi⟩
  · exact ⟨[], nextTurn_first hi hheld⟩
  · exact ⟨[.hostAwait], nextTurn_past_await hb hi hbehind hheld⟩

/-- Settles O24: the step stores the whole cycle. -/
theorem commitStoresCycle : Obligations.CommitStoresCycle := by
  intro s rest hc hbusy hhung _ hi
  obtain ⟨kept, hn⟩ := nextTurn_device rfl hi
  have hstep : step s = .next { s with inputs := kept ++ rest, dev := s.dev.store s.dev.cycle } := by
    rw [step_eq hc, nextMove_picked hn, ← Device.commit_eq_store hbusy hhung]; rfl
  refine ⟨_, hstep, rfl, rfl, rfl, rfl, fun a => ⟨fun v hv => ?_, Device.store_stored_other⟩⟩
  obtain ⟨before, after, hcycle, hafter⟩ := hv
  exact Device.store_stored_last hcycle hafter

/-- Settles O25: the step stores the pairs kept. -/
theorem failStoresSubset : Obligations.FailStoresSubset := by
  intro s keep rest hc hbusy hhung _ hi
  obtain ⟨kept, hn⟩ := nextTurn_device rfl hi
  have hstep : step s = .next { s with inputs := kept ++ rest, dev := s.dev.store (keptCells (s.dev.cycle.zip keep)) } := by
    rw [step_eq hc, nextMove_picked hn, ← Device.fail_eq_store keep hbusy hhung]; rfl
  refine ⟨_, hstep, rfl, rfl, rfl, rfl,
    fun a => ⟨fun v hv => ?_, fun hnone => Device.store_stored_other (keptCells_address_ne hnone)⟩⟩
  obtain ⟨before, after, hzip, hafter⟩ := hv
  have hkept : keptCells (s.dev.cycle.zip keep) = keptCells before ++ (a, v) :: keptCells after := by
    rw [hzip, keptCells_split]
  exact Device.store_stored_last hkept (keptCells_address_ne hafter)

/-! ### Every other move -/

theorem Device.hang_mem (d : Device) : d.hang.mem = d.mem := by
  unfold Device.hang
  split <;> rfl

/-- R60, R74: a move that runs no command leaves the array, but for `Commit` and `Fail`. -/
theorem nextMove_done_mem {s t : State} (h : nextMove s = .done t)
    (hcommit : ∀ kept rest, s.nextTurn ≠ some (kept, .commit, rest))
    (hfail : ∀ kept keep rest, s.nextTurn ≠ some (kept, .fail keep, rest)) : t.dev.mem = s.dev.mem := by
  rcases nextMove_done h with ⟨_, _, -, rfl⟩ | ⟨kept, rest, hn, -⟩ | ⟨kept, keep, rest, hn, -⟩ | ⟨_, _, -, rfl⟩ |
    ⟨_, index, v, _, -, -, rfl⟩ | ⟨-, -, -, -, -, hd, -⟩
  · exact (Device.onReset_kept s.dev _ _ _).mem
  · exact absurd hn (hcommit kept rest)
  · exact absurd hn (hfail kept keep rest)
  · exact s.dev.hang_mem
  · obtain ⟨-, -, -, -, hd, -⟩ := writeReg_keeps { s with inputs := _ } index v
    rw [hd]
  · rw [hd]

/-- R60, R76: the bytes of a defined device are those of its array. -/
theorem arrayByte_of_mem {s t : State} (hm : t.dev.mem = s.dev.mem) (hs : s.dev.undef = false)
    (ht : t.dev.undef = false) (a : Nat) : t.arrayByte a = s.arrayByte a := by
  simp [State.arrayByte, Device.stored, hs, ht, hm]

/-- Settles O26: no meaning of a command touches the array, and no other move but the two excluded. -/
theorem arrayChangesOnlyByDeviceSteps : Obligations.ArrayChangesOnlyByDeviceSteps := by
  intro s t h hcommit hfail
  have hmem : t.dev.mem = s.dev.mem := by
    obtain ⟨-, ⟨i, u, hn, hx⟩ | hn⟩ := step_next h
    · obtain ⟨⟨pending, rfl⟩, -⟩ := nextMove_run_inputs hn
      exact (exec_framed hx).dev.mem
    · exact nextMove_done_mem hn hcommit hfail
  exact ⟨hmem, arrayByte_of_mem hmem⟩

end Sys2Proof.Machine
end

section
/-! SUPPORT. Acceptance: what it does to `OP`, to the result flags and to the registers (O11). -/

namespace Sys2Proof.Machine

/-- R191: a page call that drops by finishing keeps `POLL_OK` and `VERIFY_OK`, valid or not. -/
theorem wpCall_finish_results (s : State) :
    (wpCall (fun s => s.finish false) s).flags.pollOk = s.flags.pollOk ∧
      (wpCall (fun s => s.finish false) s).flags.verifyOk = s.flags.verifyOk := by
  cases hv : s.pageValid with
  | true => rw [wpCall_valid hv]; exact ⟨rfl, rfl⟩
  | false => rw [wpCall_dropped hv]; exact ⟨rfl, rfl⟩

/-- R250: `loadStream` with nothing to load finishes at acceptance, and keeps `POLL_OK` and `VERIFY_OK` as well. -/
theorem startLoadstream_results (s : State) :
    (startLoadstream s).flags.pollOk = s.flags.pollOk ∧ (startLoadstream s).flags.verifyOk = s.flags.verifyOk := by
  unfold startLoadstream
  dsimp only
  split <;> exact ⟨rfl, rfl⟩

/-- R101: the bookkeeping of acceptance keeps `POLL_OK` and `VERIFY_OK`. -/
theorem startOf_results (i : Instr) (s : State) :
    (startOf i s).flags.pollOk = s.flags.pollOk ∧ (startOf i s).flags.verifyOk = s.flags.verifyOk := by
  cases i
  case writepage => exact wpCall_finish_results _
  case eraseall => exact wpCall_finish_results _
  case loadstream => exact startLoadstream_results s
  all_goals exact ⟨rfl, rfl⟩

/-- R101: the bookkeeping of acceptance keeps `OP`. -/
theorem startOf_op (i : Instr) (s : State) : (startOf i s).seq.op = s.seq.op := by
  by_cases hi : i = .eraseall
  · subst hi; exact (eraseBlock_kept _).op
  · exact (startOf_kept hi s).op

/-- R101: the bookkeeping of a command that writes no page concerns the sequencer alone. -/
theorem startOf_of_not_pages {i : Instr} (hi : ¬ i.pages) (s : State) :
    startOf i s = { s with seq := (startOf i s).seq } := by
  cases i
  case writepage => exact absurd (.inl rfl) hi
  case eraseall => exact absurd (.inr (.inl rfl)) hi
  case loadstream => exact absurd (.inr (.inr rfl)) hi
  all_goals rfl

/-- Settles O11: acceptance sets `OP` and three flags; the bookkeeping after it keeps what the statement names. -/
theorem acceptanceTouchesNoPin : Obligations.AcceptanceTouchesNoPin := by
  intro i s hb
  have hx : exec i s = .next (startOf i (s.accept i)) := exec_idle i hb
  have a := startOf_accepted i s
  have f := exec_framed hx
  obtain ⟨hpoll, hverify⟩ := startOf_results i (s.accept i)
  obtain ⟨buf, hregs, -⟩ := a.regs
  refine ⟨_, hx, startOf_op i _, a.bus, a.dev, a.trace, hpoll, hverify, by rw [hregs], f.addrOp, f.dataOp, f.lenOp,
    fun hi => ?_⟩
  rw [startOf_of_not_pages hi]
  exact ⟨rfl, rfl, rfl, rfl⟩

end Sys2Proof.Machine
end

section
/-! SUPPORT. The decoder by the rows of the opcode map (O1, O2, O3). -/

namespace Sys2Proof
open Machine

/-! ### Which values a row selects -/

/-- R102: a row without an operand field selects its pattern only. -/
theorem OpcodeRow.selects_fixed (pattern : Byte) (read : Byte → Instr) (v : Byte) :
    (OpcodeRow.mk 0b11111111 pattern read).selects v = true ↔ v = pattern := by
  have hmask : v &&& 0b11111111 = v := BitVec.and_allOnes
  simp only [OpcodeRow.selects, hmask, beq_iff_eq]

/-- R102, R104: the row of `SETDIR` selects its two opcodes, which differ in the direction bit. -/
theorem OpcodeRow.selects_setdir (read : Byte → Instr) (v : Byte) :
    (OpcodeRow.mk 0b11111110 0b00000100 read).selects v = true ↔ v = 0x04 ∨ v = 0x05 := by
  have key : ∀ v : Byte, v &&& 0b11111110 = 0b00000100 ↔ v = 0x04 ∨ v = 0x05 := by decide
  simp only [OpcodeRow.selects, beq_iff_eq, key]

/-! ### The decoder -/

/-- R112: a value that decodes is read by a row that selects it. -/
theorem decode_ok {v : Byte} {i : Instr} (h : decode v = .ok i) :
    ∃ r ∈ opcodeTable, r.selects v = true ∧ r.read v = i := by
  unfold decode at h
  split at h
  · rename_i r hr
    cases h
    have hsel := List.find?_some hr
    exact ⟨r, List.mem_of_find?_eq_some hr, hsel, rfl⟩
  · cases h

/-- R105, R112: the decoder rejects the values that no row selects. -/
theorem decode_reserved_iff (v : Byte) :
    decode v = .error (.reserved v) ↔ ∀ r ∈ opcodeTable, ¬ r.selects v = true := by
  rw [← List.find?_eq_none]
  unfold decode
  split
  · rename_i r hr; simp [hr]
  · rename_i hr; simp [hr]

/-- R102: the command a row reads from a value it selects has that value as its opcode. -/
theorem encode_read {r : OpcodeRow} (hr : r ∈ opcodeTable) {v : Byte} (h : r.selects v = true) :
    encode (r.read v) = v := by
  revert r
  simp only [opcodeTable, List.forall_mem_cons, OpcodeRow.selects_fixed, OpcodeRow.selects_setdir, or_imp,
    List.not_mem_nil, false_implies, implies_true, and_true]
  and_intros
  all_goals rintro rfl; rfl

/-- Settles O1: each word is the opcode of the command of its row. -/
theorem opcodeWordsDecode : Obligations.OpcodeWordsDecode :=
  ⟨decode_encode .setaddr, decode_encode .setdata, decode_encode .readdata, decode_encode (.setdir false),
    decode_encode (.setdir true), decode_encode .ceAssert, decode_encode .ceDeassert, decode_encode .weAssert,
    decode_encode .weDeassert, decode_encode .oeAssert, decode_encode .oeDeassert, decode_encode .readbyte,
    decode_encode .writebyte, decode_encode .writepage, decode_encode .unlock, decode_encode .lock,
    decode_encode .eraseall, decode_encode .loadstream⟩

/-- Settles O2: a value decodes by a row, whose command has that opcode. -/
theorem decodeEncodeAgree : Obligations.DecodeEncodeAgree := by
  refine ⟨fun i _ => decode_encode i, fun v i h => ?_⟩
  obtain ⟨r, hr, hsel, rfl⟩ := decode_ok h
  exact encode_read hr hsel

/-- Settles O3: the listed ranges are what the rows leave. -/
theorem reservedCodesRejected : Obligations.ReservedCodesRejected := by
  intro v
  rw [decode_reserved_iff]
  have hv : v.toNat < 2 ^ 8 := v.isLt
  simp only [opcodeTable, List.forall_mem_cons, OpcodeRow.selects_fixed, OpcodeRow.selects_setdir, List.not_mem_nil,
    false_implies, implies_true, and_true, ← BitVec.toNat_inj, BitVec.reduceToNat]
  omega

end Sys2Proof
end

section
/-! SUPPORT. The host's write of `CMD`, and the writes that are ignored (O4, O6). -/

namespace Sys2Proof.Machine

/-- R101: while idle a host write of a defined opcode to `CMD` runs its command. -/
theorem hostWriteMove_accepts {s : State} {v : Word} {i : Instr} (hb : s.flags.busy = false)
    (hd : decode (v.setWidth 8) = .ok i) : hostWriteMove 0 v s = .run i s := by
  simp [hostWriteMove, hb, hd]

/-- R107: while busy a host write is over with nothing done. -/
theorem hostWriteMove_busy {s : State} (index : Nat) (v : Word) (hb : s.flags.busy = true) :
    hostWriteMove index v s = .done s := if_pos hb

/-- R105: a host write of a reserved value to `CMD` is over with nothing done. -/
theorem hostWriteMove_reserved {s : State} {v : Word} {e : DecodeError} (hd : decode (v.setWidth 8) = .error e) :
    hostWriteMove 0 v s = .done s := by
  cases hb : s.flags.busy with
  | true => exact hostWriteMove_busy 0 v hb
  | false => simp [hostWriteMove, hb, hd]

/-- Settles O4: the write is the next move, and it runs the command decoded. -/
theorem stepRunsAcceptedCommand : Obligations.StepRunsAcceptedCommand := by
  intro s v rest i hc hb hi hd
  have hmove : nextMove s = .run i { s with inputs := rest } :=
    (nextMove_picked (nextTurn_first hi rfl)).trans (hostWriteMove_accepts (s := { s with inputs := rest }) hb hd)
  exact step_of_run hc hmove

/-- Settles O6: the write is the next move, and it is over with nothing done. -/
theorem hostWritesIgnored : Obligations.HostWritesIgnored := by
  intro s index v rest hc hi h
  refine step_first_done hc hi rfl ?_
  rcases h with hb | ⟨rfl, hd⟩
  · exact hostWriteMove_busy (s := { s with inputs := rest }) index v hb
  · exact hostWriteMove_reserved hd

end Sys2Proof.Machine
end

section
/-! SUPPORT. The accesses of the source's calls (O10). -/

namespace Sys2Proof.Machine

/-- R110: the bytes of a page go to `PAGE_BUF` by index, the first `min(len, PAGE_SIZE)` of them. -/
theorem pageWrites_eq_map_range (p : Nat) (bytes : List Byte) : pageWrites p bytes =
    (List.range (min bytes.length p)).map fun i => .hostWrite (0x100 + i) ((bytes.getD i 0).setWidth 32) := by
  refine List.ext_getElem (by simp [pageWrites, Nat.min_comm]) fun i hl hr => ?_
  have hi : i < bytes.length := by simp [pageWrites] at hl; omega
  simp [pageWrites, hi]

/-- R110: a page whose length `LEN_OP` holds is written byte by byte, then its operands, `CMD` and the wait. -/
theorem accesses_writePage {bytes : List Byte} (p : Nat) (a : Word) (h : bytes.length < 2 ^ 32) :
    (HostCall.writePage bytes a).accesses p = some (pageWrites p bytes ++
      [.hostWrite 4 (BitVec.ofNat 32 bytes.length), .hostWrite 2 a, .hostWrite 0 0x30, .hostAwait]) := by
  have hw : (HostCall.writePage bytes a).writable = true := decide_eq_true h
  rw [HostCall.accesses, if_pos hw]
  simp [HostCall.operandWrites, HostCall.delivery, HostCall.resultRead, HostCall.instr, encode]

/-- R110, D3: a longer page has no accesses. -/
theorem accesses_writePage_unwritable {bytes : List Byte} (p : Nat) (a : Word) (h : 2 ^ 32 ≤ bytes.length) :
    (HostCall.writePage bytes a).accesses p = none := by
  have hw : (HostCall.writePage bytes a).writable = false := decide_eq_false (Nat.not_lt_of_le h)
  rw [HostCall.accesses, if_neg (by simp [hw])]

/-- Settles O10: the accesses of a page by its lemmas; those of every other call are its lists put together. -/
theorem callsExpandToAccesses : Obligations.CallsExpandToAccesses := by
  intro p a n w b bytes
  refine ⟨rfl, rfl, rfl, rfl, rfl, rfl, rfl, rfl, rfl, rfl, rfl, rfl, rfl, fun h => ?_,
    accesses_writePage_unwritable p a, rfl, rfl, rfl, rfl, ?_, ?_⟩
  · rw [accesses_writePage p a h, pageWrites_eq_map_range]
  · rintro c (rfl | rfl) <;> rfl
  · rintro c (rfl | rfl | rfl | rfl) <;> rfl

end Sys2Proof.Machine
end

section
/-! SUPPORT. The bus primitives as passthrough commands, and one bus change a sequencer step (O15 to O19, O28). -/

namespace Sys2Proof.Machine

/-! ### A passthrough command as a whole -/

/-- R33, R130: no action on the pins touches a flag. -/
theorem Prim.apply_flags (a : Prim) (s : State) : (a.apply s).flags = s.flags := by
  cases a <;> simp [Prim.apply]

/-- R101, R108, R141: a passthrough command is its acceptance and the step of its action; of the flags and the sequencer
it leaves `OK = 1`, `DROPPED = 0`, its opcode and the position `IDLE`. -/
theorem exec_primitive_completes {i : Instr} (a : State → Prim) (hstart : startOf i = startPrim)
    (hprocs : procsOf i = [primStep fun u => (a u).apply u]) {s : State} (hb : s.flags.busy = false) :
    exec i s = .next (startPrim (s.accept i)) ∧
      exec i (startPrim (s.accept i)) = .next { (a (startPrim (s.accept i))).apply (startPrim (s.accept i)) with
        flags := { s.flags with ok := true, dropped := false }
        seq := { s.seq with op := encode i, ph := .idle } } := by
  obtain ⟨haccept, hstep⟩ := exec_primitive hstart hprocs hb
  refine ⟨haccept, hstep.trans ?_⟩
  rw [State.finish, Prim.apply_flags, Prim.apply_seq]
  simp [startPrim, hb]

/-! ### The latches and the sample -/

/-- Settles O15: the step of the address action, with the clamp written out. -/
theorem setAddrClampsAddress : Obligations.SetAddrClampsAddress := by
  intro s hb
  obtain ⟨haccept, hstep⟩ := exec_primitive_completes (i := .setaddr) (fun u => .addr u.addrOperand) rfl rfl hb
  exact ⟨_, haccept, hstep⟩

/-- R132: with the bus as output `D_LATCH` takes the byte. -/
theorem setData_output {s : State} (b : Byte) (hdir : s.bus.dir = true) :
    s.setData b = { s with bus := { s.bus with dLatch := b }, trace := s.trace ++ [.data b] } :=
  if_pos hdir

/-- R132, U1: with the bus as input `D_LATCH` takes the next free byte. -/
theorem setData_input {s : State} (b : Byte) (hdir : s.bus.dir = false) :
    s.setData b = { s with bus := { s.bus with dLatch := Config.freeByte s.draws }, draws := s.draws + 1,
                           trace := s.trace ++ [.data b] } :=
  if_neg (by simp [hdir])

/-- Settles O16: the step of the data action, by the direction of the bus. -/
theorem setDataWritesLatch : Obligations.SetDataWritesLatch := by
  intro s hb
  obtain ⟨haccept, hstep⟩ := exec_primitive_completes (i := .setdata) (fun u => .data u.byteOperand) rfl rfl hb
  refine ⟨_, haccept, fun hdir => ?_, fun hdir => ⟨Config.freeByte s.draws, s.draws + 1, ?_⟩⟩
  · rw [hstep, Prim.apply, setData_output (s := startPrim (s.accept .setdata)) _ hdir]; rfl
  · rw [hstep, Prim.apply, setData_input (s := startPrim (s.accept .setdata)) _ hdir]; rfl

/-- R73, R77: a read of a defined device at rest samples the byte stored at `A_LATCH`. -/
theorem Device.sample_stored {d : Device} {b : Bus} (n : Nat) (hdir : b.dir = false) (hce : b.ce = true)
    (hoe : b.oe = true) (hwe : b.we = false) (hundef : d.undef = false) (hbusy : d.busy = false) :
    d.sample b n = (d.stored b.aLatch, n) := by
  simp [Device.sample, Device.drive, hdir, hce, hoe, hwe, hundef, hbusy]

/-- Settles O18: the step of the sample leaves the device's byte, which is the stored one where it drives that. -/
theorem readDataSamplesBus : Obligations.ReadDataSamplesBus := by
  intro s hb
  obtain ⟨haccept, hstep⟩ := exec_primitive_completes (i := .readdata) (fun _ => .sample) rfl rfl hb
  refine ⟨_, (s.dev.sample s.bus s.draws).1, (s.dev.sample s.bus s.draws).2, haccept, hstep,
    fun hdir hce hoe hwe hundef hbusy => ?_⟩
  rw [Device.sample_stored _ hdir hce hoe hwe hundef hbusy]

/-! ### The direction and the control lines -/

/-- R74: a change of direction is no edge the device reacts to; it notes the hazards of the new lines only. -/
theorem Device.react_dir (d : Device) (p n : Nat) (b : Bus) (output : Bool) :
    d.react p b { b with dir := output } n = (d.watch { b with dir := output }, n) := by
  have hedge : (b.ce && b.we && !b.we) = false := by cases b.we <;> simp
  simp [Device.react, hedge]

/-- Settles O17: the step of the direction action, with the device's reaction to it. -/
theorem setDirSetsDirection : Obligations.SetDirSetsDirection := by
  intro s output hb
  obtain ⟨haccept, hstep⟩ := exec_primitive_completes (i := .setdir output) (fun _ => .dir output) rfl rfl hb
  have hdrive : (startPrim (s.accept (.setdir output))).setDirection output =
      { startPrim (s.accept (.setdir output)) with
        bus := { s.bus with dir := output }
        dev := s.dev.watch { s.bus with dir := output }
        trace := s.trace ++ [.dir output] } := by
    rw [State.setDirection, State.drive, Device.react_dir]; rfl
  refine ⟨_, haccept, ?_⟩
  rw [hstep, Prim.apply, hdrive]
  rfl

/-- R74, R141: a passthrough command whose action drives the lines to `b` does that, appends its event and finishes; the
device may react, its array does not change. -/
theorem exec_drive {i : Instr} (a : Prim) (hstart : startOf i = startPrim)
    (hprocs : procsOf i = [primStep fun u => a.apply u]) {s : State} (hb : s.flags.busy = false) {b : Bus} {e : Event}
    (hdrive : a.apply (startPrim (s.accept i)) = (startPrim (s.accept i)).drive b e) :
    ∃ u d n, exec i s = .next u ∧
      exec i u = .next { s with
        bus := b, dev := d, draws := n
        flags := { s.flags with ok := true, dropped := false }
        seq := { s.seq with op := encode i, ph := .idle }
        trace := s.trace ++ [e] } ∧
      d.mem = s.dev.mem := by
  obtain ⟨haccept, hstep⟩ := exec_primitive_completes (fun _ => a) hstart hprocs hb
  rw [hdrive] at hstep
  exact ⟨_, _, _, haccept, hstep, (s.dev.react_kept ..).mem⟩

/-- Settles O19: each of the six commands drives the lines with one of them set. -/
theorem controlLineCommandsSetOneLine : Obligations.ControlLineCommandsSetOneLine := by
  rintro s i b e hb (⟨rfl, rfl, rfl⟩ | ⟨rfl, rfl, rfl⟩ | ⟨rfl, rfl, rfl⟩ | ⟨rfl, rfl, rfl⟩ | ⟨rfl, rfl, rfl⟩ |
    ⟨rfl, rfl, rfl⟩)
  · exact exec_drive (.ce true) rfl rfl hb rfl
  · exact exec_drive (.ce false) rfl rfl hb rfl
  · exact exec_drive (.we true) rfl rfl hb rfl
  · exact exec_drive (.we false) rfl rfl hb rfl
  · exact exec_drive (.oe true) rfl rfl hb rfl
  · exact exec_drive (.oe false) rfl rfl hb rfl

/-! ### One bus change a step -/

theorem Bus.changes_self (b : Bus) : b.changes b = 0 := by simp [Bus.changes]

/-- R143: an action on the pins changes at most one register of the Bus State. -/
theorem Prim.apply_changes (a : Prim) (s : State) : s.bus.changes (a.apply s).bus ≤ 1 := by
  cases a
  case sample | settle => exact (Bus.changes_self s.bus).trans_le (Nat.zero_le 1)
  all_goals
    simp only [Prim.apply, Bus.changes, setAddress_bus, setData_bus, setDirection_bus, driveCE_bus, driveWE_bus,
      driveOE_bus, if_true, Nat.zero_add, Nat.add_zero]
    exact ite_le_one (Nat.zero_le 1) (Nat.le_refl 1)

/-- R36: an action on the pins appends exactly one event. -/
theorem Prim.apply_trace (a : Prim) (s : State) : ∃ e, (a.apply s).trace = s.trace ++ [e] := by
  cases a
  case data b => exact ⟨_, setData_trace s b⟩
  all_goals exact ⟨_, rfl⟩

/-- R30, R36: of the procedures of a command only the stream step is defined at `LS0`. -/
theorem procsOf_ls0 {i : Instr} {p : Proc} (hp : p ∈ procsOf i) : p .ls0 = none ∨ p = streamStep := by
  cases i <;> simp only [procsOf, List.mem_cons, List.not_mem_nil, or_false] at hp
  case loadstream =>
    rcases hp with rfl | rfl | rfl | rfl
    · exact .inr rfl
    all_goals exact .inl rfl
  case writebyte => rcases hp with rfl | rfl <;> exact .inl rfl
  case writepage | eraseall => rcases hp with rfl | rfl | rfl <;> exact .inl rfl
  all_goals subst hp; exact .inl rfl

/-- R36: a sequencer step at `LS0` is the stream step. -/
theorem exec_busy_ls0 {i : Instr} {s t : State} (hb : s.flags.busy = true) (hph : s.seq.ph = .ls0)
    (h : exec i s = .next t) : StreamTaken s t := by
  rw [exec_busy i hb] at h
  obtain ⟨p, hp, f, hpf, hf⟩ := runProcs_next h
  rw [hph] at hpf
  rcases procsOf_ls0 hp with hnone | rfl
  · rw [hnone] at hpf; cases hpf
  · exact (streamStep_taken hpf hf).2

/-- R130: a sequencer step at any other label is one action on the pins and bookkeeping. -/
theorem exec_busy_prim {i : Instr} {s t : State} (hb : s.flags.busy = true) (hph : s.seq.ph ≠ .ls0)
    (h : exec i s = .next t) : ∃ a : Prim, Bookkept (a.apply s) t :=
  (exec_busy_cases hb h).resolve_right fun ⟨_, hls, _⟩ => hph hls

/-- Settles O28: at `LS0` the stream step touches neither bus nor trace; elsewhere one action is made on the pins. -/
theorem oneBusChangePerStep : Obligations.OneBusChangePerStep := by
  intro i s t hb h
  by_cases hph : s.seq.ph = .ls0
  · have taken := exec_busy_ls0 hb hph h
    refine ⟨?_, fun hne => absurd hph hne, fun _ => ⟨taken.bus, taken.trace⟩⟩
    rw [taken.bus, Bus.changes_self]
    exact Nat.zero_le 1
  · obtain ⟨a, kept⟩ := exec_busy_prim hb hph h
    refine ⟨?_, fun _ => ?_, fun hls => absurd hls hph⟩
    · rw [kept.bus]; exact a.apply_changes s
    · rw [kept.trace]; exact a.apply_trace s

end Sys2Proof.Machine
end

section
/-! SUPPORT. The byte transactions: `readByte`, the write phase of `writeByte` and its poll (O31, O33, O34, O35). -/

namespace Sys2Proof.Machine

/-! ### `readByte` -/

/-- R161, R162: `readByte` from idle lines: acceptance and seven steps. -/
theorem readbyte_run {s : State} (hb : s.flags.busy = false) (hl : s.linesIdle) :
    execTimes 8 .readbyte s = .next { s with
      bus := { s.bus with aLatch := clamp s.cfg s.addrOperand, dir := false }
      dev := s.dev.openWindow
      regs := { s.regs with rdata := (s.readAt s.addrOperand).1 }
      draws := (s.readAt s.addrOperand).2
      flags := { s.flags with ok := true, dropped := false }
      seq := { s.seq with op := 0x20, tAddr := s.addrOperand, retT := .finish, ph := .idle }
      trace := s.trace ++ readEvents (clamp s.cfg s.addrOperand) (s.readAt s.addrOperand).1 } := by
  have accepted : execTimes 8 .readbyte s = execTimes 7 .readbyte (startReadbyte (s.accept .readbyte)) :=
    execTimes_accept 7 .readbyte hb
  rw [accepted, readSeq_run readbyte_runs rfl rfl (by exact hl), readReturn_finish rfl, State.finish]
  simp only [startReadbyte, accept_flags, hb]
  rfl

/-- Settles O31: the run in closed form; the sample of a defined device at rest is the stored byte. -/
theorem readByteReadsClampedAddress : Obligations.ReadByteReadsClampedAddress := by
  intro s hb hl
  refine ⟨_, readbyte_run hb hl, rfl, rfl, rfl, rfl, rfl, rfl, fun hundef hbusy => ?_⟩
  exact congrArg Prod.fst (State.readAt_stored s.addrOperand hl hundef hbusy)

/-! ### The write phase of `writeByte` -/

/-- R67, R77: an idle device closes a window with one pulse on that pulse's pair alone. -/
theorem Device.onePulse_idle {d : Device} (p a : Nat) (b : Byte) (n : Nat) (h : d.busy = false) :
    d.onePulse p a b n =
      ({ d with pend := [(a, b)], last := some (a, b), contended := false } : Device).closeWindow p n := by
  rw [Device.onePulse, Device.latch_driven n rfl rfl (by exact h)]
  rfl

/-- R221: one pair is no protection sequence. -/
theorem singleton_no_sequence (c : Host.Cell) : [c] ≠ unlockSeq ∧ [c] ≠ lockSeq := by
  simp [unlockSeq, lockSeq]

/-- R64: one pair lies in one page. -/
theorem onePage_singleton {p : Nat} (h : 1 ≤ p) (c : Host.Cell) : onePage p [c] = true := by
  simp [onePage, h]

/-- R71, R77: an idle protected device ignores a single pulse. -/
theorem Device.onePulse_protected {d : Device} (p a : Nat) (b : Byte) (n : Nat) (h : d.busy = false)
    (hprot : d.prot = true) :
    (d.onePulse p a b n).1 = { d with pend := [], last := some (a, b), contended := false } := by
  obtain ⟨hunlock, hlock⟩ := singleton_no_sequence (a, b)
  rw [Device.onePulse_idle p a b n h, Device.closeWindow_protected p n (by exact hunlock) (by exact hlock) (by exact hprot)]

/-- R68, R77: the device while its write cycle of one pair runs, the window closed. -/
def Device.cycling (d : Device) (a : Nat) (b : Byte) : Device :=
  { d with pend := [], last := some (a, b), contended := false, busy := true, cycle := [(a, b)] }

/-- R68, R77: an idle unprotected device starts a write cycle of the pair of a single pulse. -/
theorem Device.onePulse_unprotected {d : Device} {p : Nat} (hp : 1 ≤ p) (a : Nat) (b : Byte) (n : Nat)
    (h : d.busy = false) (hprot : d.prot = false) :
    (d.onePulse p a b n).1 = d.cycling a b := by
  obtain ⟨hunlock, hlock⟩ := singleton_no_sequence (a, b)
  rw [Device.onePulse_idle p a b n h, Device.closeWindow_unprotected p n (by simp) (by exact hunlock)
    (by exact hlock) (by exact hprot), if_pos (onePage_singleton hp (a, b))]
  rfl

/-- R163, R164: the write phase of `writeByte` from idle lines: acceptance and seven steps, up to the poll. -/
theorem writebyte_write_run {s : State} (hb : s.flags.busy = false) (hl : s.linesIdle) :
    execTimes 8 .writebyte s = .next { s with
      bus := { s.bus with aLatch := clamp s.cfg s.addrOperand, dLatch := s.byteOperand, dir := true }
      dev := (s.dev.onePulse s.cfg.pageSize (clamp s.cfg s.addrOperand) s.byteOperand s.draws).1
      draws := (s.dev.onePulse s.cfg.pageSize (clamp s.cfg s.addrOperand) s.byteOperand s.draws).2
      flags := { s.flags with busy := true, ok := false, dropped := false }
      seq := { s.seq with op := 0x21, expect := s.byteOperand, pollCnt := 0, retT := .finish, ph := .pl0 }
      trace := s.trace ++ [.addr (clamp s.cfg s.addrOperand), .dir true, .data s.byteOperand, .ce true, .we true,
        .we false, .ce false] } :=
  (execTimes_accept 7 .writebyte hb).trans
    (writeSeq_run (s := startWritebyte (s.accept .writebyte)) writebyte_runs_writeSeq rfl rfl hl)

/-- Settles O33: the run in closed form, and what one pulse makes of an idle device, protected or not. -/
theorem writeByteSendsOnePulse : Obligations.WriteByteSendsOnePulse := by
  intro s hc hb hl hbusy
  obtain ⟨-, -, ⟨hpage, -⟩, -⟩ := hc
  refine ⟨_, writebyte_write_run hb hl, rfl, rfl, rfl, rfl, rfl, rfl, rfl, rfl, ?_⟩
  dsimp only
  cases hprot : s.dev.prot with
  | true =>
    rw [Device.onePulse_protected _ _ _ _ hbusy hprot]
    exact ⟨rfl, rfl, rfl, fun _ => hbusy, nofun⟩
  | false =>
    rw [Device.onePulse_unprotected hpage _ _ _ hbusy hprot]
    exact ⟨rfl, rfl, rfl, nofun, fun _ => ⟨rfl, rfl⟩⟩

/-! ### The poll of `writeByte` -/

/-- R165: at `PL5` `writeByte` closes the window of its sample and decides on it. -/
theorem writebyte_pl5 {s : State} (hb : s.flags.busy = true) (hph : s.seq.ph = .pl5) :
    exec .writebyte s = pollDecide (s.driveCE false) :=
  writebyte_runs_poll.exec hb (by rw [Proc.at, hph]; rfl)

/-- R165, R164: a sample that is the byte finishes `writeByte` with `OK = 1`. -/
theorem pollDecide_match {s : State} (hret : s.seq.retT = .finish) (hmatch : s.regs.rdata = s.seq.expect) :
    pollDecide s = .next { s with
      flags := { s.flags with busy := false, ok := true, pollOk := true }
      seq := { s.seq with pollCnt := s.seq.pollCnt + 1, ph := .idle } } := by
  rw [pollDecide_eq, if_pos hmatch, pollReturn_finish _ (by exact hret)]
  rfl

/-- R165, R164: the last sample of the budget, where it is not the byte, finishes `writeByte` with `OK = 0`. -/
theorem pollDecide_timeout {s : State} (hret : s.seq.retT = .finish) (hdiff : s.regs.rdata ≠ s.seq.expect)
    (hlast : s.seq.pollCnt + 1 = s.cfg.pollBudget) :
    pollDecide s = .next { s with
      flags := { s.flags with busy := false, ok := false, pollOk := false }
      seq := { s.seq with pollCnt := s.seq.pollCnt + 1, ph := .idle } } := by
  rw [pollDecide_eq, if_neg hdiff, if_pos hlast, pollReturn_finish _ (by exact hret)]
  rfl

/-- R165: a sample that is not the byte, with budget left, is followed by the next one. -/
theorem pollDecide_again {s : State} (hdiff : s.regs.rdata ≠ s.seq.expect)
    (hleft : s.seq.pollCnt + 1 ≠ s.cfg.pollBudget) :
    pollDecide s = .next { s with seq := { s.seq with pollCnt := s.seq.pollCnt + 1, ph := .pl1 } } := by
  rw [pollDecide_eq, if_neg hdiff, if_neg hleft]

/-- Settles O34: the three decisions on a sample exclude each other. -/
theorem pollStepDecides : Obligations.PollStepDecides := by
  intro s hb hph hret
  rw [writebyte_pl5 hb hph]
  by_cases hmatch : s.regs.rdata = s.seq.expect
  · exact ⟨_, pollDecide_match (s := s.driveCE false) hret hmatch, rfl, rfl, rfl, rfl, rfl,
      fun _ => ⟨rfl, rfl, rfl, rfl⟩, fun hdiff => absurd hmatch hdiff, fun hdiff => absurd hmatch hdiff⟩
  · by_cases hlast : s.seq.pollCnt + 1 = s.cfg.pollBudget
    · exact ⟨_, pollDecide_timeout (s := s.driveCE false) hret hmatch hlast, rfl, rfl, rfl, rfl, rfl,
        fun h => absurd h hmatch, fun _ _ => ⟨rfl, rfl, rfl, rfl⟩, fun _ hleft => absurd hlast hleft⟩
    · exact ⟨_, pollDecide_again (s := s.driveCE false) hmatch hlast, rfl, rfl, rfl, rfl, rfl,
        fun h => absurd h hmatch, fun _ h => absurd h hlast, fun _ _ => ⟨rfl, rfl⟩⟩

/-- R165: `writeByte` is about to take a sample. -/
structure State.Sampling (s : State) : Prop where
  busy : s.flags.busy = true
  label : s.seq.ph = .pl1
  lines : s.linesIdle
  input : s.bus.dir = false
  ret : s.seq.retT = .finish
  budget : s.seq.pollCnt < s.cfg.pollBudget

/-- R165: what a poll keeps from sample to sample. -/
structure SamePoll (s t : State) : Prop where
  cfg : t.cfg = s.cfg
  bus : t.bus = s.bus
  op : t.seq.op = s.seq.op
  expect : t.seq.expect = s.seq.expect

/-- R164, R165: `writeByte` has finished in `t`, with the outcome of the poll that it was in at `s`. -/
structure PollFinished (s t : State) : Prop where
  same : SamePoll s t
  idle : t.flags.busy = false ∧ t.seq.ph = .idle
  budget : t.seq.pollCnt ≤ s.cfg.pollBudget
  result : t.flags.ok = t.flags.pollOk
  matched : t.flags.ok = true ↔ t.regs.rdata = s.seq.expect
  exhausted : t.flags.ok = false → t.seq.pollCnt = s.cfg.pollBudget

/-- R165: the outcome of a poll is that of the rest of it. -/
theorem PollFinished.of_same {s t u : State} (h : SamePoll s t) (g : PollFinished t u) : PollFinished s u := by
  obtain ⟨⟨gcfg, gbus, gop, gexpect⟩, gidle, gbudget, gresult, gmatched, gexhausted⟩ := g
  rw [h.cfg] at gbudget gexhausted
  rw [h.expect] at gmatched
  exact ⟨⟨gcfg.trans h.cfg, gbus.trans h.bus, gop.trans h.op, gexpect.trans h.expect⟩, gidle, gbudget, gresult, gmatched,
    gexhausted⟩

/-- R165: one sample of `writeByte`, whatever the device answers, finishes it or leaves it before the next sample. -/
theorem poll_sample {s : State} (h : s.Sampling) :
    ∃ t, execTimes 5 .writebyte s = .next t ∧ t.seq.pollCnt = s.seq.pollCnt + 1 ∧
      (PollFinished s t ∨ (SamePoll s t ∧ t.Sampling)) := by
  have run := poll_run writebyte_runs_poll h.busy h.label h.lines h.input
  by_cases hmatch : s.pollSample.1 = s.seq.expect
  · rw [pollDecide_match (by exact h.ret) (by exact hmatch)] at run
    exact ⟨_, run, rfl, .inl ⟨⟨rfl, rfl, rfl, rfl⟩, ⟨rfl, rfl⟩, h.budget, rfl, ⟨fun _ => hmatch, fun _ => rfl⟩, nofun⟩⟩
  · by_cases hlast : s.seq.pollCnt + 1 = s.cfg.pollBudget
    · rw [pollDecide_timeout (by exact h.ret) (by exact hmatch) (by exact hlast)] at run
      exact ⟨_, run, rfl, .inl ⟨⟨rfl, rfl, rfl, rfl⟩, ⟨rfl, rfl⟩, h.budget, rfl, ⟨nofun, fun hm => absurd hm hmatch⟩,
        fun _ => hlast⟩⟩
    · rw [pollDecide_again (by exact hmatch) (by exact hlast)] at run
      exact ⟨_, run, rfl, .inr ⟨⟨rfl, rfl, rfl, rfl⟩, ⟨h.busy, rfl, h.lines, h.input, h.ret,
        Nat.lt_of_le_of_ne h.budget hlast⟩⟩⟩

/-- R165, R288: a poll of `writeByte` with at most `m` samples of its budget left finishes, five steps a sample. -/
theorem poll_finishes (m : Nat) {s : State} (h : s.Sampling) (hm : s.cfg.pollBudget ≤ s.seq.pollCnt + m) :
    ∃ j t, 1 ≤ j ∧ t.seq.pollCnt = s.seq.pollCnt + j ∧ execTimes (5 * j) .writebyte s = .next t ∧ PollFinished s t := by
  induction m generalizing s with
  | zero => exact absurd h.budget (Nat.not_lt.2 hm)
  | succ m ih =>
    obtain ⟨t, run, hcnt, finished | ⟨same, sampling⟩⟩ := poll_sample h
    · exact ⟨1, t, Nat.le_refl 1, hcnt, run, finished⟩
    · obtain ⟨j, u, -, hcntu, runs, finished⟩ := ih sampling (by rw [same.cfg, hcnt]; omega)
      refine ⟨j + 1, u, Nat.le_add_left 1 j, by omega, ?_, .of_same same finished⟩
      rw [Nat.mul_succ, Nat.add_comm]
      exact execTimes_trans run runs

/-- R165: `PL0` turns the bus around, for the samples. -/
theorem poll_pl0 {i : Instr} (hr : Runs i poll) {s : State} (hb : s.flags.busy = true) (hph : s.seq.ph = .pl0)
    (hl : s.linesIdle) :
    exec i s = .next { s with
      bus := { s.bus with dir := false }, seq := { s.seq with ph := .pl1 }, trace := s.trace ++ [.dir false] } := by
  obtain ⟨hce, -, -⟩ := hl
  have pl0 : exec i s = .next ((s.setDirection false).goto .pl1) := hr.exec hb (by rw [Proc.at, hph]; rfl)
  rw [pl0, setDirection_idle hce]
  rfl

/-- R163, R165: `writeByte` from idle lines up to its first sample: acceptance and eight steps. -/
theorem writebyte_samples_run {s : State} (hb : s.flags.busy = false) (hl : s.linesIdle) :
    execTimes (8 + 1) .writebyte s = .next { s with
      bus := { s.bus with aLatch := clamp s.cfg s.addrOperand, dLatch := s.byteOperand, dir := false }
      dev := (s.dev.onePulse s.cfg.pageSize (clamp s.cfg s.addrOperand) s.byteOperand s.draws).1
      draws := (s.dev.onePulse s.cfg.pageSize (clamp s.cfg s.addrOperand) s.byteOperand s.draws).2
      flags := { s.flags with busy := true, ok := false, dropped := false }
      seq := { s.seq with op := 0x21, expect := s.byteOperand, pollCnt := 0, retT := .finish, ph := .pl1 }
      trace := s.trace ++ [.addr (clamp s.cfg s.addrOperand), .dir true, .data s.byteOperand, .ce true, .we true,
        .we false, .ce false, .dir false] } := by
  refine execTimes_trans (writebyte_write_run hb hl) ?_
  rw [execTimes_one, poll_pl0 writebyte_runs_poll rfl rfl (by exact hl)]
  simp

/-- R163, R165: what the poll of `writeByte` finds at its first sample. -/
theorem writebyte_reaches_sampling {s : State} (hc : s.cfg.wf) (hb : s.flags.busy = false) (hl : s.linesIdle) :
    ∃ t, execTimes (8 + 1) .writebyte s = .next t ∧ t.Sampling ∧ t.seq.pollCnt = 0 ∧ t.cfg = s.cfg ∧
      t.bus = { s.bus with aLatch := clamp s.cfg s.addrOperand, dLatch := s.byteOperand, dir := false } ∧
      t.seq.op = 0x21 ∧ t.seq.expect = s.byteOperand := by
  obtain ⟨-, -, -, hpolls, -⟩ := hc
  exact ⟨_, writebyte_samples_run hb hl, ⟨rfl, rfl, hl, rfl, rfl, hpolls⟩, rfl, rfl, rfl, rfl, rfl⟩

/-- Settles O35: acceptance, the write phase and `PL0`, then the poll with its whole budget left. -/
theorem writeByteFinishes : Obligations.WriteByteFinishes := by
  intro s hc hb hl
  obtain ⟨u, start, sampling, hzero, hcfg, hbus, hop, hexpect⟩ := writebyte_reaches_sampling hc hb hl
  obtain ⟨n, t, hn, hcnt, run, finished⟩ := poll_finishes s.cfg.pollBudget sampling (by rw [hcfg]; omega)
  obtain ⟨same, ⟨hidle, hph⟩, hbudget, hresult, hmatched, hexhausted⟩ := finished
  have hcnt : t.seq.pollCnt = n := by omega
  rw [hcnt, hcfg] at hbudget hexhausted
  rw [hexpect] at hmatched
  refine ⟨n, t, hn, hbudget, ?_, hidle, hph, same.op.trans hop, hcnt, hresult, hmatched, hexhausted, same.bus.trans hbus⟩
  rw [← Nat.add_assoc]
  exact execTimes_trans start run

end Sys2Proof.Machine
end

section
/-! SUPPORT. The last steps of `readByte`, `unlock` and `lock` (O32). -/

namespace Sys2Proof.Machine

/-- R161, R162: at `RS6` `readByte` closes the window and finishes. -/
theorem readbyte_rs6 {s : State} (hb : s.flags.busy = true) (hph : s.seq.ph = .rs6) (hret : s.seq.retT = .finish) :
    exec .readbyte s = .next ((s.driveCE false).finish true) := by
  rw [readbyte_runs.exec hb (by rw [Proc.at, hph]; rfl)]
  exact readReturn_finish hret

/-- R222 `PS6` without a settle delay: the sequence is over. -/
theorem startSettle_none {s : State} (h : s.cfg.settleTicks = 0) :
    startSettle s = ({ s with seq := { s.seq with settleCnt := s.cfg.settleTicks } } : State).finish true := if_pos h

/-- R222 `PS6` with a settle delay: its ticks are counted from `SETTLE_TICKS`. -/
theorem startSettle_ticks {s : State} (h : s.cfg.settleTicks ≠ 0) :
    startSettle s = { s with seq := { s.seq with ph := .ps7, settleCnt := s.cfg.settleTicks } } := if_neg h

@[simp] theorem startSettle_regs (s : State) : (startSettle s).regs = s.regs := by
  unfold startSettle; dsimp only; split <;> rfl

/-- R222 `PS7`, the last tick. -/
theorem settleTick_last {s : State} (h : s.seq.settleCnt ≤ 1) :
    settleTick s = ({ s with seq := { s.seq with settleCnt := s.seq.settleCnt - 1 },
                             trace := s.trace ++ [Event.settle] } : State).finish true :=
  if_pos (Nat.sub_eq_zero_of_le h)

/-- R222 `PS7`, a tick before the last. -/
theorem settleTick_earlier {s : State} (h : 2 ≤ s.seq.settleCnt) :
    settleTick s = { s with seq := { s.seq with ph := .ps7, settleCnt := s.seq.settleCnt - 1 },
                            trace := s.trace ++ [Event.settle] } :=
  if_neg (Nat.sub_ne_zero_of_lt h)

@[simp] theorem settleTick_regs (s : State) : (settleTick s).regs = s.regs := by
  unfold settleTick; dsimp only; split <;> rfl

/-- R222 `PS6`: the window closes, and the command is over or its settle delay begins. -/
theorem protSeq_ps6 {i : Instr} {table : List Host.Cell} (hr : Runs i (protSeq table)) {s : State}
    (hb : s.flags.busy = true) (hph : s.seq.ph = .ps6) :
    ∃ t, exec i s = .next t ∧ t.bus = { s.bus with ce := false } ∧ t.regs = s.regs ∧
      t.trace = s.trace ++ [.ce false] ∧
      (s.cfg.settleTicks = 0 → t.flags = { s.flags with busy := false, ok := true } ∧ t.seq.ph = .idle) ∧
      (s.cfg.settleTicks ≠ 0 →
        t.flags = s.flags ∧ t.seq = { s.seq with ph := .ps7, settleCnt := s.cfg.settleTicks }) := by
  have step : exec i s = .next (startSettle (s.driveCE false)) := hr.exec hb (by rw [Proc.at, hph]; rfl)
  have kept := startSettle_kept (s.driveCE false)
  refine ⟨_, step, kept.bus, startSettle_regs _, kept.trace, fun h => ?_, fun h => ?_⟩
  · rw [startSettle_none (by exact h)]; exact ⟨rfl, rfl⟩
  · rw [startSettle_ticks (by exact h)]; exact ⟨rfl, rfl⟩

/-- R222 `PS7`: a tick, the last of which ends the command. -/
theorem protSeq_ps7 {i : Instr} {table : List Host.Cell} (hr : Runs i (protSeq table)) {s : State}
    (hb : s.flags.busy = true) (hph : s.seq.ph = .ps7) :
    ∃ t, exec i s = .next t ∧ t.bus = s.bus ∧ t.dev = s.dev ∧ t.regs = s.regs ∧ t.trace = s.trace ++ [.settle] ∧
      (s.seq.settleCnt ≤ 1 → t.flags = { s.flags with busy := false, ok := true } ∧ t.seq.ph = .idle) ∧
      (2 ≤ s.seq.settleCnt → t.flags = s.flags ∧ t.seq = { s.seq with settleCnt := s.seq.settleCnt - 1 }) := by
  have step : exec i s = .next (settleTick s) := hr.exec hb (by rw [Proc.at, hph]; rfl)
  have kept := settleTick_kept s
  refine ⟨_, step, kept.bus, kept.dev, settleTick_regs s, kept.trace, fun h => ?_, fun h => ?_⟩
  · rw [settleTick_last h]; exact ⟨rfl, rfl⟩
  · rw [settleTick_earlier h, ← hph]; exact ⟨rfl, rfl⟩

/-- Settles O32: the return of the read sequence, and the last two steps of a protection sequence with either table. -/
theorem fixedCommandsFinishWithLastStep : Obligations.FixedCommandsFinishWithLastStep := by
  intro s hb
  refine ⟨fun hph hret => ⟨_, readbyte_rs6 hb hph hret, rfl, rfl, rfl, rfl, rfl⟩, ?_⟩
  rintro i (rfl | rfl)
  · exact ⟨protSeq_ps6 unlock_runs hb, protSeq_ps7 unlock_runs hb⟩
  · exact ⟨protSeq_ps6 lock_runs hb, protSeq_ps7 lock_runs hb⟩

end Sys2Proof.Machine
end

section
/-! SUPPORT. `writeByte` and `readByte` as the host issues them, under a schedule of the agents' moves (O36). -/

namespace Sys2Proof.Machine

/-! ### Pending moves, made one after another -/

theorem writeReg_withInputs (s : State) (index : Nat) (v : Word) (r : List Turn) :
    (s.withInputs r).writeReg index v = (s.writeReg index v).withInputs r := by
  simp only [State.writeReg, apply_ite (State.withInputs · r)]
  rfl

/-- R28: a run that begins with a host write of a register other than `CMD`. -/
theorem run_hostWrite {s : State} {index : Nat} {v : Word} {rest : List Turn} (k : Nat) (hc : s.cfg.wf)
    (hb : s.flags.busy = false) (h0 : index ≠ 0) :
    core.run (k + 1) (s.withInputs (.hostWrite index v :: rest)) = core.run k ((s.writeReg index v).withInputs rest) := by
  rw [← writeReg_withInputs]
  exact run_succ k (step_hostWrite (by exact hc) (by exact hb) rfl h0)

/-- R28: a run that begins with a host read. -/
theorem run_hostRead {s : State} {index : Nat} {rest : List Turn} (k : Nat) (hc : s.cfg.wf) :
    core.run (k + 1) (s.withInputs (.hostRead index :: rest)) =
      core.run k (({ s with answers := s.answers ++ [s.readReg index] } : State).withInputs rest) :=
  run_succ k (step_hostRead (by exact hc) rfl)

/-- R77: a run that begins with `Commit`. -/
theorem run_commit {s : State} {rest : List Turn} (k : Nat) (hc : s.cfg.wf) :
    core.run (k + 1) (s.withInputs (.commit :: rest)) =
      core.run k (({ s with dev := s.dev.commit } : State).withInputs rest) :=
  run_succ k (step_first_done (by exact hc) rfl rfl rfl)

/-- R101, R13: the host's write of an opcode to `CMD`, then `k` sequencer moves, each of which makes an event, are the command's
acceptance and its first `k` steps. -/
theorem run_issued {k : Nat} {v : Word} {i : Instr} {s t : State} (rest : List Turn) (hc : s.cfg.wf)
    (hb : s.flags.busy = false) (hd : decode (v.setWidth 8) = .ok i) (h : execTimes (k + 1) i s = .next t)
    (htr : t.trace.length = s.trace.length + k) :
    core.run (k + 1) (s.withInputs (.hostWrite 0 v :: (List.replicate k .sequencer ++ rest))) = .next (t.withInputs rest) := by
  rw [execTimes_accept k i hb] at h
  have accepted : step (s.withInputs (.hostWrite 0 v :: (List.replicate k .sequencer ++ rest))) =
      .next ((startOf i (s.accept i)).withInputs (List.replicate k .sequencer ++ rest)) := by
    rw [stepRunsAcceptedCommand _ v _ i (by exact hc) (by exact hb) rfl hd]
    exact exec_inputs_next (exec_idle i hb) _
  have start := startOf_accepted i s
  rw [run_succ k accepted]
  exact run_sequencer rest (by rw [start.cfg]; exact hc) (by rw [startOf_op]; exact decode_encode i) h
    (by rw [start.trace]; exact htr)

/-! ### `writeByte` on a device that commits in time -/

/-- R77: `Commit` of the cycle of one pair leaves a device at rest that holds the pair's byte, and its old bytes elsewhere. -/
theorem Device.cycling_commit (d : Device) (a : Nat) (b : Byte) (hhung : d.hung = false) :
    (d.cycling a b).commit.busy = false ∧ (d.cycling a b).commit.undef = d.undef ∧
      (d.cycling a b).commit.stored a = b ∧ ∀ x, x ≠ a → (d.cycling a b).commit.stored x = d.stored x := by
  have hcommit : (d.cycling a b).commit = (d.cycling a b).store [(a, b)] := Device.commit_eq_store rfl hhung
  rw [hcommit]
  exact ⟨rfl, rfl, Device.store_stored_last (before := []) (after := []) rfl (by simp),
    fun x hx => Device.store_stored_other (by simpa using hx.symm)⟩

/-- R163, R165: `writeByte`, accepted in `s`, before its sample `k` on a device whose write cycle runs. What the samples before
left in `RDATA`, the draws and the trace are given. -/
def State.waiting (s : State) (k : Nat) (v : Byte) (n : Nat) (tr : List Event) : State :=
  { s with
    bus := { s.bus with aLatch := clamp s.cfg s.addrOperand, dLatch := s.byteOperand, dir := false }
    dev := s.dev.cycling (clamp s.cfg s.addrOperand) s.byteOperand
    draws := n
    regs := { s.regs with rdata := v }
    flags := { s.flags with busy := true, ok := false, dropped := false }
    seq := { s.seq with op := 0x21, expect := s.byteOperand, pollCnt := k, retT := .finish, ph := .pl1 }
    trace := tr }

/-- R163, R165, R166: `writeByte` on an idle unprotected device gets to each sample of its budget while the write cycle runs. -/
theorem writebyte_waits_run {s : State} {k : Nat} (hc : s.cfg.wf) (hb : s.flags.busy = false) (hl : s.linesIdle)
    (hbusy : s.dev.busy = false) (hundef : s.dev.undef = false) (hprot : s.dev.prot = false) (hk : k < s.cfg.pollBudget) :
    ∃ v n tr, tr.length = s.trace.length + (8 + 5 * k) ∧
      execTimes (8 + 5 * k + 1) .writebyte s = .next (s.waiting k v n tr) := by
  obtain ⟨-, -, ⟨hpage, -⟩, -⟩ := hc
  have start := writebyte_samples_run hb hl
  rw [Device.onePulse_unprotected hpage _ _ _ hbusy hprot] at start
  obtain ⟨n₀, tr₀, hlen, start⟩ : ∃ n tr, tr.length = s.trace.length + 8 ∧
      execTimes (8 + 1) .writebyte s = .next (s.waiting 0 s.regs.rdata n tr) := ⟨_, _, by simp, start⟩
  obtain ⟨v, n, tr, htr, samples⟩ := poll_while_busy k (s.waiting 0 s.regs.rdata n₀ tr₀) rfl rfl hl rfl rfl hundef rfl rfl
    (by show 0 + k < s.cfg.pollBudget; omega)
  refine ⟨v, n, tr, htr.trans (by show tr₀.length + 5 * k = _; omega), ?_⟩
  rw [show 8 + 5 * k + 1 = 8 + 1 + 5 * k by omega, execTimes_trans start samples]
  simp [State.waiting]

/-- R165, R168: a sample of `writeByte` that finds the byte stored finishes it with `OK = 1`. -/
theorem poll_finds_stored {s : State} (h : s.Sampling) (hbusy : s.dev.busy = false) (hundef : s.dev.undef = false)
    (hstored : s.dev.stored s.bus.aLatch = s.seq.expect) :
    execTimes 5 .writebyte s = .next { s with
      dev := s.dev.openWindow
      regs := { s.regs with rdata := s.seq.expect }
      flags := { s.flags with busy := false, ok := true, pollOk := true }
      seq := { s.seq with pollCnt := s.seq.pollCnt + 1, ph := .idle }
      trace := s.trace ++ pollEvents s.seq.expect } := by
  have sample : s.pollSample = (s.seq.expect, s.draws) := by
    rw [← hstored]
    exact Device.sample_stored (d := s.dev.openWindow) s.draws rfl rfl rfl rfl hundef hbusy
  rw [poll_run writebyte_runs_poll h.busy h.label h.lines h.input, sample,
    pollDecide_match (by exact h.ret) (by rfl)]

/-! ### The two calls, as moves of the agents -/

/-- R168: the host issues `writeByte`, the device commits before the sample `k`, and the sample finds the byte. -/
theorem run_writebyte {s : State} {k : Nat} (rest : List Turn) (hc : s.cfg.wf) (hb : s.flags.busy = false)
    (hl : s.linesIdle) (hready : s.dev.ready) (hprot : s.dev.prot = false) (hk : k < s.cfg.pollBudget) :
    ∃ t : State, core.run (8 + 5 * k + 1 + (5 + 1)) (s.withInputs (.hostWrite 0 0x21 ::
        (List.replicate (8 + 5 * k) .sequencer ++ .commit :: (List.replicate 5 .sequencer ++ rest)))) =
        .next (t.withInputs rest) ∧
      t.cfg = s.cfg ∧ t.answers = s.answers ∧ t.flags.busy = false ∧ t.flags.ok = true ∧ t.linesIdle ∧
      t.dev.busy = false ∧ t.dev.undef = false ∧ t.dev.stored (clamp s.cfg s.addrOperand) = s.byteOperand ∧
      ∀ x, x ≠ clamp s.cfg s.addrOperand → t.dev.stored x = s.dev.stored x := by
  obtain ⟨hbusy, hundef, hhung⟩ := hready
  obtain ⟨v, n, tr, htr, waits⟩ := writebyte_waits_run hc hb hl hbusy hundef hprot hk
  have issued := run_issued (v := 0x21) (.commit :: (List.replicate 5 .sequencer ++ rest)) hc hb rfl waits htr
  obtain ⟨hidle, hsound, hstored, hother⟩ := s.dev.cycling_commit (clamp s.cfg s.addrOperand) s.byteOperand hhung
  have sample := poll_finds_stored (s := { s.waiting k v n tr with dev := (s.waiting k v n tr).dev.commit })
    ⟨rfl, rfl, hl, rfl, rfl, hk⟩ hidle (hsound.trans hundef) hstored
  have polled := run_sequencer rest (by exact hc) (by exact decode_encode .writebyte) sample (by simp [pollEvents])
  exact ⟨_, (run_add _ issued).trans ((run_commit 5 (by exact hc)).trans polled), rfl, rfl, rfl, rfl, hl, hidle,
    hsound.trans hundef, hstored, hother⟩

/-- R168: the host issues `readByte` and reads the byte: it is the one stored, and the array is kept. -/
theorem run_readbyte {s : State} (rest : List Turn) (hc : s.cfg.wf) (hb : s.flags.busy = false)
    (hl : s.linesIdle) (hbusy : s.dev.busy = false) (hundef : s.dev.undef = false) :
    ∃ t : State, core.run (7 + 1 + 1) (s.withInputs (.hostWrite 0 0x20 ::
        (List.replicate 7 .sequencer ++ .hostRead 5 :: rest))) = .next (t.withInputs rest) ∧
      t.flags.busy = false ∧ t.answers = s.answers ++ [(s.dev.stored (clamp s.cfg s.addrOperand)).setWidth 32] ∧
      ∀ x, t.dev.stored x = s.dev.stored x := by
  have read := readbyte_run hb hl
  rw [State.readAt_stored _ hl hundef hbusy] at read
  have issued := run_issued (v := 0x20) (.hostRead 5 :: rest) hc hb rfl read (by simp [readEvents])
  exact ⟨_, (run_add 1 issued).trans (run_hostRead 0 (by exact hc)), hb, rfl, fun x => rfl⟩

/-- R103: an address of the array is not clamped. -/
theorem clamp_of_le {c : Config} {a : Nat} (h : a ≤ c.maxAddr) : clamp c a = a := Nat.min_eq_left h

/-- R29: the byte and the address the host loads are the operands. -/
theorem writeReg_operands (s : State) (a : Word) (b : Byte) :
    ((s.writeReg 3 (b.setWidth 32)).writeReg 2 a).byteOperand = b ∧
      ((s.writeReg 3 (b.setWidth 32)).writeReg 2 a).addrOperand = a.toNat := by
  simp [State.byteOperand, State.addrOperand, writeReg_addrOp, writeReg_dataOp]

/-- R110: a run that begins with the host's writes of a byte and an address. -/
theorem run_loadOperands {s : State} {a : Word} {v : Word} {rest : List Turn} (k : Nat) (hc : s.cfg.wf)
    (hb : s.flags.busy = false) :
    core.run (k + 1 + 1) (s.withInputs (.hostWrite 3 v :: .hostWrite 2 a :: rest)) =
      core.run k (((s.writeReg 3 v).writeReg 2 a).withInputs rest) :=
  (run_hostWrite (k + 1) hc hb (by decide)).trans (run_hostWrite (s := s.writeReg 3 v) k hc hb (by decide))

/-- Settles O36: the write call, the host's read of `STATUS`, then the read call. -/
theorem writeThenReadReturnsByte : Obligations.WriteThenReadReturnsByte := by
  intro s a b k rest hc hb hl hready hprot ha hk hi
  obtain ⟨hbyte, haddr⟩ := writeReg_operands s a b
  obtain ⟨t, written, hcfg, hans, htb, htok, htl, htbusy, htundef, htstored, htother⟩ :=
    run_writebyte (s := (s.writeReg 3 (b.setWidth 32)).writeReg 2 a) (.hostRead 1 :: .hostWrite 2 a :: .hostWrite 0 0x20 ::
      (List.replicate 7 .sequencer ++ .hostRead 5 :: rest)) hc hb hl hready hprot hk
  rw [hbyte, haddr, clamp_of_le (by exact ha)] at htstored
  rw [haddr, clamp_of_le (by exact ha)] at htother
  replace hcfg : t.cfg = s.cfg := hcfg
  replace hans : t.answers = s.answers := hans
  have htc : t.cfg.wf := by rw [hcfg]; exact hc
  obtain ⟨u, read, hub, huans, hustored⟩ := run_readbyte
    (s := State.writeReg { t with answers := t.answers ++ [t.status] } 2 a) rest htc htb htl htbusy htundef
  replace huans : u.answers =
    t.answers ++ [t.status] ++ [(t.dev.stored (clamp t.cfg a.toNat)).setWidth 32] := huans
  rw [hans, hcfg, clamp_of_le ha, htstored, List.append_assoc] at huans
  have run : core.run (8 + 5 * k + 1 + (5 + 1) + (7 + 1 + 1 + 1 + 1) + 1 + 1) s = .next (u.withInputs rest) := by
    have hs : s = s.withInputs s.inputs := rfl
    rw [hs, hi]
    simp only [List.append_assoc, List.cons_append, List.nil_append]
    exact (run_loadOperands _ hc hb).trans <| (run_add _ written).trans <| (run_hostRead _ htc).trans <|
      (run_hostWrite (s := { t with answers := t.answers ++ [t.status] }) (index := 2) _ htc htb (by decide)).trans read
  refine ⟨u.withInputs rest, t.status, ?_, rfl, hub, huans, ?_, ?_, ?_, fun x hx => ?_⟩
  · rw [← run]; congr 1; omega
  · rw [status_getLsbD, htb]; simp
  · rw [status_getLsbD, htok]; simp
  · exact (hustored _).trans htstored
  · exact (hustored x).trans (htother x hx)

end Sys2Proof.Machine
end

section
/-! SUPPORT. `writePage`: acceptance, the write phase of an attempt, the poll, and a page that is there already (O37 to O40, O47). -/

namespace Sys2Proof.Machine

/-! ### Acceptance -/

/-- R192: the state in which `writePage` puts its page to the check of R191. -/
def State.pageCall (s : State) : State :=
  { s.accept .writepage with seq := { (s.accept .writepage).seq with
      pgBase := s.regs.addrOp.toNat, pgLen := s.regs.lenOp.toNat, retP := .finish } }

/-- R191, R192: the operands of `writePage` make a valid page. -/
theorem pageCall_valid_iff (s : State) :
    s.pageCall.pageValid = true ↔ 1 ≤ s.regs.lenOp.toNat ∧ s.regs.lenOp.toNat ≤ s.cfg.pageSize ∧
      s.regs.addrOp.toNat + s.regs.lenOp.toNat - 1 ≤ s.cfg.maxAddr := pageValid_iff s.pageCall

/-- R192: acceptance of `writePage` is its page call, which finishes where it drops. -/
theorem startOf_writepage (s : State) :
    startOf .writepage (s.accept .writepage) = wpCall (fun s => s.finish false) s.pageCall := rfl

/-- R192: acceptance of a valid page. -/
theorem startOf_writepage_valid {s : State} (h : s.pageCall.pageValid = true) :
    startOf .writepage (s.accept .writepage) =
      ({ s.pageCall with regs := { s.regs with attempts := 0 } } : State).goto .wp1 := by
  rw [startOf_writepage, wpCall_valid h]; rfl

/-- Settles O37: the call is dropped, and the drop finishes the command. -/
theorem invalidPageDropped : Obligations.InvalidPageDropped := by
  intro s hb hpage
  have hinvalid : s.pageCall.pageValid = false := by
    rw [← Bool.not_eq_true, pageCall_valid_iff]; exact hpage
  have step : exec .writepage s = .next (s.pageCall.setDropped.finish false) := by
    rw [exec_idle _ hb, startOf_writepage, wpCall_dropped hinvalid]
  refine ⟨_, step, ?_, rfl, rfl, rfl, rfl, rfl⟩
  show ({ s.flags with busy := false, ok := false, dropped := true } : Flags) = _
  rw [← hb]

/-- Settles O38: the call is valid, and goes to `WP1`. -/
theorem validPageStarts : Obligations.ValidPageStarts := by
  intro s hb hlen hsize hmax
  rw [exec_idle _ hb, startOf_writepage_valid ((pageCall_valid_iff s).2 ⟨hlen, hsize, hmax⟩)]
  rfl

/-! ### The write phase -/

/-- R34: the count of attempts stays at its greatest value. -/
theorem saturatingSucc_eq (w : Word) : saturatingSucc w = if w.toNat = 2 ^ 32 - 1 then w else w + 1 := by
  have hmax : w = BitVec.allOnes 32 ↔ w.toNat = 2 ^ 32 - 1 := by
    rw [← BitVec.toNat_inj, BitVec.toNat_allOnes]
  simp only [saturatingSucc, hmax]

theorem Device.recognise_last (d : Device) (on : Bool) (n : Nat) : (d.recognise on n).1.last = d.last := by
  unfold Device.recognise; split <;> rfl

/-- R77: the close of a window keeps the last pair latched. -/
theorem Device.closeWindow_last (d : Device) (p n : Nat) : (d.closeWindow p n).1.last = d.last := by
  unfold Device.closeWindow
  dsimp only
  split
  · rfl
  · split
    · exact d.recognise_last _ _
    · split
      · exact d.recognise_last _ _
      · split
        · rfl
        · split <;> rfl

/-- R193: the pair of the last byte is the last of the page. -/
theorem pageCells_getLast? (s : State) (base : Nat) {n : Nat} (h : 1 ≤ n) :
    (s.pageCells base n).getLast? = some (base + n - 1, s.pageByte (n - 1)) := by
  obtain ⟨m, rfl⟩ := Nat.exists_eq_add_of_le' h
  simp [State.pageCells, List.range_succ]

/-- R77, R193: an idle device has latched the last byte of the page at the end of its window. -/
theorem Device.window_last {d : Device} (p n : Nat) {cs : List Host.Cell} {c : Host.Cell} (hbusy : d.busy = false)
    (hlast : cs.getLast? = some c) : (d.window p n cs).1.last = some c := by
  rw [Device.window_idle d p n cs hbusy, Device.closeWindow_last, hlast]; rfl

/-- R68, R77: an idle unprotected device begins its write cycle with the bytes of one page at the end of their window. -/
theorem Device.window_cycle {d : Device} {p : Nat} (n : Nat) {cs : List Host.Cell} (hbusy : d.busy = false)
    (hprot : d.prot = false) (hne : cs ≠ []) (hu : cs ≠ unlockSeq) (hl : cs ≠ lockSeq) (hpage : onePage p cs = true) :
    (d.window p n cs).1.busy = true ∧ (d.window p n cs).1.cycle = cs ∧ (d.window p n cs).1.undef = d.undef := by
  have close := Device.closeWindow_unprotected p n
    (d := { d with pend := cs, last := cs.getLast?.or d.last, contended := false }) hne hu hl hprot
  rw [if_pos (by exact hpage)] at close
  rw [Device.window_idle d p n cs hbusy, close]
  exact ⟨rfl, rfl, rfl⟩

/-- Settles O39: the run of the write phase in closed form, and the device's answer to its window. -/
theorem pageSentInOneWindow : Obligations.PageSentInOneWindow := by
  intro i s n hi hb hph hl hvalid hn
  obtain ⟨hlen, -, hmax⟩ := (pageValid_iff s).1 hvalid
  rw [hn] at hlen hmax
  have hlast := pageCells_getLast? s s.seq.pgBase hlen
  have hne : s.pageCells s.seq.pgBase n ≠ [] := by
    rintro h; rw [h] at hlast; cases hlast
  refine ⟨_, pageWrite_run (pages_run_pageWrite hi) hb hph hl hn hlen hmax, rfl, rfl, rfl, rfl, rfl, ?_, rfl, rfl,
    fun hbusy => Device.window_last _ _ hbusy hlast, fun hbusy hprot hu hk hpage =>
      Device.window_cycle _ hbusy hprot hne hu hk hpage⟩
  rw [← saturatingSucc_eq]

/-! ### The poll of an attempt -/

/-- R165, R195: at `PL5` the poll of an attempt that matched, or that has used up its budget, goes on to the read-back. -/
theorem pages_pl5_readBack {i : Instr} {s : State} (hi : i.pages) (hb : s.flags.busy = true) (hph : s.seq.ph = .pl5)
    (hret : s.seq.retT = .afterPoll)
    (hend : s.regs.rdata = s.seq.expect ∨ s.seq.pollCnt + 1 = s.cfg.pollBudget) :
    exec i s = .next { (s.driveCE false).setPollOk (decide (s.regs.rdata = s.seq.expect)) with
      seq := { s.seq with pollCnt := s.seq.pollCnt + 1, idx := 0, tAddr := s.seq.pgBase, retT := .check, ph := .rs0 } } := by
  have step : exec i s = pollDecide (s.driveCE false) :=
    (pages_run_poll hi).exec hb (by rw [Proc.at, hph]; rfl)
  rw [step, pollDecide_eq]
  by_cases hmatch : s.regs.rdata = s.seq.expect
  · rw [if_pos (by exact hmatch), pollReturn_afterPoll _ (by exact hret), decide_eq_true hmatch]; rfl
  · rw [if_neg (by exact hmatch), if_pos (by exact hend.resolve_left hmatch), pollReturn_afterPoll _ (by exact hret),
      decide_eq_false hmatch]
    rfl

/-- Settles O40: both ends of the poll return to the same label. -/
theorem readBackFollowsEveryPoll : Obligations.ReadBackFollowsEveryPoll := fun _ _ hi hb hph hret hend =>
  ⟨_, pages_pl5_readBack hi hb hph hret hend, rfl, rfl, rfl, rfl, rfl, rfl⟩

/-! ### A page the device holds -/

/-- Settles O47: acceptance, one attempt that matches, and the return of the call to `finish`. -/
theorem protectedMatchingPageSucceeds : Obligations.ProtectedMatchingPageSucceeds := by
  rintro s n - hb hl ⟨hbusy, hundef, -⟩ hprot hn hlen hsize hmax hstored
  have hvalid : s.pageCall.pageValid = true := (pageCall_valid_iff s).2 (by rw [hn]; exact ⟨hlen, hsize, hmax⟩)
  obtain ⟨tr, last, run⟩ := protected_attempt_matches (i := .writepage) (.inl rfl)
    (s := ({ s.pageCall with regs := { s.regs with attempts := 0 } } : State).goto .wp1)
    rfl rfl hl hn hlen hmax hbusy hundef hprot hstored
  rw [wpReturn_finish _ (by rfl)] at run
  have accepted := execTimes_accept ((3 + 4 * n) + (1 + 5) + 7 * n) .writepage hb
  rw [startOf_writepage_valid hvalid, Nat.add_comm] at accepted
  refine ⟨_, accepted.trans run, ?_, rfl, rfl, rfl, rfl, hprot, hbusy⟩
  show ({ s.flags with busy := false, ok := true, pollOk := true, verifyOk := true, dropped := false } : Flags) = _
  rw [← hb]

end Sys2Proof.Machine
end

section
/-! SUPPORT. The end of an attempt of the page writer, and how `writePage` ends (O41 to O45). -/

namespace Sys2Proof.Machine

/-! ### The compare at `RS6` -/

/-- R161, R196: at `RS6` of the read-back a command in the page writer closes the window and compares the byte. -/
theorem pages_rs6 {i : Instr} {s : State} (hi : i.pages) (hb : s.flags.busy = true) (hph : s.seq.ph = .rs6)
    (hret : s.seq.retT = .check) : exec i s = .next (checkByte (s.driveCE false)) := by
  rw [(pages_run_readSeq hi).exec hb (by rw [Proc.at, hph]; rfl)]
  exact readReturn_check hret

/-- Settles O41: the compare goes on. -/
theorem readBackGoesOn : Obligations.ReadBackGoesOn := by
  intro i s hi hb hph hret heq hleft
  refine ⟨_, pages_rs6 hi hb hph hret, ?_⟩
  rw [checkByte_goesOn (by exact heq) (by exact hleft)]
  exact ⟨rfl, rfl, rfl, rfl, rfl⟩

/-- Settles O42: the compare fails the attempt, or the poll has, and the decision is to retry. -/
theorem failedAttemptRetries : Obligations.FailedAttemptRetries := by
  intro i s hi hb hph hret hcap
  refine ⟨fun hdiff => ⟨_, pages_rs6 hi hb hph hret, ?_⟩, fun heq hlast hpoll => ⟨_, pages_rs6 hi hb hph hret, ?_⟩⟩
  · rw [checkByte_differs (by exact hdiff), decideAttempt_retry (by simp) (by exact hcap)]
    exact ⟨rfl, rfl, rfl⟩
  · rw [checkByte_last (by exact heq) (by exact hlast), decideAttempt_retry (by simp [hpoll]) (by exact hcap)]
    exact ⟨rfl, rfl, rfl⟩

/-- R198: a failed attempt at the cap finishes `writePage`. -/
theorem decideAttempt_capped_finish {s : State} {k : Nat} (hfail : (s.flags.pollOk && s.flags.verifyOk) = false)
    (hcap : s.cfg.retryCap = some k) (hk : k ≤ s.regs.attempts.toNat) (hret : s.seq.retP = .finish) :
    decideAttempt s = s.finish false := by
  rw [decideAttempt_capped hfail hcap hk, wpReturn_finish _ hret]

/-- Settles O43: the compare fails the attempt, or the poll has, and the decision is to return `false`. -/
theorem capEndsWritePage : Obligations.CapEndsWritePage := by
  intro s k hb hph hret hretP hcap hk hfail
  refine ⟨_, pages_rs6 (.inl rfl) hb hph hret, ?_⟩
  by_cases heq : s.regs.rdata = s.pageByte s.seq.idx
  · obtain ⟨hlast, hpoll⟩ := hfail.resolve_left (absurd heq)
    rw [checkByte_last (by exact heq) (by exact hlast),
      decideAttempt_capped_finish (by simp [hpoll]) (by exact hcap) (by exact hk) (by exact hretP)]
    exact ⟨rfl, rfl, rfl, rfl⟩
  · rw [checkByte_differs (by exact heq),
      decideAttempt_capped_finish (by simp) (by exact hcap) (by exact hk) (by exact hretP)]
    exact ⟨rfl, rfl, rfl, rfl⟩

/-! ### The steps that keep `writePage` running -/

/-- R195: in the page writer the poll returns to the attempt. -/
theorem State.paging.retT_of_poll {s : State} {r : RetP} (h : s.paging r) {f : State → Result}
    (hf : poll s.seq.ph = some f) : s.seq.retT = .afterPoll := by
  obtain ⟨-, -, hph | hph | hph | ⟨hph, -⟩ | ⟨-, hret⟩ | ⟨hph, -, -⟩⟩ := h
  case inr.inr.inr.inr.inl => exact hret
  case inr.inr.inr.inl => rcases hph with hph | hph | hph | hph <;> rw [hph] at hf <;> cases hf
  case inr.inr.inr.inr.inr =>
    rcases hph with hph | hph | hph | hph | hph | hph | hph <;> rw [hph] at hf <;> cases hf
  all_goals rw [hph] at hf; cases hf

/-- R196: in the page writer a read returns to the compare. -/
theorem State.paging.retT_of_readSeq {s : State} {r : RetP} (h : s.paging r) {f : State → Result}
    (hf : readSeq s.seq.ph = some f) : s.seq.retT = .check ∧ s.seq.idx < s.seq.pgLen := by
  obtain ⟨-, -, hph | hph | hph | ⟨hph, -⟩ | ⟨hpoll, -⟩ | ⟨-, hret⟩⟩ := h
  case inr.inr.inr.inr.inr => exact hret
  case inr.inr.inr.inl => rcases hph with hph | hph | hph | hph <;> rw [hph] at hf <;> cases hf
  case inr.inr.inr.inr.inl =>
    rcases hpoll with ⟨hph, -⟩ | ⟨hph | hph | hph | hph | hph, -⟩ <;> rw [hph] at hf <;> cases hf
  all_goals rw [hph] at hf; cases hf

/-- R193: the write phase keeps the flags. -/
theorem pageWrite_flags {s t : State} {f : State → Result} (hf : pageWrite s.seq.ph = some f) (h : f s = .next t) :
    t.flags = s.flags := by
  cases hph : s.seq.ph <;> rw [hph] at hf <;> simp only [pageWrite, Option.some.injEq, reduceCtorEq] at hf <;> subst hf
  case wp6 => cases h; unfold nextPulse; dsimp only; split <;> rfl
  all_goals cases h; simp

/-- R195: the poll of an attempt leaves its command running. -/
theorem poll_busy {s t : State} {f : State → Result} (hret : s.seq.retT = .afterPoll) (hf : poll s.seq.ph = some f)
    (h : f s = .next t) : t.flags.busy = s.flags.busy := by
  cases hph : s.seq.ph <;> rw [hph] at hf <;> simp only [poll, Option.some.injEq, reduceCtorEq] at hf <;> subst hf
  case pl5 =>
    dsimp only at h
    rw [pollDecide_eq, pollReturn_afterPoll _ (by exact hret), pollReturn_afterPoll _ (by exact hret)] at h
    split at h
    · cases h; rfl
    · split at h <;> cases h <;> rfl
  all_goals cases h; rfl

/-- R196: a step of the read-back before its compare keeps the flags. -/
theorem readSeq_flags {s t : State} {f : State → Result} (hf : readSeq s.seq.ph = some f) (h : f s = .next t)
    (hne : s.seq.ph ≠ .rs6) : t.flags = s.flags := by
  cases hph : s.seq.ph <;> rw [hph] at hf <;> simp only [readSeq, Option.some.injEq, reduceCtorEq] at hf <;> subst hf
  case rs6 => exact absurd hph hne
  all_goals cases h; rfl

/-- R36, R197: a step of a running `writePage` leaves it running, or it is the compare of a byte read back. -/
theorem writepage_step {s t : State} (hb : s.flags.busy = true) (h : exec .writepage s = .next t)
    (hp : s.paging .finish) :
    t.flags.busy = true ∨
      (s.seq.ph = .rs6 ∧ s.seq.retT = .check ∧ s.seq.idx < s.seq.pgLen ∧ t = checkByte (s.driveCE false)) := by
  have hx := h
  rw [exec_busy _ hb] at hx
  obtain ⟨p, hmem, f, hf, hft⟩ := runProcs_next hx
  simp only [procsOf, List.mem_cons, List.not_mem_nil, or_false] at hmem
  rcases hmem with rfl | rfl | rfl
  · exact .inl ((congrArg Flags.busy (pageWrite_flags hf hft)).trans hb)
  · exact .inl ((poll_busy (hp.retT_of_poll hf) hf hft).trans hb)
  · by_cases hph : s.seq.ph = .rs6
    · obtain ⟨hret, hidx⟩ := hp.retT_of_readSeq hf
      rw [pages_rs6 (.inl rfl) hb hph hret] at h
      cases h
      exact .inr ⟨hph, hret, hidx, rfl⟩
    · exact .inl ((congrArg Flags.busy (readSeq_flags hf hft hph)).trans hb)

/-! ### How `writePage` ends -/

/-- R197, R198: a failed attempt of `writePage` is retried, or finishes it with `OK = 0` where there is a cap. -/
theorem decideAttempt_failed {s : State} (hfail : (s.flags.pollOk && s.flags.verifyOk) = false)
    (hret : s.seq.retP = .finish) :
    decideAttempt s = s.goto .wp1 ∨ (s.cfg.retryCap ≠ none ∧ decideAttempt s = s.finish false) := by
  by_cases hcap : ∃ k, s.cfg.retryCap = some k ∧ k ≤ s.regs.attempts.toNat
  · obtain ⟨k, hcap, hk⟩ := hcap
    exact .inr ⟨by simp [hcap], decideAttempt_capped_finish hfail hcap hk hret⟩
  · exact .inl (decideAttempt_retry hfail fun k hk => Nat.lt_of_not_le fun hle => hcap ⟨k, hk, hle⟩)

/-- R190, R196, R197: what the compare of a byte makes of `writePage`: it goes on, it has failed at a cap, or it has
succeeded with the last byte, equal, after a poll that matched. -/
theorem checkByte_writepage {s : State} (hb : s.flags.busy = true) (hret : s.seq.retP = .finish) :
    (checkByte s).flags.busy = true ∨
    (s.cfg.retryCap ≠ none ∧ (checkByte s).flags.ok = false) ∨
    (s.regs.rdata = s.pageByte s.seq.idx ∧ s.seq.pgLen ≤ s.seq.idx + 1 ∧ s.flags.pollOk = true ∧
      (checkByte s).flags = { s.flags with busy := false, ok := true, verifyOk := true }) := by
  have failed : ∀ u : State, checkByte s = decideAttempt u → u.flags.busy = true → u.cfg = s.cfg →
      u.seq.retP = .finish → (u.flags.pollOk && u.flags.verifyOk) = false →
      (checkByte s).flags.busy = true ∨ (s.cfg.retryCap ≠ none ∧ (checkByte s).flags.ok = false) := by
    intro u hu hub hcfg hur hfail
    rcases decideAttempt_failed hfail hur with h | ⟨hcap, h⟩ <;> rw [hu, h]
    · exact .inl hub
    · exact .inr ⟨hcfg ▸ hcap, rfl⟩
  by_cases heq : s.regs.rdata = s.pageByte s.seq.idx
  · by_cases hleft : s.seq.idx + 1 < s.seq.pgLen
    · rw [checkByte_goesOn heq hleft]; exact .inl hb
    · have hlast := Nat.le_of_not_lt hleft
      have hcheck := checkByte_last heq hlast
      cases hpoll : s.flags.pollOk with
      | true =>
        rw [hcheck, decideAttempt_ok (by exact hpoll) (by rfl), wpReturn_finish _ (by exact hret)]
        exact .inr (.inr ⟨heq, hlast, rfl, rfl⟩)
      | false => exact (failed _ hcheck hb rfl hret (by simp [hpoll])).imp_right .inl
  · exact (failed _ (checkByte_differs heq) hb rfl hret (by simp)).imp_right .inl

/-- Settles O45: of the ways a step leaves `writePage` only the failure at a cap has `OK = 0`. -/
theorem uncappedWritePageEndsOnlyInSuccess : Obligations.UncappedWritePageEndsOnlyInSuccess := by
  intro s t hb h hp hcap
  obtain hbusy | ⟨-, -, -, rfl⟩ := writepage_step hb h hp
  · exact .inl hbusy
  · rcases checkByte_writepage (s := s.driveCE false) hb hp.1 with hbusy | ⟨hcapped, -⟩ | ⟨-, -, -, hflags⟩
    · exact .inl hbusy
    · exact absurd hcap hcapped
    · exact .inr (by rw [hflags])

/-- R161, R196: with its window closed, the read of an equal byte stands whole at the end of the trace. -/
theorem readBack_closed {s : State} (h : s.readBack) (hph : s.seq.ph = .rs6) (hret : s.seq.retT = .check)
    (heq : s.regs.rdata = s.pageByte s.seq.idx) :
    ∃ before, s.trace ++ [.ce false] = before ++ s.readBackEvents (s.seq.idx + 1) := by
  obtain ⟨-, before, htrace⟩ := h (by simp [Label.reading, hph]) hret
  refine ⟨before, ?_⟩
  rw [readBackEvents_succ, ← heq, htrace, hph]
  simp [readEvents, Label.readSteps]

/-- Settles O44: `writePage` ends with `OK = 1` only by the last compare, where the invariant has the reads before it. -/
theorem successNeedsPollAndReadBack : Obligations.SuccessNeedsPollAndReadBack := by
  intro s t hI hb h hp htb htok
  obtain hbusy | ⟨hph, hret, hidx, rfl⟩ := writepage_step hb h hp
  · rw [htb] at hbusy; cases hbusy
  rcases checkByte_writepage (s := s.driveCE false) hb hp.1 with hbusy | ⟨-, hok⟩ | ⟨heq, hlast, hpoll, hflags⟩
  · rw [htb] at hbusy; cases hbusy
  · rw [htok] at hok; cases hok
  · have hlen : s.seq.idx + 1 = s.seq.pgLen := Nat.le_antisymm hidx hlast
    obtain ⟨before, htrace⟩ := readBack_closed hI.readBack hph hret heq
    refine ⟨hph, hpoll, heq, hlen, by rw [hflags]; exact hpoll, by rw [hflags], before, ?_⟩
    rw [(checkByte_kept _).trace, ← hlen]
    exact htrace

end Sys2Proof.Machine
end

section
/-! SUPPORT. `unlock` and `lock` as whole commands: their table in one window, the settle delay, the Protection State (O48, O49). -/

namespace Sys2Proof.Machine

/-! ### A protection command as a whole -/

/-- R222 to R225: a command that sends a protection table, from idle lines: acceptance, the window, the settle delay. -/
theorem exec_prot_run {i : Instr} {table : List Host.Cell} (hstart : startOf i = startProt)
    (hr : Runs i (protSeq table)) (hne : table ≠ []) {s : State} (hb : s.flags.busy = false) (hl : s.linesIdle)
    (hmax : ∀ e ∈ table, e.1 ≤ s.cfg.maxAddr) :
    execTimes (1 + (3 + 4 * table.length + s.cfg.settleTicks)) i s = .next { s with
      bus := { s.bus with aLatch := (table.getLast hne).1, dLatch := (table.getLast hne).2, dir := true }
      flags := { s.flags with ok := true, dropped := false }
      dev := (s.dev.window s.cfg.pageSize s.draws table).1
      draws := (s.dev.window s.cfg.pageSize s.draws table).2
      trace := s.trace ++ windowEvents table ++ List.replicate s.cfg.settleTicks .settle
      seq := { s.seq with op := encode i, idx := table.length, settleCnt := 0, ph := .idle } } := by
  have accepted := execTimes_accept (3 + 4 * table.length + s.cfg.settleTicks) i hb
  rw [hstart, Nat.add_comm] at accepted
  refine accepted.trans ((protSeq_run (s := startProt (s.accept i)) hr rfl rfl hl hne hmax).trans ?_)
  simp only [startProt, goto_flags, accept_flags, hb]
  rfl

/-! ### The tables in the array, and what the device makes of them -/

/-- R10 (a), R221: the addresses of `UNLOCK_SEQ` lie in the array, so none is clamped. -/
theorem unlockSeq_inArray {c : Config} (h : c.coversMagic) : ∀ e ∈ unlockSeq, e.1 ≤ c.maxAddr := by
  have below : ∀ e ∈ unlockSeq, e.1 ≤ 0x5555 := by decide
  exact fun e he => (below e he).trans h

/-- R10 (a), R221: the addresses of `LOCK_SEQ` lie in the array, so none is clamped. -/
theorem lockSeq_inArray {c : Config} (h : c.coversMagic) : ∀ e ∈ lockSeq, e.1 ≤ c.maxAddr := by
  have below : ∀ e ∈ lockSeq, e.1 ≤ 0x5555 := by decide
  exact fun e he => (below e he).trans h

/-- R71, R77: a window with the pulses of `UNLOCK_SEQ` leaves an idle device unprotected. -/
theorem Device.window_unlockSeq {d : Device} (p n : Nat) (hbusy : d.busy = false) :
    (d.window p n unlockSeq).1 =
      { d with prot := false, pend := [], last := some (0x5555, 0x20), contended := false } := by
  rw [Device.window_idle d p n unlockSeq hbusy, Device.closeWindow_unlock p n rfl rfl]
  rfl

/-- R71, R77: a window with the pulses of `LOCK_SEQ` leaves an idle device protected. -/
theorem Device.window_lockSeq {d : Device} (p n : Nat) (hbusy : d.busy = false) :
    (d.window p n lockSeq).1 =
      { d with prot := true, pend := [], last := some (0x5555, 0xA0), contended := false } := by
  rw [Device.window_idle d p n lockSeq hbusy, Device.closeWindow_lock p n rfl rfl]
  rfl

/-! ### `unlock` and `lock` -/

/-- Settles O48: the run with `UNLOCK_SEQ` in closed form, and the device's answer to its window. -/
theorem unlockSendsSixPulses : Obligations.UnlockSendsSixPulses := by
  rintro s ⟨hmagic, -⟩ hb hl
  have run := exec_prot_run (i := .unlock) rfl unlock_runs (by decide) hb hl (unlockSeq_inArray hmagic)
  refine ⟨_, run, rfl, rfl, rfl, rfl, rfl, (Device.window_kept ..).mem, fun hbusy => ?_⟩
  dsimp only
  rw [Device.window_unlockSeq _ _ hbusy]
  exact ⟨rfl, hbusy, rfl⟩

/-- Settles O49: the run with `LOCK_SEQ` in closed form, and the device's answer to its window. -/
theorem lockSendsThreePulses : Obligations.LockSendsThreePulses := by
  rintro s ⟨hmagic, -⟩ hb hl
  have run := exec_prot_run (i := .lock) rfl lock_runs (by decide) hb hl (lockSeq_inArray hmagic)
  refine ⟨_, run, rfl, rfl, rfl, rfl, rfl, (Device.window_kept ..).mem, fun hbusy => ?_⟩
  dsimp only
  rw [Device.window_lockSeq _ _ hbusy]
  exact ⟨rfl, hbusy, rfl⟩

end Sys2Proof.Machine
end

section
/-! SUPPORT. How the page call of a bulk command returns, and the walk of `eraseAll` (O50, O51). -/

namespace Sys2Proof.Machine

/-! ### The return of a page call -/

/-- R161, R196: the window of the read-back closed and its byte compared, with `n` left in `IDX`. -/
def State.compared (s : State) (n : Nat) : State :=
  { s.driveCE false with
    flags := { s.flags with verifyOk := decide (s.regs.rdata = s.pageByte s.seq.idx) }
    seq := { s.seq with idx := n } }

/-- R196, R197: at `RS6` the read-back ends where a byte differs and with the last byte; the attempt is then decided. -/
theorem checkByte_ends {s : State}
    (hend : s.regs.rdata ≠ s.pageByte s.seq.idx ∨ s.seq.pgLen ≤ s.seq.idx + 1) :
    ∃ n, checkByte (s.driveCE false) = decideAttempt (s.compared n) := by
  by_cases heq : s.regs.rdata = s.pageByte s.seq.idx
  · refine ⟨s.seq.idx + 1, ?_⟩
    rw [checkByte_last (by exact heq) (by exact hend.resolve_left (absurd heq)), State.compared, decide_eq_true heq]
    rfl
  · refine ⟨s.seq.idx, ?_⟩
    rw [checkByte_differs (by exact heq), State.compared, decide_eq_false heq]
    rfl

/-- R197, R198: the page call of a command returns `true` behind an attempt polled and verified, and `false` behind a failed
one at the cap. -/
theorem pages_rs6_returns {i : Instr} {s : State} {ok : Bool} (hi : i.pages) (hb : s.flags.busy = true)
    (hph : s.seq.ph = .rs6) (hret : s.seq.retT = .check)
    (hsuccess : ok = true → s.regs.rdata = s.pageByte s.seq.idx ∧ s.seq.idx + 1 = s.seq.pgLen ∧ s.flags.pollOk = true)
    (hcapped : ok = false → (∃ k, s.cfg.retryCap = some k ∧ k ≤ s.regs.attempts.toNat) ∧
      (s.regs.rdata ≠ s.pageByte s.seq.idx ∨ (s.seq.idx + 1 = s.seq.pgLen ∧ s.flags.pollOk = false))) :
    ∃ n, exec i s = .next (wpReturn ok (s.compared n)) := by
  rw [pages_rs6 hi hb hph hret]
  cases ok with
  | true =>
    obtain ⟨heq, hlast, hpoll⟩ := hsuccess rfl
    obtain ⟨n, hcheck⟩ := checkByte_ends (.inr hlast.ge)
    exact ⟨n, by rw [hcheck, decideAttempt_ok (by exact hpoll) (by exact decide_eq_true heq)]⟩
  | false =>
    obtain ⟨⟨k, hcap, hk⟩, hfail⟩ := hcapped rfl
    obtain ⟨n, hcheck⟩ := checkByte_ends (hfail.imp_right fun h => h.1.ge)
    have hfailed : ((s.compared n).flags.pollOk && (s.compared n).flags.verifyOk) = false := by
      rcases hfail with hdiff | ⟨-, hpoll⟩
      · simp [State.compared, hdiff]
      · simp [State.compared, hpoll]
    exact ⟨n, by rw [hcheck, decideAttempt_capped hfailed (by exact hcap) (by exact hk)]⟩

/-! ### The blocks of `eraseAll` -/

/-- R241, R242: a block that begins in the array is a valid page, cut at the end of the array, and goes to `WP1`. -/
theorem eraseBlock_eq {s : State} (hc : s.cfg.wf) (hbase : s.seq.pgBase ≤ s.cfg.maxAddr) :
    eraseBlock s = { s with
      regs := { s.regs with attempts := 0 }
      seq := { s.seq with
        pgLen := min s.cfg.pageSize (s.cfg.maxAddr + 1 - s.seq.pgBase), retP := .afterBlock, ph := .wp1 } } := by
  obtain ⟨-, -, ⟨hpage, -⟩, -, -⟩ := hc
  refine wpCall_valid ((pageValid_iff _).2 ⟨?_, Nat.min_le_left .., ?_⟩)
  · dsimp only; omega
  · dsimp only; omega

/-- R241: in the array, the walk goes on with the next block. -/
theorem eraseAfter_next {s : State} (ok : Bool) (h : s.seq.pgBase + s.cfg.pageSize ≤ s.cfg.maxAddr) :
    eraseAfter ok s = eraseBlock { s with seq := { s.seq with
      allOk := s.seq.allOk && ok, pgBase := s.seq.pgBase + s.cfg.pageSize } } := if_pos h

/-- R241: behind the array, the walk is over. -/
theorem eraseAfter_last {s : State} (ok : Bool) (h : s.cfg.maxAddr < s.seq.pgBase + s.cfg.pageSize) :
    eraseAfter ok s = ({ s with seq := { s.seq with
      allOk := s.seq.allOk && ok, pgBase := s.seq.pgBase + s.cfg.pageSize } } : State).finish (s.seq.allOk && ok) :=
  if_neg (Nat.not_le_of_lt h)

/-- Settles O50: acceptance is the first block, at address 0. -/
theorem eraseAllStarts : Obligations.EraseAllStarts := by
  intro s hc hb
  rw [exec_idle _ hb]
  exact congrArg Host.Outcome.next (eraseBlock_eq (s := { s.accept .eraseall with
    regs := { s.regs with pageBuf := List.replicate s.cfg.pageSize 0 }
    seq := { (s.accept .eraseall).seq with pgBase := 0, allOk := true } }) hc (Nat.zero_le _))

/-- Settles O51: the page call returns to the walk, which has a next block or is over. -/
theorem eraseAllWalks : Obligations.EraseAllWalks := by
  intro s ok hc hb hph hret hretP hsuccess hcapped
  obtain ⟨n, step⟩ := pages_rs6_returns (i := .eraseall) (.inr (.inl rfl)) hb hph hret hsuccess hcapped
  rw [wpReturn_afterBlock ok (by exact hretP)] at step
  by_cases hnext : s.seq.pgBase + s.cfg.pageSize ≤ s.cfg.maxAddr
  · rw [eraseAfter_next ok (by exact hnext), eraseBlock_eq (by exact hc) (by exact hnext)] at step
    exact ⟨_, step, rfl, rfl, rfl, rfl, rfl, fun _ => ⟨hb, rfl, rfl, rfl, rfl⟩,
      fun h => absurd hnext (Nat.not_le_of_lt h)⟩
  · rw [eraseAfter_last ok (by exact Nat.lt_of_not_le hnext)] at step
    exact ⟨_, step, rfl, rfl, rfl, rfl, rfl, fun h => absurd h hnext, fun _ => ⟨rfl, rfl, rfl, rfl⟩⟩

end Sys2Proof.Machine
end

section
/-! SUPPORT. The stream of `loadStream`: acceptance, the step at `LS0`, the flush of a chunk and what follows it
(O53, O54, O56, O57). -/

namespace Sys2Proof.Machine

/-! ### Acceptance -/

/-- R246: what acceptance of `loadStream` makes of the working registers. -/
def State.streamCall (s : State) : State :=
  { s.accept .loadstream with seq := { (s.accept .loadstream).seq with
      pgBase := s.regs.addrOp.toNat, remain := s.regs.lenOp.toNat, pgLen := 0, allOk := true, sEnded := false } }

/-- R250: with nothing to load `loadStream` finishes at acceptance. -/
theorem startOf_loadstream_empty {s : State} (h : s.regs.lenOp = 0) :
    startOf .loadstream (s.accept .loadstream) = s.streamCall.finish true := if_pos (congrArg BitVec.toNat h)

/-- R246: with bytes to load `loadStream` goes to `LS0`. -/
theorem startOf_loadstream {s : State} (h : s.regs.lenOp ≠ 0) :
    startOf .loadstream (s.accept .loadstream) = s.streamCall.goto .ls0 :=
  if_neg fun hz => h (BitVec.eq_of_toNat_eq hz)

/-- Settles O53: acceptance by `LEN_OP`. -/
theorem loadStreamStarts : Obligations.LoadStreamStarts := by
  intro s hb
  refine ⟨fun hempty => ?_, fun hlen => ?_⟩
  · refine ⟨_, (exec_idle _ hb).trans (congrArg Host.Outcome.next (startOf_loadstream_empty hempty)),
      ?_, rfl, rfl, rfl, rfl⟩
    show ({ s.flags with busy := false, ok := true, dropped := false } : Flags) = _
    rw [← hb]
  · rw [exec_idle _ hb, startOf_loadstream hlen]
    rfl

/-! ### Behind a chunk -/

/-- R246: the registers behind a chunk whose page call returned `ok`. -/
def State.chunkDone (s : State) (ok : Bool) : State :=
  { s with seq := { s.seq with allOk := s.seq.allOk && ok, pgBase := s.seq.pgBase + s.seq.pgLen, pgLen := 0 } }

/-- R246: with the stream taken or ended the command finishes behind the chunk. -/
theorem loadAfter_finish {s : State} (ok : Bool) (h : s.seq.remain = 0 ∨ s.seq.sEnded = true) :
    loadAfter ok s = (s.chunkDone ok).finish (s.seq.allOk && ok) :=
  if_pos (by simpa using h)

/-- R246: with bytes left `LS0` waits for them behind the chunk. -/
theorem loadAfter_goesOn {s : State} (ok : Bool) (hleft : s.seq.remain ≠ 0) (hend : s.seq.sEnded = false) :
    loadAfter ok s = (s.chunkDone ok).goto .ls0 :=
  if_neg (by simp [hleft, hend])

/-- Settles O57: the page call returns to the stream, which is over or goes on. -/
theorem loadStreamChunkDone : Obligations.LoadStreamChunkDone := by
  intro s ok hb hph hret hretP hsuccess hcapped
  obtain ⟨n, step⟩ := pages_rs6_returns (i := .loadstream) (.inr (.inr rfl)) hb hph hret hsuccess hcapped
  rw [wpReturn_afterChunk ok (by exact hretP)] at step
  by_cases hover : s.seq.remain = 0 ∨ s.seq.sEnded = true
  · rw [loadAfter_finish ok (by exact hover)] at step
    exact ⟨_, step, rfl, rfl, rfl, rfl, rfl, rfl, rfl, fun _ => ⟨rfl, rfl, rfl⟩,
      fun hleft hend => absurd hover (not_or.2 ⟨hleft, by simp [hend]⟩)⟩
  · obtain ⟨hleft, hend⟩ := not_or.1 hover
    rw [loadAfter_goesOn ok (by exact hleft) (by exact Bool.eq_false_iff.2 hend)] at step
    exact ⟨_, step, rfl, rfl, rfl, rfl, rfl, rfl, rfl, fun h => absurd h hover, fun _ _ => ⟨hb, rfl⟩⟩

/-! ### The flush of a chunk -/

/-- R246: a chunk that lies in the array goes to `WP1`. -/
theorem loadFlush_valid {s : State} (hlen : 1 ≤ s.seq.pgLen) (hsize : s.seq.pgLen ≤ s.cfg.pageSize)
    (hmax : s.seq.pgBase + s.seq.pgLen - 1 ≤ s.cfg.maxAddr) :
    loadFlush s = { s with
      regs := { s.regs with attempts := 0 }, seq := { s.seq with retP := .afterChunk, ph := .wp1 } } :=
  wpCall_valid ((pageValid_iff _).2 ⟨hlen, hsize, hmax⟩)

/-- R250: a chunk that would pass the end of the array is dropped, and the stream goes on behind it. -/
theorem loadFlush_crossing {s : State} (h : s.cfg.maxAddr < s.seq.pgBase + s.seq.pgLen - 1) :
    loadFlush s = loadAfter false ({ s with seq := { s.seq with retP := .afterChunk } } : State).setDropped := by
  have hinvalid : s.pageValid = false := by
    rw [← Bool.not_eq_true, pageValid_iff]
    rintro ⟨-, -, hmax⟩
    omega
  exact wpCall_dropped hinvalid

theorem loadAfter_remain (ok : Bool) (s : State) : (loadAfter ok s).seq.remain = s.seq.remain := by
  unfold loadAfter; dsimp only; split <;> rfl

theorem loadFlush_remain (s : State) : (loadFlush s).seq.remain = s.seq.remain := by
  unfold loadFlush wpCall
  split
  · rfl
  · exact loadAfter_remain false _

/-! ### The step at `LS0` -/

/-- R246, R248: the step of a running `loadStream` at `LS0`. -/
theorem exec_ls0 {s : State} (hb : s.flags.busy = true) (hph : s.seq.ph = .ls0) :
    exec .loadstream s = .next (if s.port.valid then takeByte s else if s.port.ended then takeEnd s else s) :=
  loadstream_runs.exec hb (by rw [Proc.at, hph]; rfl)

/-- R246: at `LS0` a running `loadStream` takes an offered byte. -/
theorem exec_ls0_valid {s : State} (hb : s.flags.busy = true) (hph : s.seq.ph = .ls0) (hvalid : s.port.valid = true) :
    exec .loadstream s = .next (takeByte s) := by
  rw [exec_ls0 hb hph, if_pos hvalid]

/-- R246: at `LS0` a running `loadStream` with no byte offered takes the end mark. -/
theorem exec_ls0_ended {s : State} (hb : s.flags.busy = true) (hph : s.seq.ph = .ls0) (hvalid : s.port.valid = false)
    (hended : s.port.ended = true) : exec .loadstream s = .next (takeEnd s) := by
  rw [exec_ls0 hb hph, if_neg (by simp [hvalid]), if_pos hended]

/-- R248: at `LS0` with neither byte nor end mark nothing changes. -/
theorem exec_ls0_waits {s : State} (hb : s.flags.busy = true) (hph : s.seq.ph = .ls0) (hvalid : s.port.valid = false)
    (hended : s.port.ended = false) : exec .loadstream s = .next s := by
  rw [exec_ls0 hb hph, if_neg (by simp [hvalid]), if_neg (by simp [hended])]

/-- R246, R248: the offered byte in `PAGE_BUF`, and its offer ended. -/
def State.byteTaken (s : State) : State :=
  { s with
    regs := { s.regs with pageBuf := s.regs.pageBuf.set s.seq.pgLen s.port.data }
    seq := { s.seq with pgLen := s.seq.pgLen + 1, remain := s.seq.remain - 1 }
    port := { s.port with valid := false } }

/-- R246: the byte that fills the chunk or is the last of the stream sends the chunk. -/
theorem takeByte_flush {s : State} (h : s.seq.pgLen + 1 = s.cfg.pageSize ∨ s.seq.remain = 1) :
    takeByte s = loadFlush s.byteTaken := by
  refine if_pos ?_
  simp only [Bool.or_eq_true, decide_eq_true_eq]
  omega

/-- R246: behind any other byte `LS0` waits for the next. -/
theorem takeByte_waits {s : State} (hleft : 0 < s.seq.remain) (hfull : s.seq.pgLen + 1 ≠ s.cfg.pageSize)
    (hlast : s.seq.remain ≠ 1) : takeByte s = s.byteTaken.goto .ls0 := by
  refine if_neg ?_
  simp only [Bool.or_eq_true, decide_eq_true_eq]
  omega

/-- R246: the end mark sends the bytes gathered. -/
theorem takeEnd_flush {s : State} (h : 1 ≤ s.seq.pgLen) :
    takeEnd s = loadFlush { s with seq := { s.seq with sEnded := true } } := if_pos h

/-- R246: with nothing gathered the end mark finishes the command. -/
theorem takeEnd_finish {s : State} (h : s.seq.pgLen = 0) :
    takeEnd s = ({ s with seq := { s.seq with sEnded := true } } : State).finish s.seq.allOk :=
  if_neg (by simp [h])

/-- Settles O54: the byte is taken; a full or last chunk is flushed, and goes to `WP1` if it is valid. -/
theorem loadStreamTakesByte : Obligations.LoadStreamTakesByte := by
  intro s hb hph hvalid hleft
  have step := exec_ls0_valid hb hph hvalid
  by_cases hflush : s.seq.pgLen + 1 = s.cfg.pageSize ∨ s.seq.remain = 1
  · rw [takeByte_flush hflush] at step
    have kept := loadFlush_kept s.byteTaken
    refine ⟨_, step, kept.port, kept.bus, kept.trace, by rw [kept.regs]; rfl, loadFlush_remain _,
      fun hfull hlast => absurd hflush (not_or.2 ⟨hfull, hlast⟩), fun _ hsize hmax => ?_⟩
    rw [loadFlush_valid (Nat.le_add_left ..) (by exact hsize) (by exact hmax)]
    exact ⟨rfl, rfl, rfl, rfl, rfl, rfl⟩
  · obtain ⟨hfull, hlast⟩ := not_or.1 hflush
    rw [takeByte_waits hleft hfull hlast] at step
    refine ⟨_, step, rfl, rfl, rfl, rfl, rfl, fun _ _ => ⟨rfl, ?_⟩, fun h => absurd h hflush⟩
    rw [← hph]; rfl

/-- Settles O56: the chunk flushed by its last byte, or by the end mark, is dropped; behind it the stream is over or goes on. -/
theorem loadStreamDropsCrossingChunk : Obligations.LoadStreamDropsCrossingChunk := by
  refine fun s hb hph => ⟨fun hvalid hleft hflush hmax => ?_, fun hvalid hended hlen hmax => ?_⟩
  · have step := exec_ls0_valid hb hph hvalid
    rw [takeByte_flush hflush, loadFlush_crossing (by exact hmax)] at step
    by_cases hover : s.seq.remain - 1 = 0 ∨ s.seq.sEnded = true
    · rw [loadAfter_finish false (by exact hover)] at step
      exact ⟨_, step, rfl, Bool.and_false _, rfl, rfl, rfl, rfl, rfl, rfl,
        fun hlast hend => absurd hover (not_or.2 ⟨by omega, by simp [hend]⟩), fun _ => ⟨rfl, Bool.and_false _, rfl⟩⟩
    · obtain ⟨hlast, hend⟩ := not_or.1 hover
      rw [loadAfter_goesOn false (by exact hlast) (by exact Bool.eq_false_iff.2 hend)] at step
      exact ⟨_, step, rfl, Bool.and_false _, rfl, rfl, rfl, rfl, rfl, rfl, fun _ _ => ⟨hb, rfl⟩,
        fun h => absurd h (by omega)⟩
  · have step := exec_ls0_ended hb hph hvalid hended
    rw [takeEnd_flush hlen, loadFlush_crossing (by exact hmax), loadAfter_finish false (.inr rfl)] at step
    refine ⟨_, step, ?_, rfl, Bool.and_false _, rfl, rfl, rfl, rfl, rfl, rfl⟩
    show ({ s.flags with busy := false, ok := s.seq.allOk && false, dropped := true } : Flags) = _
    rw [Bool.and_false]

end Sys2Proof.Machine
end

section
/-! SUPPORT. `LS0` without a byte, and the producer's moves (O55). -/

namespace Sys2Proof.Machine

/-! ### The producer's own moves -/

/-- R110, R248: the producer's drive of its pins is next, alone or under the host's wait, and sets them. -/
theorem step_producer {s : State} {valid ended : Bool} {data : Byte} {kept rest : List Turn} (hc : s.cfg.wf)
    (hn : s.nextTurn = some (kept, .producer valid ended data, rest)) :
    step s = .next { s with inputs := kept ++ rest, port := ⟨valid, ended, data⟩ } := by
  rw [step_eq hc, nextMove_picked hn]; rfl

/-! ### The delivery of a source -/

/-- R248: while `loadStream` runs, a delivery waits for its offer to be taken and, with the end mark given, for the end. -/
theorem deliver_held_loadstream {s : State} (source : List Byte) (hb : s.flags.busy = true)
    (hd : decode s.seq.op = .ok .loadstream) :
    (Turn.deliver source).held s = (s.port.valid || (source.isEmpty && s.port.ended)) := by
  have hop : encode .loadstream = s.seq.op := decodeEncodeAgree.2 _ _ hd
  simp [Turn.held, hb, hop]

/-- R110: a delivery waits while another command than `loadStream` runs. -/
theorem deliver_held_other {s : State} {i : Instr} (source : List Byte) (hb : s.flags.busy = true)
    (hd : decode s.seq.op = .ok i) (hi : i ≠ .loadstream) : (Turn.deliver source).held s = true := by
  have hop : s.seq.op ≠ encode .loadstream := fun h => by
    rw [h, decode_encode] at hd
    cases hd
    exact hi rfl
  simp [Turn.held, hb, hop]

/-- R13, R110: while busy, a held delivery with nothing behind it but the host's wait leaves the sequencer to move. -/
theorem nextTurn_deliver_held {s : State} {source : List Byte} {rest : List Turn} (hb : s.flags.busy = true)
    (hi : s.inputs = .deliver source :: rest) (hheld : (Turn.deliver source).held s = true)
    (hrest : rest = [] ∨ rest = [.hostAwait]) : s.nextTurn = none := by
  have hawait : Turn.hostAwait.held s = true := hb
  rcases hrest with rfl | rfl
  · simp [State.nextTurn, hi, State.pick, hheld]
  · simp [State.nextTurn, hi, State.pick, hheld, hawait]

/-- R110, R248: while `loadStream` runs, a delivery with bytes left offers the next. -/
theorem step_deliver_byte {s : State} {b : Byte} {bytes : List Byte} {rest : List Turn} (hc : s.cfg.wf)
    (hi : s.inputs = .deliver (b :: bytes) :: rest) (hb : s.flags.busy = true)
    (hd : decode s.seq.op = .ok .loadstream) (hvalid : s.port.valid = false) :
    step s = .next { s with inputs := .deliver bytes :: rest, port := ⟨true, false, b⟩ } :=
  step_first_done hc hi (by rw [deliver_held_loadstream _ hb hd, hvalid]; rfl) (if_pos hb)

/-- R110, R248: while `loadStream` runs, a delivery without bytes left gives the end mark. -/
theorem step_deliver_end {s : State} {rest : List Turn} (hc : s.cfg.wf) (hi : s.inputs = .deliver [] :: rest)
    (hb : s.flags.busy = true) (hd : decode s.seq.op = .ok .loadstream) (hvalid : s.port.valid = false)
    (hended : s.port.ended = false) :
    step s = .next { s with inputs := .deliver [] :: rest, port := ⟨false, true, s.port.data⟩ } :=
  step_first_done hc hi (by rw [deliver_held_loadstream _ hb hd, hvalid, hended]; rfl) (if_pos hb)

/-- R110, log 29: with `BUSY = 0` a delivery is over, and the offer taken back. -/
theorem step_deliver_over {s : State} {source : List Byte} {rest : List Turn} (hc : s.cfg.wf)
    (hi : s.inputs = .deliver source :: rest) (hb : s.flags.busy = false) :
    step s = .next { s with inputs := rest, port := ⟨false, false, 0⟩ } :=
  step_first_done hc hi (by rw [Turn.held, hb]; rfl) (if_neg (by simp [hb]))

/-- Settles O55: the ends of the step at `LS0`; the producer's move, picked; the delivery, free, held or over. -/
theorem loadStreamEndsOrWaits : Obligations.LoadStreamEndsOrWaits := by
  refine ⟨fun s hb hph hvalid => ⟨exec_ls0_waits hb hph hvalid, fun hended hlen => ?_, fun hended hlen hsize hmax => ?_⟩,
    fun s valid ended data rest hc => ⟨fun hi => ?_, fun hb hi => ?_⟩,
    fun s source rest hc hi => ⟨?_, ?_, fun hb hheld hrest hd => ?_, fun i hb hd hne hrest => ?_,
      step_deliver_over hc hi⟩⟩
  · have step := exec_ls0_ended hb hph hvalid hended
    rw [takeEnd_finish hlen] at step
    exact ⟨_, step, rfl, rfl, rfl, rfl, rfl⟩
  · have step := exec_ls0_ended hb hph hvalid hended
    rw [takeEnd_flush hlen, loadFlush_valid (by exact hlen) (by exact hsize) (by exact hmax)] at step
    exact ⟨_, step, rfl, rfl, rfl, rfl, rfl⟩
  · exact step_producer hc (nextTurn_first hi rfl)
  · exact step_producer hc (nextTurn_past_await hb hi (by simp [Turn.behind]) rfl)
  · rintro b bytes hb hd hvalid rfl
    exact step_deliver_byte hc hi hb hd hvalid
  · rintro hb hd hvalid rfl hended
    exact step_deliver_end hc hi hb hd hvalid hended
  · have hwait : (Turn.deliver source).held s = true := by
      rw [deliver_held_loadstream source hb hd]; simpa using hheld
    exact step_sequencer_unpicked hc hb hd (nextTurn_deliver_held hb hi hwait hrest)
  · exact step_sequencer_unpicked hc hb hd
      (nextTurn_deliver_held hb hi (deliver_held_other source hb hd hne) hrest)

end Sys2Proof.Machine
end

section
/-! SUPPORT. With a cap, `writePage` and `eraseAll` finish whatever the device answers (O46, O52). -/

namespace Sys2Proof.Machine

/-! ### Runs busy throughout -/

/-- `BUSY = 1` before each of the first `m` steps. -/
def BusyBefore (m : Nat) (i : Instr) (s : State) : Prop :=
  ∀ j u, j < m → execTimes j i s = .next u → u.flags.busy = true

/-- A run busy throughout, and one that goes on from its end. -/
theorem BusyBefore.trans {m n : Nat} {i : Instr} {s t : State} (h : BusyBefore m i s)
    (run : execTimes m i s = .next t) (g : BusyBefore n i t) : BusyBefore (m + n) i s := by
  intro j u hj hu
  by_cases hm : j < m
  · exact h j u hm hu
  · obtain ⟨l, rfl⟩ := Nat.exists_eq_add_of_le (Nat.le_of_not_lt hm)
    rw [execTimes_trans run rfl] at hu
    exact g l u (by omega) hu

/-- Behind acceptance, a run busy throughout is one of the command's. -/
theorem BusyBefore.accepted {m : Nat} {i : Instr} {s : State} (hb : s.flags.busy = false)
    (h : BusyBefore m i (startOf i (s.accept i))) :
    ∀ j u, 1 ≤ j → j < m + 1 → execTimes j i s = .next u → u.flags.busy = true := by
  intro j u hj hm hu
  obtain ⟨l, rfl⟩ := Nat.exists_eq_add_of_le' hj
  rw [execTimes_accept l i hb] at hu
  exact h l u (by omega) hu

/-! ### A page call from its start -/

/-- R191, R193: at `WP1` in the page writer, with the cap `k`, no attempt counted and nothing dropped. -/
structure CallStarts (k : Nat) (r : RetP) (s : State) : Prop where
  config : s.cfg.wf
  cap : s.cfg.retryCap = some k
  busy : s.flags.busy = true
  page : s.paging r
  label : s.seq.ph = .wp1
  fresh : s.regs.attempts = 0
  kept : s.flags.dropped = false

theorem CallStarts.withinCap {k : Nat} {r : RetP} {s : State} (h : CallStarts k r s) : WithinCap k s := by
  obtain ⟨-, -, -, -, hpositive⟩ := h.config
  have hk : k ≠ 0 := fun hz => hpositive (hz ▸ h.cap)
  have hcount : s.regs.attempts.toNat = 0 := by rw [h.fresh]; rfl
  exact ⟨by omega, fun _ => by omega, fun hph => absurd h.label hph⟩

/-- R288: the steps of an attempt, as the rule sums them: the write phase, the poll, the read-back. -/
theorem attemptSteps_eq (c : Config) (n : Nat) :
    attemptSteps c n = (3 + 4 * n) + (1 + 5 * c.pollBudget) + 7 * n := by
  unfold attemptSteps tailSteps; omega

/-- R288: at its start a call has the steps of `k` attempts left. -/
theorem CallStarts.callRest_eq {k : Nat} {r : RetP} {s : State} (h : CallStarts k r s) :
    callRest k s = k * attemptSteps s.cfg s.seq.pgLen := by
  simp [callRest, State.attemptRest, h.label, h.fresh, Nat.mul_comm]

/-- R288: a capped page call returns within the steps of `k` attempts, busy until then. -/
theorem CallStarts.returns {i : Instr} {k : Nat} {r : RetP} {s : State} (hi : i.pages) (hk : k < 2 ^ 32)
    (h : CallStarts k r s) :
    ∃ m u ok, 1 ≤ m ∧ m ≤ k * attemptSteps s.cfg s.seq.pgLen ∧ SameCall s u ∧
      execTimes m i s = .next (wpReturn ok u) ∧ Returned k ok u ∧ BusyBefore m i s :=
  have ⟨_, _, _, hpolls, _⟩ := h.config
  capped_call_returns hi hk _ h.callRest_eq.le h.page h.busy hpolls h.cap h.withinCap

/-! ### `writePage` -/

/-- R192: acceptance of a valid page starts its call. -/
theorem writepage_callStarts {s : State} {k : Nat} (hc : s.cfg.wf) (hcap : s.cfg.retryCap = some k)
    (hvalid : s.pageCall.pageValid = true) : CallStarts k .finish (startOf .writepage (s.accept .writepage)) := by
  rw [startOf_writepage_valid hvalid]
  exact ⟨hc, hcap, rfl, ⟨rfl, hvalid, .inl rfl⟩, rfl, rfl, rfl⟩

/-- R191: an invalid page is dropped at acceptance. -/
theorem writepage_dropped {s : State} (hb : s.flags.busy = false) (hinvalid : ¬ s.pageCall.pageValid = true) :
    execTimes 1 .writepage s = .next (s.pageCall.setDropped.finish false) := by
  rw [execTimes_accept 0 _ hb, startOf_writepage, wpCall_dropped (Bool.eq_false_iff.2 hinvalid)]
  rfl

/-- Settles O46: an invalid page is dropped at acceptance; the call of a valid one returns, and its return finishes. -/
theorem cappedWritePageFinishes : Obligations.CappedWritePageFinishes := by
  intro s k hc hb hcap hk
  by_cases hvalid : s.pageCall.pageValid = true
  · have starts := writepage_callStarts hc hcap hvalid
    obtain ⟨m, u, ok, -, hm, same, run, ret, busy⟩ := starts.returns (i := .writepage) (.inl rfl) hk
    rw [startOf_writepage_valid hvalid] at hm same
    have hdropped : u.flags.dropped = false := same.dropped
    rw [wpReturn_finish ok same.retP] at run
    refine ⟨m + 1, u.finish ok, (execTimes_accept m _ hb).trans run, by omega, ?_, busy.accepted hb, rfl, rfl, same.op,
      iff_of_true hdropped ((pageCall_valid_iff s).1 hvalid), fun h => absurd (hdropped.symm.trans h) (by decide),
      fun _ => ⟨ret.counted, ret.capped, ret.success, ret.failure⟩⟩
    replace hm : m ≤ k * attemptSteps s.cfg s.regs.lenOp.toNat := hm
    rw [attemptSteps_eq] at hm
    omega
  · exact ⟨1, _, writepage_dropped hb hvalid, Nat.le_refl 1, Nat.le_add_right .., fun j u hj hlt => by omega, rfl, rfl,
      rfl, iff_of_false (fun h => by cases h) fun h => hvalid ((pageCall_valid_iff s).2 h),
      fun _ => ⟨rfl, rfl, rfl⟩, fun h => by cases h⟩

/-! ### The walk of `eraseAll` -/

/-- R241: what acceptance of `eraseAll` makes of the registers before its first block. -/
def State.eraseCall (s : State) : State :=
  { s.accept .eraseall with
    regs := { s.regs with pageBuf := List.replicate s.cfg.pageSize 0 }
    seq := { (s.accept .eraseall).seq with pgBase := 0, allOk := true } }

theorem startOf_eraseall (s : State) : startOf .eraseall (s.accept .eraseall) = eraseBlock s.eraseCall := rfl

/-- What the blocks of `eraseAll` keep. -/
structure SameErase (s t : State) : Prop where
  cfg : t.cfg = s.cfg
  op : t.seq.op = s.seq.op
  buf : t.regs.pageBuf = s.regs.pageBuf

theorem SameErase.trans {s t u : State} (h : SameErase s t) (g : SameErase t u) : SameErase s u :=
  ⟨g.cfg.trans h.cfg, g.op.trans h.op, g.buf.trans h.buf⟩

theorem Bookkept.sameErase {s t : State} (h : Bookkept s t) : SameErase s t := ⟨h.cfg, h.op, h.pageBuf⟩

theorem SameCall.sameErase {s t : State} (h : SameCall s t) : SameErase s t := ⟨h.cfg, h.op, h.buf⟩

/-- R241, R242: how `eraseAll` finishes with the cap `k`. -/
structure Erased (k : Nat) (t : State) : Prop where
  idle : t.flags.busy = false
  label : t.seq.ph = .idle
  result : t.flags.ok = t.seq.allOk
  kept : t.flags.dropped = false
  behind : t.cfg.maxAddr < t.seq.pgBase
  counted : 1 ≤ t.regs.attempts.toNat
  capped : t.regs.attempts.toNat ≤ k

/-- R241, R242: a block that begins in the array starts its page call. -/
theorem eraseBlock_callStarts {s : State} {k : Nat} (hc : s.cfg.wf) (hcap : s.cfg.retryCap = some k)
    (hb : s.flags.busy = true) (hd : s.flags.dropped = false) (hbase : s.seq.pgBase ≤ s.cfg.maxAddr) :
    CallStarts k .afterBlock (eraseBlock s) := by
  have hpos := eraseBlock_pos s hc hb hd hbase
  rw [eraseBlock_eq hc hbase] at hpos ⊢
  obtain ⟨-, ⟨hidle, -⟩ | ⟨-, hpage, hdropped⟩⟩ := hpos
  · exact absurd (hb.symm.trans hidle) (by decide)
  · exact ⟨hc, hcap, hb, hpage, rfl, rfl, hdropped⟩

/-- R241: acceptance of `eraseAll` starts the call of its first block. -/
theorem eraseall_callStarts {s : State} {k : Nat} (hc : s.cfg.wf) (hcap : s.cfg.retryCap = some k) :
    CallStarts k .afterBlock (startOf .eraseall (s.accept .eraseall)) := by
  rw [startOf_eraseall]
  exact eraseBlock_callStarts hc hcap rfl rfl (Nat.zero_le _)

/-- R241: a page call that returned leads to the call of the next block or, behind the last, to the end. -/
theorem eraseAfter_callStarts_or_erased {u : State} {k : Nat} {ok : Bool} (hc : u.cfg.wf)
    (hcap : u.cfg.retryCap = some k) (hb : u.flags.busy = true) (hd : u.flags.dropped = false)
    (ret : Returned k ok u) :
    (u.seq.pgBase < (eraseAfter ok u).seq.pgBase ∧ (eraseAfter ok u).seq.pgBase ≤ (eraseAfter ok u).cfg.maxAddr ∧
        CallStarts k .afterBlock (eraseAfter ok u)) ∨
      Erased k (eraseAfter ok u) := by
  have ⟨_, _, ⟨hpage, _⟩, _⟩ := hc
  by_cases hnext : u.seq.pgBase + u.cfg.pageSize ≤ u.cfg.maxAddr
  · have starts := eraseBlock_callStarts (s := { u with seq := { u.seq with
      allOk := u.seq.allOk && ok, pgBase := u.seq.pgBase + u.cfg.pageSize } }) hc hcap hb hd hnext
    rw [← eraseAfter_next ok hnext] at starts
    have hbase : (eraseAfter ok u).seq.pgBase = u.seq.pgBase + u.cfg.pageSize := by
      rw [eraseAfter_next ok hnext, eraseBlock_eq (by exact hc) (by exact hnext)]
    refine .inl ⟨?_, ?_, starts⟩
    · rw [hbase]; exact Nat.lt_add_of_pos_right hpage
    · rw [hbase, (eraseAfter_kept ok u).cfg]; exact hnext
  · rw [eraseAfter_last ok (Nat.lt_of_not_le hnext)]
    exact .inr ⟨rfl, rfl, rfl, hd, Nat.lt_of_not_le hnext, ret.counted, ret.capped⟩

/-- R241, R288: with a cap, the page call of a block of `eraseAll` returns, and the next begins or the walk is over. -/
theorem eraseall_block_run {k : Nat} {s : State} (hk : k < 2 ^ 32) (h : CallStarts k .afterBlock s) :
    ∃ m t, execTimes m .eraseall s = .next t ∧ BusyBefore m .eraseall s ∧ SameErase s t ∧
      ((s.seq.pgBase < t.seq.pgBase ∧ t.seq.pgBase ≤ t.cfg.maxAddr ∧ CallStarts k .afterBlock t) ∨ Erased k t) := by
  obtain ⟨m, u, ok, -, -, same, run, ret, busy⟩ := h.returns (i := .eraseall) (.inr (.inl rfl)) hk
  rw [wpReturn_afterBlock ok (same.retP.trans h.page.1)] at run
  have after := eraseAfter_callStarts_or_erased (same.cfg ▸ h.config) (same.cfg ▸ h.cap) (same.busy.trans h.busy)
    (same.dropped.trans h.kept) ret
  rw [same.base] at after
  exact ⟨m, _, run, busy, same.sameErase.trans (eraseAfter_kept ok u).sameErase, after⟩

/-- R240, R288: with a cap, `eraseAll` at the start of a block finishes, busy until then: `PG_BASE` rises with each block. -/
theorem eraseall_finishes {k : Nat} {s : State} (hk : k < 2 ^ 32) (h : CallStarts k .afterBlock s) :
    ∃ m t, execTimes m .eraseall s = .next t ∧ BusyBefore m .eraseall s ∧ SameErase s t ∧ Erased k t := by
  induction hn : s.cfg.maxAddr - s.seq.pgBase using Nat.strong_induction_on generalizing s with
  | _ n ih =>
    obtain ⟨m, t, run, busy, same, ⟨hlt, hle, next⟩ | erased⟩ := eraseall_block_run hk h
    · have hleft : t.cfg.maxAddr - t.seq.pgBase < n := by rw [same.cfg] at hle ⊢; omega
      obtain ⟨l, v, rest, busyRest, sameRest, erased⟩ := ih _ hleft next rfl
      exact ⟨m + l, v, execTimes_trans run rest, busy.trans run busyRest, same.trans sameRest, erased⟩
    · exact ⟨m, t, run, busy, same, erased⟩

/-- Settles O52: acceptance starts the first block, and the walk from there finishes. -/
theorem cappedEraseAllFinishes : Obligations.CappedEraseAllFinishes := by
  intro s k hc hb hcap hk
  obtain ⟨m, t, run, busy, same, erased⟩ := eraseall_finishes hk (eraseall_callStarts hc hcap)
  rw [startOf_eraseall] at same
  have hsame : SameErase s.eraseCall t := (eraseBlock_kept _).sameErase.trans same
  exact ⟨m + 1, t, (execTimes_accept m _ hb).trans run, Nat.le_add_left .., busy.accepted hb, erased.idle,
    erased.label, hsame.op, erased.result, erased.kept, hsame.cfg ▸ erased.behind, hsame.buf, erased.counted,
    erased.capped⟩

end Sys2Proof.Machine
end

section
/-! SUPPORT. `RST` as a step: the controller's registers and the device behind it (O12, O13). -/

namespace Sys2Proof.Machine

/-- R300: with a reset move first the step is the reset, whatever the machine was doing. -/
theorem step_reset {s : State} {rest : List Turn} (hc : s.cfg.wf) (hi : s.inputs = .reset :: rest) :
    step s = .next ({ s with inputs := rest } : State).applyReset :=
  step_first_done hc hi rfl rfl

/-- Settles O12: the registers after the step are those of `Bus.reset`, `Regs.reset`, `Flags.reset` and `Sequencer.reset`. -/
theorem resetAbandonsCommand : Obligations.ResetAbandonsCommand := by
  intro s rest hc hi
  exact ⟨_, step_reset hc hi, rfl, rfl, rfl, rfl, rfl, rfl, rfl, rfl, rfl⟩

/-! ### The write cycle goes on -/

theorem Device.latch_busy (d : Device) (b : Bus) (n : Nat) : (d.latch b n).1.busy = d.busy := by
  unfold Device.latch
  split
  · rfl
  · split <;> rfl

theorem Device.cutPulse_busy (d : Device) (b : Bus) (n : Nat) : (d.cutPulse b n).1.busy = d.busy := by
  unfold Device.cutPulse
  split
  · dsimp only
    split
    · exact d.latch_busy b _
    · rfl
  · rfl

theorem Device.recognise_busy (d : Device) (on : Bool) (n : Nat) : (d.recognise on n).1.busy = d.busy := by
  unfold Device.recognise
  split <;> rfl

/-- R77: the close of a window may start a write cycle; it ends none. -/
theorem Device.closeWindow_busy {d : Device} (h : d.busy = true) (p n : Nat) : (d.closeWindow p n).1.busy = true := by
  unfold Device.closeWindow
  dsimp only
  split
  · exact h
  · split
    · exact (d.recognise_busy _ _).trans h
    · split
      · exact (d.recognise_busy _ _).trans h
      · split
        · exact h
        · split
          · rfl
          · exact h

/-- R79, R82: a write cycle that runs goes on through the controller's reset, also out of a window. -/
theorem Device.onReset_busy {d : Device} (h : d.busy = true) (p : Nat) (b : Bus) (n : Nat) :
    (d.onReset p b n).1.busy = true := by
  unfold Device.onReset
  split
  · have closed := Device.closeWindow_busy ((d.cutPulse_busy b n).trans h) p (d.cutPulse b n).2
    dsimp only
    split <;> exact closed
  · exact h

/-- R302: outside a window the device does not see the controller's reset. -/
theorem Device.onReset_outside (d : Device) (p n : Nat) {b : Bus} (hce : b.ce = false) : d.onReset p b n = (d, n) := by
  simp [Device.onReset, hce]

/-- Settles O13: the device after the step is what its reaction to the falling lines leaves. -/
theorem resetLeavesDevice : Obligations.ResetLeavesDevice := by
  intro s rest hc hi
  refine ⟨_, step_reset hc hi, (s.dev.onReset_kept ..).mem, fun hbusy => Device.onReset_busy hbusy .., fun hce => ?_⟩
  rw [applyReset_dev, Device.onReset_outside _ _ _ hce]

end Sys2Proof.Machine
end

section
/-! SUPPORT. Write-enable with output-enable inside a window (O22). -/

namespace Sys2Proof.Machine

/-- R310, U3: a change to lines with chip-enable, write-enable and output-enable asserted leaves the device undefined. -/
theorem Device.react_hazard (d : Device) (p : Nat) (b : Bus) {c : Bus} (n : Nat)
    (h : (c.ce && c.we && c.oe) = true) : (d.react p b c n).1.undef = true := by
  have noted : ∀ e : Device, (e.watch c).undef = true := fun e => by simp [Device.watch, h]
  exact noted _

/-- R137, R310: a passthrough command that drives the lines to such a hazard completes, behind it an undefined device. -/
theorem exec_drive_hazard {i : Instr} (a : Prim) (hstart : startOf i = startPrim)
    (hprocs : procsOf i = [primStep fun u => a.apply u]) {s : State} (hb : s.flags.busy = false) {b : Bus} {e : Event}
    (hdrive : a.apply (startPrim (s.accept i)) = (startPrim (s.accept i)).drive b e)
    (h : (b.ce && b.we && b.oe) = true) :
    ∃ u t, exec i s = .next u ∧ exec i u = .next t ∧ t.bus = b ∧ t.dev.undef = true := by
  obtain ⟨haccept, hstep⟩ := exec_primitive_completes (fun _ => a) hstart hprocs hb
  rw [hdrive] at hstep
  exact ⟨_, _, haccept, hstep, rfl, Device.react_hazard _ _ _ _ h⟩

/-- Settles O22: either command completes the hazard that the other line began. -/
theorem writeWithOutputUndefinesDevice : Obligations.WriteWithOutputUndefinesDevice := by
  intro s hb hce
  refine ⟨fun hoe => ?_, fun hwe => ?_⟩
  · exact exec_drive_hazard (.we true) rfl rfl hb rfl (by simp [hce, hoe])
  · exact exec_drive_hazard (.oe true) rfl rfl hb rfl (by simp [hce, hwe])

end Sys2Proof.Machine
end
